-- ==== Sys2Proof/Word.lean ====
section
/-! DEFINITION. The word types of the machine (00_scope.md R7: a byte is 8 bits, a word 16, a doubleword 32). -/

namespace Sys2Proof

/-- A byte (R7). -/
abbrev Byte := BitVec 8

/-- A "word" of the manual: 16 bits (R7). -/
abbrev Word16 := BitVec 16

/-- A "doubleword" of the manual: 32 bits (R7); also a linear address (R36). -/
abbrev Word32 := BitVec 32

/-- A physical address: 36 bits hold both widths of `cfg.phys_bits`, a 32-bit one extended with zeros
(10_state.md R36, 43_translation_32bit.md R170). -/
abbrev PhysAddr := BitVec 36

end Sys2Proof
end

