-- ==== Sys2Proof/Config.lean ====
section
/-! DEFINITION. What an implementation fixes (00_scope.md R5) and the free values, which are opaque constants: no
proof can know what they are. -/

namespace Sys2Proof

/-- `cfg.phys_bits` (R5): 32 or 36. -/
inductive PhysWidth where
  | bits32
  | bits36
deriving DecidableEq, Repr, Inhabited

/-- A range of physical addresses that hold memory: `base` to `base + size - 1`. -/
structure Region where
  base : Nat
  size : Nat
deriving DecidableEq, Repr, Inhabited

/-! ### The three parameters of R5 that are functions

Plain data names an instance of each; the machine's `pagePermits`, `segTranslate` and `alignCheckOn` are the functions. -/

/-- The kind of an access (00_scope.md R9). -/
inductive AccessKind where
  | read
  | write
  | fetch
deriving DecidableEq, Repr, Inhabited

/-- The two levels of paging (10_state.md R35). -/
inductive Priv where
  | user
  | supervisor
deriving DecidableEq, Repr, Inhabited

/-- A segment register by name (30_encoding.md R84). -/
inductive Seg where
  | es
  | cs
  | ss
  | ds
  | fs
  | gs
deriving DecidableEq, Repr, Inhabited

/-- Why an address is asked for: INVLPG asks for no access (42_paging_control.md R154). -/
inductive SegAccess where
  | read
  | write
  | none
deriving DecidableEq, Repr, Inhabited

/-- The arguments of `cfg.PagePermits` (44_paging_entries.md R205). -/
structure PermitCase where
  priv : Priv
  acc : AccessKind
  wp : Bool
  usPde : Bool
  rwPde : Bool
  pteFlags : Option (Bool × Bool)
deriving DecidableEq, Repr, Inhabited

/-- `cfg.PagePermits` (R5, R205; 92_eei_decisions.md D6). -/
inductive PermitRule where
  /-- The spec's default, `PagePermitsDefault` (log 10). -/
  | standard
  /-- Any other: the cases it permits, of the finitely many there are. -/
  | table (permitted : List PermitCase)
deriving DecidableEq, Repr, Inhabited

/-- The arguments of `cfg.SegTranslate` (40_descriptor_tables.md R109). -/
structure SegCase where
  sreg : Seg
  offset : Word32
  n : Nat
  acc : SegAccess
deriving DecidableEq, Repr, Inhabited

/-- What an instance of `cfg.SegTranslate` answers through a usable register (R109). Its exception is #GP, the one
60_exceptions.md R252 gives to segment use. -/
inductive SegOutcome where
  | linear (la : Word32)
  | protection (code : Word16)
deriving DecidableEq, Repr, Inhabited

/-- `cfg.SegTranslate` (R5, R109; 92_eei_decisions.md D23). -/
inductive SegRule where
  /-- The spec's default, the flat instance (log 7). -/
  | flat
  /-- Any other: the cases in which it departs from the flat instance, of the finitely many there are; the first row
  of a case counts. -/
  | table (rows : List (SegCase × SegOutcome))
deriving DecidableEq, Repr, Inhabited

/-- What enables alignment checking, as far as `cfg.AlignCheckOn` may look: DESIGN CHOICE (log 11), the registers that hold
flags. -/
structure AlignCase where
  cr0 : Word32
  cr4 : Word32
  eflags : Word32
deriving DecidableEq, Repr, Inhabited

/-- `cfg.AlignCheckOn` (R5; 60_exceptions.md R256; 92_eei_decisions.md D16). -/
inductive AlignRule where
  /-- The conjunction of two flags that R256 gives (log 11). -/
  | standard
  /-- Any other: the cases in which checking is on, of the finitely many there are. -/
  | table (enabled : List AlignCase)
deriving DecidableEq, Repr, Inhabited

/-! ### The record -/

/-- The configuration record `cfg` of 00_scope.md R5, as plain data. It is a field of State that nothing writes
(10_state.md R40), so a statement about every state is about every configuration (log 1). -/
structure Config where
  /-- CR4.PSE can be set. -/
  hasPse : Bool
  /-- CR4.PAE can be set; CPUID PAE feature flag. -/
  hasPae : Bool
  /-- CPUID PSE-36 feature flag. -/
  hasPse36 : Bool
  /-- The G flag and CR4.PGE exist. -/
  hasPge : Bool
  /-- The PAT flag exists. -/
  hasPat : Bool
  /-- The NOTE of §3.7.2 applies: a change of PSE flushes nothing. -/
  pentiumOnlyPseFlush : Bool
  /-- Width of a physical address. -/
  physBits : PhysWidth
  /-- Bits that "should be set to 0" are ignored by the walker (90_conflicts.md C17). -/
  ignoreShouldBeZero : Bool
  /-- `cfg.PhysMap`: the physical addresses that hold memory. -/
  physMap : List Region
  /-- `cfg.PagePermits`. -/
  permitRule : PermitRule
  /-- `cfg.SegTranslate`. -/
  segRule : SegRule
  /-- `cfg.AlignCheckOn`. -/
  alignRule : AlignRule
deriving DecidableEq, Repr, Inhabited

/-- The number of bits of a physical address. -/
def PhysWidth.toNat : PhysWidth → Nat
  | .bits32 => 32
  | .bits36 => 36

/-- The constraints R5 puts between the fields, and PhysMap inside the physical address space. -/
def Config.wf (c : Config) : Bool :=
  (c.physBits == .bits32 || c.hasPae || c.hasPse36) &&
  (!c.hasPse36 || c.hasPse) &&
  c.physMap.all fun r => decide (r.base + r.size ≤ 2 ^ c.physBits.toNat)

/-- The features of the processor at hand, before the constraints of R5 are applied. -/
structure Features where
  hasPse : Bool
  hasPae : Bool
  hasPse36 : Bool
  hasPge : Bool
  hasPat : Bool
  pentiumOnlyPseFlush : Bool
  widePhysical : Bool
deriving DecidableEq, Repr, Inhabited

/-- DESIGN CHOICE (log 1): which processor the machine after reset is: open (92_eei_decisions.md D24). -/
opaque Config.processor : Features

/-- DESIGN CHOICE (log 1): the configuration after reset. The features are the open processor's, the constraints of
R5 holding; `ignoreShouldBeZero`, `permitRule`, `segRule` and `alignRule` are the spec's defaults (log 10, log 7,
log 11); PhysMap is the 4 GBytes of the 32-bit physical address space (log 2). -/
def Config.atReset : Config where
  hasPse := Config.processor.hasPse
  hasPae := Config.processor.hasPae
  hasPse36 := Config.processor.hasPse && Config.processor.hasPse36
  hasPge := Config.processor.hasPge
  hasPat := Config.processor.hasPat
  pentiumOnlyPseFlush := Config.processor.pentiumOnlyPseFlush
  physBits :=
    bif Config.processor.widePhysical &&
        (Config.processor.hasPae || (Config.processor.hasPse && Config.processor.hasPse36)) then
      .bits36
    else .bits32
  ignoreShouldBeZero := false
  physMap := [⟨0, 2 ^ 32⟩]
  permitRule := .standard
  segRule := .flat
  alignRule := .standard

/-- PRESUMED (log 5): the processor signature EDX holds after reset (70_reset_and_hazards.md R280); its value is the
processor's. -/
opaque Config.signature : Word32

/-- DESIGN CHOICE (log 14): the free yes-or-no values. The step applies it to the counter `choices`. -/
opaque Config.freeBool : Nat → Bool

/-- DESIGN CHOICE (log 14): the free 32-bit values. The step applies it to the counter `choices`. -/
opaque Config.freeWord : Nat → Word32

/-- What CPUID leaves in the four registers, before the feature flags are put in. -/
structure CpuidLeaf where
  eax : Word32
  ebx : Word32
  ecx : Word32
  edx : Word32
deriving DecidableEq, Repr, Inhabited

/-- DESIGN CHOICE (log 25): the values CPUID returns for a source operand, fixed for a processor
(42_paging_control.md R162; 93_implementation_defined.md U10). -/
opaque Config.cpuidLeaf : Word32 → CpuidLeaf

end Sys2Proof
end

