-- ==== Sys2Proof/Syntax.lean ====
section
/-! DEFINITION. The instructions: one constructor of `Instr` for each row of spec/opcode_table.json. Memory operands keep the
shape of their ModR/M and SIB encoding (30_encoding.md R85), so that an instruction has one length. -/

namespace Sys2Proof

/-- The general registers (30_encoding.md R84). -/
inductive Reg where
  | eax
  | ecx
  | edx
  | ebx
  | esp
  | ebp
  | esi
  | edi
deriving DecidableEq, Repr, Inhabited

/-- The data-segment registers a selector can be loaded into (40_descriptor_tables.md R107). -/
inductive DataSeg where
  | es
  | ds
  | fs
  | gs
deriving DecidableEq, Repr, Inhabited

/-- The memory forms of a ModR/M operand (30_encoding.md R85). In a SIB form the index ESP means that there is no
index. -/
inductive Mem where
  /-- mod 00: the register. -/
  | base (r : Reg)
  /-- mod 00, rm 101: a 32-bit displacement alone. -/
  | disp (d : Word32)
  /-- mod 01: register and 8-bit displacement. -/
  | baseDisp8 (r : Reg) (d : Byte)
  /-- mod 10: register and 32-bit displacement. -/
  | baseDisp32 (r : Reg) (d : Word32)
  /-- mod 00 with SIB. -/
  | sib (b i : Reg) (scale : BitVec 2)
  /-- mod 00 with SIB, SIB.base 101: a 32-bit displacement in place of the base. -/
  | sibNoBase (i : Reg) (scale : BitVec 2) (d : Word32)
  /-- mod 01 with SIB. -/
  | sibDisp8 (b i : Reg) (scale : BitVec 2) (d : Byte)
  /-- mod 10 with SIB. -/
  | sibDisp32 (b i : Reg) (scale : BitVec 2) (d : Word32)
deriving DecidableEq, Repr, Inhabited

/-- A register or memory operand `r/m`. -/
inductive RegMem where
  | reg (r : Reg)
  | mem (m : Mem)
deriving DecidableEq, Repr, Inhabited

/-- The instructions of spec/opcode_table.json, in the table's order. -/
inductive Instr where
  /-- `SGDT m` -/
  | sgdt (m : Mem)
  /-- `SIDT m` -/
  | sidt (m : Mem)
  /-- `INVLPG m` -/
  | invlpg (m : Mem)
  /-- `SLDT r/m16` -/
  | sldt (dst : RegMem)
  /-- `STR r/m16` -/
  | str (dst : RegMem)
  /-- `MOV CR0, r32` -/
  | movCr0FromReg (r : Reg)
  /-- `MOV r32, CR0` -/
  | movRegFromCr0 (r : Reg)
  /-- `MOV CR3, r32` -/
  | movCr3FromReg (r : Reg)
  /-- `MOV r32, CR3` -/
  | movRegFromCr3 (r : Reg)
  /-- `MOV CR4, r32` -/
  | movCr4FromReg (r : Reg)
  /-- `MOV r32, CR4` -/
  | movRegFromCr4 (r : Reg)
  /-- `CPUID` -/
  | cpuid
  /-- `MOV Sreg, r/m16` -/
  | movSreg (sreg : DataSeg) (src : RegMem)
  /-- `MOV r32, imm32` -/
  | movRegImm32 (r : Reg) (imm : Word32)
  /-- `MOV EAX, moffs32` -/
  | movEaxMoffs32 (off : Word32)
  /-- `MOV moffs32, EAX` -/
  | movMoffs32Eax (off : Word32)
  /-- `OR EAX, imm32` -/
  | orEaxImm32 (imm : Word32)
deriving DecidableEq, Repr, Inhabited

end Sys2Proof
end

