-- ==== Sys2Proof/Machine/State.lean ====
section
/-! DEFINITION. The state of the machine as plain data, the exceptions, faults and refusals a step can end in, and the state
after reset (spec/10_state.md, spec/60_exceptions.md, spec/70_reset_and_hazards.md R280). -/

namespace Sys2Proof.Machine

/-- The eight general registers (10_state.md R20, R21). -/
structure Gprs where
  eax : Word32
  ecx : Word32
  edx : Word32
  ebx : Word32
  esp : Word32
  ebp : Word32
  esi : Word32
  edi : Word32
deriving DecidableEq, Repr

/-- GDTR or IDTR: base address and limit (R30, R31). -/
structure TableReg where
  base : Word32
  limit : Word16
deriving DecidableEq, Repr

/-- LDTR: the selector and the cached copy of the LDT's descriptor (R32, R39). The widths of limit and access rights
are not in the source (log 28). -/
structure Ldtr where
  selector : Word16
  base : Word32
  limit : Word32
  access : Byte
deriving DecidableEq, Repr

/-- The task register (R33); only its selector is given a use (41_pseudo_descriptor.md R133). -/
structure TaskReg where
  selector : Word16
deriving DecidableEq, Repr

/-- A data-segment register: its selector, and whether a memory access may use it (40_descriptor_tables.md R107). -/
structure SegReg where
  selector : Word16
  usable : Bool
deriving DecidableEq, Repr

/-- Physical memory (R37): cells in strictly rising order of address, none equal to what an unlisted byte reads as. -/
abbrev Memory := List Host.Cell

/-- An entry of the TLB (R38): copies of the paging entries a successful walk used, keyed by linear page number. The
page size is the constructor; the `global` flag is the G flag of the last copy. -/
inductive TlbEntry where
  /-- A 4-KByte page: `vpn` is `la[31:12]`. -/
  | page4K (vpn : BitVec 20) (pde pte : Word32)
  /-- A 4-MByte page: `vpn` is `la[31:22]`. -/
  | page4M (vpn : BitVec 10) (pde : Word32)
deriving DecidableEq, Repr

/-- The machine's state. `cfg` is the configuration, which nothing writes (R40). `choices`, the number of free values
used so far, is the model's own field (log 14); `written` is what 20_memory.md R73 needs remembered. -/
structure State where
  /-- The configuration record of 00_scope.md R5. -/
  cfg : Config
  /-- The general registers. -/
  gprs : Gprs
  /-- The instruction pointer (R23). -/
  eip : Word32
  /-- The hidden base of the code segment (70_reset_and_hazards.md R280). -/
  csBase : Word32
  /-- The flags register. -/
  eflags : Word32
  /-- Control register CR0 (R25). -/
  cr0 : Word32
  /-- Control register CR3, the PDBR (R26, R27). -/
  cr3 : Word32
  /-- Control register CR4 (R28). -/
  cr4 : Word32
  /-- GDTR (R30). -/
  gdtr : TableReg
  /-- IDTR (R31). -/
  idtr : TableReg
  /-- LDTR (R32). -/
  ldtr : Ldtr
  /-- The task register (R33). -/
  tr : TaskReg
  /-- Data-segment register ES (R34). -/
  es : SegReg
  /-- Data-segment register DS (R34). -/
  ds : SegReg
  /-- Data-segment register FS (R34). -/
  fs : SegReg
  /-- Data-segment register GS (R34). -/
  gs : SegReg
  /-- The current privilege level (R35). -/
  cpl : Fin 4
  /-- Physical memory (R37). -/
  mem : Memory
  /-- The TLBs, a set of entries (R38). -/
  tlb : List TlbEntry
  /-- Physical addresses of the bytes stored to since CR3 was last loaded (20_memory.md R73). -/
  written : List Nat
  /-- How many free values have been used. -/
  choices : Nat
deriving DecidableEq, Repr

/-- Why a page fault is raised (60_exceptions.md R253). -/
inductive PageFaultCause where
  | notPresent
  | reservedBit
  | protection
deriving DecidableEq, Repr

/-- The exceptions the spec gives causes for, with what each records (R252, R253, R256). -/
inductive Exception where
  /-- #GP with its value: 0, or the selector of R104. -/
  | generalProtection (code : Word16)
  /-- #PF with the linear address, the access, the privilege and the cause. -/
  | pageFault (la : Word32) (acc : AccessKind) (priv : Priv) (cause : PageFaultCause)
  /-- The alignment check fault, with the value 0. -/
  | alignmentCheck (code : Word16)
deriving DecidableEq, Repr

/-- How the machine stops with a fault. -/
inductive Fault where
  /-- The outcome `Fault(#XX, info)` of R250: raised by translation, segment use, alignment check or a privilege check.
  `left` is the state the processor is left in, `eip` still at the faulting instruction (R22): stepping it again
  restarts the instruction (R261). Delivery to a handler is in no source (log 13). Safe: the run stops where the
  hardware would go on in a handler. -/
  | exception (e : Exception) (left : State)
  /-- `stuck("aliasing deadlock")` of 43_translation_32bit.md R189: a walk through a page-directory entry whose alias
  differs in A or D, where a free value chooses it. Safe: it stands beside the normal outcome. -/
  | aliasingDeadlock (left : State)
deriving DecidableEq, Repr

/-- The closed list of refusals (93_implementation_defined.md section 3): the spec gives the situation no meaning.
Every one is safe: a run that is refused supports no claim. -/
inductive Refusal where
  /-- An arm of `exec` with no meaning yet; no meaning answers it. Safe. -/
  | notModelled (mnemonic : String)
  /-- "no memory at physical address" (20_memory.md R52): a read or write of memory or of a paging entry outside
  PhysMap. Safe. -/
  | noMemoryAtPhysicalAddress
  /-- "linear address wrap" (R53): an access or a fetch whose last byte is beyond FFFFFFFFh. Safe. -/
  | linearAddressWrap
  /-- "self-modifying code" (R73): the fetch of a byte stored to since the last load of CR3. Safe. -/
  | selfModifyingCode
  /-- "encoding not admitted" (30_encoding.md R83, R91): the decoder refuses the bytes. Safe. -/
  | encodingNotAdmitted
  /-- "GDT wraps the linear address space" (40_descriptor_tables.md R101): a read of a GDT descriptor. Safe. -/
  | gdtWraps
  /-- "non-null selector load: descriptor format not in source" (R107): MOV Sreg. Safe. -/
  | nonNullSelectorLoad
  /-- "CR4 feature absent" (10_state.md R28): MOV CR4. Safe. -/
  | cr4FeatureAbsent
  /-- "PAE translation not in source" (45_pae_intro.md R245): MOV CR0, MOV CR4, and any translation with PG = 1 and
  PAE = 1. Safe. -/
  | paeTranslation
  /-- "reserved bit set in a paging entry" (44_paging_entries.md R226): the page walker. Safe. -/
  | reservedBitInPagingEntry
deriving DecidableEq, Repr

/-- The machine right after reset. The source states no reset value (R280): these are the family's values of R280's
right column (PRESUMED, log 5), but for `cfg` (log 1, log 2), `usable` (DESIGN CHOICE, log 6), `mem` (log 3),
`written` (log 19) and `choices` (log 14). That PG is 0 is R282. -/
def State.reset : State where
  cfg := Config.atReset
  gprs :=
    { eax := 0#32, ecx := 0#32, edx := Config.signature, ebx := 0#32
      esp := 0#32, ebp := 0#32, esi := 0#32, edi := 0#32 }
  eip := 0x0000FFF0#32
  csBase := 0xFFFF0000#32
  eflags := 0x00000002#32
  cr0 := 0x60000010#32
  cr3 := 0#32
  cr4 := 0#32
  gdtr := { base := 0#32, limit := 0xFFFF#16 }
  idtr := { base := 0#32, limit := 0xFFFF#16 }
  ldtr := { selector := 0#16, base := 0#32, limit := 0xFFFF#32, access := 0x82#8 }
  tr := { selector := 0#16 }
  es := { selector := 0#16, usable := true }
  ds := { selector := 0#16, usable := true }
  fs := { selector := 0#16, usable := true }
  gs := { selector := 0#16, usable := true }
  cpl := 0
  mem := []
  tlb := []
  written := []
  choices := 0

end Sys2Proof.Machine
end

