-- ==== Sys2Proof/Machine/Flags.lean ====
section
/-! DEFINITION. The flags of the control registers and of the flags register (spec/10_state.md R24 to R28). -/

namespace Sys2Proof.Machine

/-! ### Flags of a control-register value -/

/-- CR0.PG, bit 31 (R25). -/
def pgFlag (cr0 : Word32) : Bool := cr0.getLsbD 31

/-- CR0.CD, bit 30: PRESUMED position (R25; log 9). -/
def cdFlag (cr0 : Word32) : Bool := cr0.getLsbD 30

/-- CR0.WP, bit 16: PRESUMED position (R25; log 9). -/
def wpFlag (cr0 : Word32) : Bool := cr0.getLsbD 16

/-- CR0.AM, bit 18, the alignment mask: PRESUMED (60_exceptions.md R256; log 11). -/
def amFlag (cr0 : Word32) : Bool := cr0.getLsbD 18

/-- CR4.PSE, bit 4 (R28). -/
def pseFlag (cr4 : Word32) : Bool := cr4.getLsbD 4

/-- CR4.PAE, bit 5 (R28). -/
def paeFlag (cr4 : Word32) : Bool := cr4.getLsbD 5

/-- CR4.PGE, bit 7: PRESUMED position (R28; log 9). -/
def pgeFlag (cr4 : Word32) : Bool := cr4.getLsbD 7

/-- CR3.PWT, bit 3: PRESUMED position (R26; log 9); no effect in the model (20_memory.md R74). -/
def cr3Pwt (cr3 : Word32) : Bool := cr3.getLsbD 3

/-- CR3.PCD, bit 4: PRESUMED position (R26; log 9); no effect in the model (20_memory.md R74). -/
def cr3Pcd (cr3 : Word32) : Bool := cr3.getLsbD 4

/-! ### The flags register -/

/-- EFLAGS.AC, bit 18: PRESUMED (60_exceptions.md R256; log 11). -/
def acFlag (eflags : Word32) : Bool := eflags.getLsbD 18

/-- The status flags CF, PF, AF, ZF, SF and OF (bits 0, 2, 4, 6, 7, 11): PRESUMED positions (log 12). -/
def statusFlags : Word32 := 0x000008D5#32

/-- The flags register after an instruction that "also writes status flags" of which the spec gives no value
(30_encoding.md R90): `free` in the status flags, everything else kept (log 12). -/
def withStatusFlags (eflags free : Word32) : Word32 :=
  (eflags &&& ~~~statusFlags) ||| (free &&& statusFlags)

/-- `cfg.AlignCheckOn(state)` (R256): PRESUMED (log 11), the conjunction R256 gives, or another predicate. -/
def alignCheckOn (s : State) : Bool :=
  match s.cfg.alignRule with
  | .standard => amFlag s.cr0 && acFlag s.eflags
  | .table enabled => decide (⟨s.cr0, s.cr4, s.eflags⟩ ∈ enabled)

end Sys2Proof.Machine
end

