-- ==== Sys2Proof/Machine/Ops.lean ====
section
/-! DEFINITION. The named operations over free values, registers, exceptions and physical memory. -/

namespace Sys2Proof.Machine

/-! ### Sequencing -/

/-- An operation's outcome: a value and the state after it, or one of the two ways to stop. -/
abbrev Result (α : Type) := Host.Outcome (α × State) Fault Refusal

/-- Goes on after an operation that answered; a fault or a refusal ends the instruction (60_exceptions.md R250). -/
def andThen {α β : Type} (r : Result α) (f : α → State → Host.Outcome β Fault Refusal) :
    Host.Outcome β Fault Refusal :=
  match r with
  | .next p => f p.1 p.2
  | .fault e => .fault e
  | .refused why => .refused why

/-! ### Free values (log 14) -/

/-- The state after `n` free values have been used. -/
def useChoices (n : Nat) (s : State) : State := { s with choices := s.choices + n }

/-! ### General registers -/

/-- The value of a general register. -/
def readReg (s : State) : Reg → Word32
  | .eax => s.gprs.eax
  | .ecx => s.gprs.ecx
  | .edx => s.gprs.edx
  | .ebx => s.gprs.ebx
  | .esp => s.gprs.esp
  | .ebp => s.gprs.ebp
  | .esi => s.gprs.esi
  | .edi => s.gprs.edi

/-- The register file with one register replaced. -/
def setGpr (g : Gprs) (r : Reg) (v : Word32) : Gprs :=
  match r with
  | .eax => { g with eax := v }
  | .ecx => { g with ecx := v }
  | .edx => { g with edx := v }
  | .ebx => { g with ebx := v }
  | .esp => { g with esp := v }
  | .ebp => { g with ebp := v }
  | .esi => { g with esi := v }
  | .edi => { g with edi := v }

/-- Writes a general register. -/
def writeReg (r : Reg) (v : Word32) (s : State) : State := { s with gprs := setGpr s.gprs r v }

/-! ### Data-segment registers -/

/-- The contents of a data-segment register. -/
def readDataSeg (s : State) : DataSeg → SegReg
  | .es => s.es
  | .ds => s.ds
  | .fs => s.fs
  | .gs => s.gs

/-- Writes a data-segment register. -/
def writeDataSeg (r : DataSeg) (v : SegReg) (s : State) : State :=
  match r with
  | .es => { s with es := v }
  | .ds => { s with ds := v }
  | .fs => { s with fs := v }
  | .gs => { s with gs := v }

/-! ### Privilege -/

/-- `priv` (10_state.md R35): level 3 is user mode; levels 0, 1 and 2 are supervisor, PRESUMED (log 22). -/
def currentPriv (s : State) : Priv := if s.cpl = 3 then .user else .supervisor

/-! ### Exceptions -/

/-- Taking an exception: `raise #XX(info)` ends the instruction with the outcome `Fault(#XX, info)` (60_exceptions.md
R250). No source says how control reaches a handler, so nothing else is written (log 13). -/
def raise {α : Type} (e : Exception) (s : State) : Host.Outcome α Fault Refusal :=
  .fault (.exception e s)

/-- The return from an exception: the state in which the faulting instruction is restarted (R255, R261), once whoever
handles the exception has changed it as it wishes. A deadlocked processor makes no further step (R251). -/
def resumeState : Fault → Option State
  | .exception _ left => some left
  | .aliasingDeadlock _ => none

/-- MOV to or from a control register and INVLPG: `if CPL != 0 then raise #GP(0)` (42_paging_control.md R150 to R154),
PRESUMED (log 22). -/
def requireLevel0 {α : Type} (s : State) (k : Host.Outcome α Fault Refusal) :
    Host.Outcome α Fault Refusal :=
  if s.cpl = 0 then k else raise (.generalProtection 0#16) s

/-- Vector numbers (R254): PRESUMED, read by no rule (log 38). -/
def exceptionVector : Exception → Nat
  | .generalProtection _ => 13
  | .pageFault _ _ _ _ => 14
  | .alignmentCheck _ => 17

/-- The page fault's error code (R253): PRESUMED, read by no rule (log 38). -/
def pageFaultErrorCode (acc : AccessKind) (priv : Priv) (cause : PageFaultCause) : Word32 :=
  (if cause = .notPresent then 0#32 else 1#32) ||| (if acc = .write then 2#32 else 0#32) |||
  (if priv = .user then 4#32 else 0#32) ||| (if cause = .reservedBit then 8#32 else 0#32)

/-! ### Memory as bytes -/

/-- What a byte of memory that nothing has written reads as: DESIGN CHOICE (log 3). -/
def blankByte : Byte := 0#8

/-- The byte at an address. -/
def memByte : Memory → Nat → Byte
  | [], _ => blankByte
  | c :: m, a => if c.1 = a then c.2 else memByte m a

/-- A cell put in its place by address. -/
def insertCell (a : Nat) (b : Byte) : Memory → Memory
  | [] => [(a, b)]
  | c :: m => if a < c.1 then (a, b) :: c :: m else c :: insertCell a b m

/-- Writes one byte, keeping the canonical form: the value an unlisted address reads as is not listed. -/
def setByte (m : Memory) (a : Nat) (b : Byte) : Memory :=
  let rest := m.filter fun c => c.1 != a
  if b = blankByte then rest else insertCell a b rest

/-- The canonical form: addresses strictly rising, no entry equal to what an unlisted address reads as. -/
abbrev Memory.wf (m : Memory) : Prop :=
  m.Pairwise (fun c d => c.1 < d.1) ∧ ∀ c ∈ m, c.2 ≠ blankByte

/-- The `n` bytes from address `a` on. -/
def readBytes (m : Memory) (a : Nat) : Nat → List Byte
  | 0 => []
  | n + 1 => memByte m a :: readBytes m (a + 1) n

/-- Writes bytes at rising addresses. -/
def writeBytes (m : Memory) (a : Nat) : List Byte → Memory
  | [] => m
  | b :: bs => writeBytes (setByte m a b) (a + 1) bs

/-! ### Byte order: little-endian (20_memory.md R50, R51; PRESUMED, log 4) -/

/-- The low `n` bytes of a value: byte `k` is `v[8k+7:8k]` (R51). -/
def leBytes {w : Nat} (n : Nat) (v : BitVec w) : List Byte :=
  (List.range n).map fun k => v.extractLsb' (8 * k) 8

/-- The number that bytes at rising addresses stand for. -/
def leNat : List Byte → Nat
  | [] => 0
  | b :: bs => b.toNat + 256 * leNat bs

/-- A 16-bit value from its bytes. -/
def leWord16 (bs : List Byte) : Word16 := BitVec.ofNat 16 (leNat bs)

/-- A 32-bit value from its bytes. -/
def leWord32 (bs : List Byte) : Word32 := BitVec.ofNat 32 (leNat bs)

/-- A 64-bit value from its bytes. -/
def leWord64 (bs : List Byte) : BitVec 64 := BitVec.ofNat 64 (leNat bs)

/-! ### Physical memory (20_memory.md R52) -/

/-- `cfg.PhysMap`: the physical address holds memory. -/
def mapped (c : Config) (a : Nat) : Bool :=
  c.physMap.any fun r => decide (r.base ≤ a) && decide (a < r.base + r.size)

/-- Every one of `n` bytes from `a` on holds memory. -/
def mappedRange (c : Config) (a n : Nat) : Bool := (List.range n).all fun k => mapped c (a + k)

/-- `PhysRead(pa, n)` (R52), as bytes. -/
def physRead (pa n : Nat) (s : State) : Result (List Byte) :=
  if mappedRange s.cfg pa n then .next (readBytes s.mem pa n, s)
  else .refused .noMemoryAtPhysicalAddress

/-- The doubleword at a physical address, whether or not memory is there. -/
def entryAt (s : State) (pa : Nat) : Word32 := leWord32 (readBytes s.mem pa 4)

/-- `PhysWrite(addr, 4, entry)` by the walker, of an entry it has just read (R182): the four bytes and nothing else. -/
def writeEntry (pa : Nat) (entry : Word32) (s : State) : State :=
  { s with mem := writeBytes s.mem pa (leBytes 4 entry) }

/-- A set as a list without repeats, with one element more. -/
def insertNew {α : Type} [DecidableEq α] (a : α) (l : List α) : List α := if a ∈ l then l else a :: l

/-- The addresses `a` to `a + n - 1` added to the set of bytes stored to (R73). -/
def markWritten (a : Nat) : Nat → List Nat → List Nat
  | 0, w => w
  | n + 1, w => markWritten (a + 1) n (insertNew a w)

/-- Data bytes stored at rising physical addresses, remembered for R73. -/
def storeData (pa : Nat) (bs : List Byte) (s : State) : State :=
  { s with mem := writeBytes s.mem pa bs, written := markWritten pa bs.length s.written }

/-- `PhysWrite(pa, n, v)` of data (R52), as bytes. -/
def physWrite (pa : Nat) (bs : List Byte) (s : State) : Result Unit :=
  if mappedRange s.cfg pa bs.length then .next ((), storeData pa bs s)
  else .refused .noMemoryAtPhysicalAddress

end Sys2Proof.Machine
end

