-- ==== Sys2Proof/Machine/Paging.lean ====
section
/-! DEFINITION. Paging modes and paging entries bit by bit: spec/42_paging_control.md R155 to R157, spec/44_paging_entries.md,
spec/45_pae_intro.md, and the address assembly of spec/43_translation_32bit.md. -/

namespace Sys2Proof.Machine

/-! ### Flags of a page-directory or page-table entry (44_paging_entries.md R200 to R202) -/

/-- P, bit 0 (R203). -/
def pFlag (e : Word32) : Bool := e.getLsbD 0

/-- R/W, bit 1 (R204). -/
def rwFlag (e : Word32) : Bool := e.getLsbD 1

/-- U/S, bit 2 (R209). -/
def usFlag (e : Word32) : Bool := e.getLsbD 2

/-- PWT, bit 3 (R206). -/
def pwtFlag (e : Word32) : Bool := e.getLsbD 3

/-- PCD, bit 4 (R207). -/
def pcdFlag (e : Word32) : Bool := e.getLsbD 4

/-- A, bit 5 (R208). -/
def aFlag (e : Word32) : Bool := e.getLsbD 5

/-- D, bit 6, of a PTE or a 4-MByte PDE (R210). -/
def dFlag (e : Word32) : Bool := e.getLsbD 6

/-- PS, bit 7, of a PDE (R212). -/
def psFlag (e : Word32) : Bool := e.getLsbD 7

/-- G, bit 8 (R213). -/
def gFlag (e : Word32) : Bool := e.getLsbD 8

/-- PAT, bit 7 of a PTE (R211); read by no rule. -/
def ptePatFlag (e : Word32) : Bool := e.getLsbD 7

/-- PAT, bit 12 of a 4-MByte PDE (R211); read by no rule. -/
def largePatFlag (e : Word32) : Bool := e.getLsbD 12

/-- Bits 11:9, available to software (R214). -/
def availBits (e : Word32) : BitVec 3 := e.extractLsb' 9 3

/-- An entry with its A flag set (43_translation_32bit.md R180). -/
def setA (e : Word32) : Word32 := e ||| 0x20#32

/-- An entry with its D flag set when the access is a write (R181). -/
def setDOnWrite (acc : AccessKind) (e : Word32) : Word32 := if acc = .write then e ||| 0x40#32 else e

/-! ### Caching policy (R206, R207); no access reads it (20_memory.md R74, log 36) -/

/-- Write-through caching is enabled for the page or page table: PWT, ignored when CR0.CD is set (R206). -/
def writeThrough (s : State) (e : Word32) : Bool := !cdFlag s.cr0 && pwtFlag e

/-- Caching of the page or page table is prevented: PCD, assumed set when CR0.CD is set (R207). -/
def cachingPrevented (s : State) (e : Word32) : Bool := cdFlag s.cr0 || pcdFlag e

/-! ### Table 3-3 -/

/-- What the paging flags select (42_paging_control.md R155). -/
inductive PagingMode where
  | disabled
  | pages4K (addressBits : PhysWidth)
  | pages2M (addressBits : PhysWidth)
  | pages4M (addressBits : PhysWidth)
deriving DecidableEq, Repr

/-- `PageMode(PG, PAE, PSE, PS, has_pse36)` (R156). -/
def pageMode (pg pae pse ps pse36 : Bool) : PagingMode :=
  if !pg then .disabled
  else if pae && !ps then .pages4K .bits36
  else if pae && ps then .pages2M .bits36
  else if pse && ps then .pages4M (if pse36 then .bits36 else .bits32)
  else .pages4K .bits32

/-- A PDE maps a 4-MByte page when CR4.PSE = 1 and its PS flag is 1 (43_translation_32bit.md R174, R179). -/
def mapsLargePage (s : State) (pde : Word32) : Bool := pseFlag s.cr4 && psFlag pde

/-! ### Address assembly (R81) -/

/-- Physical address of the page directory (R157). -/
def pageDirectoryBase (cr3 : Word32) : Word32 := cr3.extractLsb' 12 20 ++ 0#12

/-- The directory index `la[31:22]` (R171, R176). -/
def directoryIndex (la : Word32) : BitVec 10 := la.extractLsb' 22 10

/-- The table index `la[21:12]` (R171). -/
def tableIndex (la : Word32) : BitVec 10 := la.extractLsb' 12 10

/-- `pde_addr = CR3[31:12] ++ la[31:22] ++ 00b` (R172). -/
def pdeAddress (cr3 la : Word32) : Word32 := cr3.extractLsb' 12 20 ++ directoryIndex la ++ 0#2

/-- `pte_addr = pde[31:12] ++ la[21:12] ++ 00b` (R175). -/
def pteAddress (pde la : Word32) : Word32 := pde.extractLsb' 12 20 ++ tableIndex la ++ 0#2

/-- `pa = zext(pte[31:12] ++ la[11:0])` (R177). -/
def smallPageAddress (pte la : Word32) : PhysAddr :=
  (pte.extractLsb' 12 20 ++ la.extractLsb' 0 12).zeroExtend 36

/-- `pa = zext(pde[31:22] ++ la[21:0])` (R178). -/
def largePageAddress (pde la : Word32) : PhysAddr :=
  (pde.extractLsb' 22 10 ++ la.extractLsb' 0 22).zeroExtend 36

/-! ### Physical address extension, as far as the source goes -/

/-- A paging entry under PAE: 64 bits (45_pae_intro.md R242, R243). Its fields are in no source (log 27). -/
abbrev PaeEntry := BitVec 64

/-- The length of a PAE entry in bytes (R242, R243). -/
def paeEntryBytes : Nat := 8

/-- The entries of a 4-KByte page directory or page table under PAE (R242). -/
def paeTableEntries : Nat := 4096 / paeEntryBytes

/-- The entries of the page-directory-pointer table (R243). -/
def pdptEntries : Nat := 4

/-- The length of the page-directory-pointer table in bytes (R243). -/
def pdptBytes : Nat := pdptEntries * paeEntryBytes

/-- The eight bytes of a PAE entry at a physical address, whether or not memory is there. -/
def paeEntryAt (s : State) (pa : Nat) : PaeEntry := leWord64 (readBytes s.mem pa paeEntryBytes)

/-- With PAE, the page-directory-pointer table is at `CR3[31:5] ++ 00000b` (10_state.md R27). -/
def pdptAddress (cr3 : Word32) : Word32 := cr3.extractLsb' 5 27 ++ 0#5

/-- The split of a linear address under PAE, 4-KByte page: `la[31:30]`, `la[29:21]`, `la[20:12]`, `la[11:0]`
(45_pae_intro.md R246). -/
def paeSplit4K (la : Word32) : BitVec 2 × BitVec 9 × BitVec 9 × BitVec 12 :=
  (la.extractLsb' 30 2, la.extractLsb' 21 9, la.extractLsb' 12 9, la.extractLsb' 0 12)

/-- The split of a linear address under PAE, 2-MByte page: `la[31:30]`, `la[29:21]`, `la[20:0]` (R246). -/
def paeSplit2M (la : Word32) : BitVec 2 × BitVec 9 × BitVec 21 :=
  (la.extractLsb' 30 2, la.extractLsb' 21 9, la.extractLsb' 0 21)

/-- Physical address of the entry of the page-directory-pointer table that a linear address selects (R243, R246). -/
def pdptEntryAddress (cr3 la : Word32) : Nat := (pdptAddress cr3).toNat + paeEntryBytes * (paeSplit4K la).1.toNat

/-- Physical address of the page-directory entry a linear address selects under PAE, in the directory at `base`: where the
pointer-table entry holds `base` is in no source (R242, R246). -/
def paePdeAddress (base : PhysAddr) (la : Word32) : Nat := base.toNat + paeEntryBytes * (paeSplit4K la).2.1.toNat

/-- The same of the page-table entry, in the page table at `base` (R242, R246). -/
def paePteAddress (base : PhysAddr) (la : Word32) : Nat := base.toNat + paeEntryBytes * (paeSplit4K la).2.2.1.toNat

/-! ### Reserved bits (44_paging_entries.md R220 to R228) -/

/-- The three formats of a present entry (R200 to R202). -/
inductive EntryKind where
  | pdePT
  | pte4K
  | pde4M
deriving DecidableEq, Repr

/-- `ReservedOK(e, kind)` (R228). The bits that "should be set to 0" are let pass when
`cfg.ignore_should_be_zero`; those that "must be", and bit 8 without PGE, never are. -/
def reservedOk (c : Config) (kind : EntryKind) (e : Word32) : Bool :=
  (c.hasPge || !gFlag e) &&
  match kind with
  | .pdePT => c.ignoreShouldBeZero || !e.getLsbD 6
  | .pte4K => c.hasPat || c.ignoreShouldBeZero || !e.getLsbD 7
  | .pde4M => e.extractLsb' 13 9 == 0#9 && (c.hasPat || !e.getLsbD 12)

/-! ### Page-level protection -/

/-- `PagePermitsDefault` (R205), PRESUMED (log 10). `fetch` is treated as `read`. -/
def pagePermitsDefault (q : PermitCase) : Bool :=
  let us := q.usPde && (match q.pteFlags with | some f => f.1 | none => true)
  let rw := q.rwPde && (match q.pteFlags with | some f => f.2 | none => true)
  match q.priv with
  | .user => us && (q.acc != .write || rw)
  | .supervisor => q.acc != .write || rw || !q.wp

/-- `cfg.PagePermits(priv, acc, WP, us_pde, rw_pde, pte_flags)` (R205). -/
def pagePermits (c : Config) (priv : Priv) (acc : AccessKind) (wp usPde rwPde : Bool)
    (pteFlags : Option (Bool × Bool)) : Bool :=
  match c.permitRule with
  | .standard => pagePermitsDefault ⟨priv, acc, wp, usPde, rwPde, pteFlags⟩
  | .table permitted => decide (⟨priv, acc, wp, usPde, rwPde, pteFlags⟩ ∈ permitted)

end Sys2Proof.Machine
end

