-- ==== Sys2Proof/Machine/Tlb.lean ====
section
/-! DEFINITION. The TLBs: spec/20_memory.md R62 to R69, an abstract set of entries whose hits, fills and evictions are free
(log 15). -/

namespace Sys2Proof.Machine

/-- The `global` flag of an entry: the G flag of the cached final entry (10_state.md R38, 20_memory.md R67). -/
def tlbGlobal : TlbEntry → Bool
  | .page4K _ _ pte => gFlag pte
  | .page4M _ pde => gFlag pde

/-- The D flag of the cached final entry (R64). -/
def tlbDirty : TlbEntry → Bool
  | .page4K _ _ pte => dFlag pte
  | .page4M _ pde => dFlag pde

/-- The entry's page holds the linear address (R38, R63). -/
def tlbMatches (la : Word32) : TlbEntry → Bool
  | .page4K vpn _ _ => vpn == la.extractLsb' 12 20
  | .page4M vpn _ => vpn == la.extractLsb' 22 10

/-- The permission check applied to the copies (R63). -/
def tlbPermits (c : Config) (priv : Priv) (acc : AccessKind) (wp : Bool) : TlbEntry → Bool
  | .page4K _ pde pte => pagePermits c priv acc wp (usFlag pde) (rwFlag pde) (some (usFlag pte, rwFlag pte))
  | .page4M _ pde => pagePermits c priv acc wp (usFlag pde) (rwFlag pde) none

/-- The physical address computed from the copies (R63). -/
def tlbAddress (la : Word32) : TlbEntry → PhysAddr
  | .page4K _ _ pte => smallPageAddress pte la
  | .page4M _ pde => largePageAddress pde la

/-- The entries an access may use: those of its page, for a write only with D = 1 (R63, R64). -/
def tlbCandidates (la : Word32) (acc : AccessKind) (tlb : List TlbEntry) : List TlbEntry :=
  tlb.filter fun e => tlbMatches la e && (acc != .write || tlbDirty e)

/-- Which candidate is used, if any: a free value for each (R63). -/
def pickHit : List TlbEntry → Nat → Option TlbEntry
  | [], _ => none
  | e :: es, n => bif Config.freeBool n then some e else pickHit es (n + 1)

/-- Any subset of the entries: a free value for each says whether it stays (R66). -/
def anySubset : List TlbEntry → Nat → List TlbEntry
  | [], _ => []
  | e :: es, n => bif Config.freeBool n then e :: anySubset es (n + 1) else anySubset es (n + 1)

/-- The TLB reduced to any subset of what it holds. -/
def dropAny (s : State) : State :=
  { s with tlb := anySubset s.tlb s.choices, choices := s.choices + s.tlb.length }

/-- A completed walk may add an entry (R62). -/
def maybeFill (e : TlbEntry) (s : State) : State :=
  { s with
    tlb := bif Config.freeBool s.choices then insertNew e s.tlb else s.tlb
    choices := s.choices + 1 }

/-- A load of CR3: every entry leaves the TLB, but that global ones may stay while CR4.PGE = 1 (R67). -/
def flushForCr3 (s : State) : State :=
  dropAny { s with tlb := s.tlb.filter fun e => pgeFlag s.cr4 && tlbGlobal e }

/-- The entries of one page leave the TLB, global ones too (42_paging_control.md R154). -/
def flushPage (la : Word32) (s : State) : State :=
  { s with tlb := s.tlb.filter fun e => !tlbMatches la e }

end Sys2Proof.Machine
end

