-- ==== Sys2Proof/Machine/Translate.lean ====
section
/-! DEFINITION. Linear-address translation: spec/43_translation_32bit.md R170 to R190. -/

namespace Sys2Proof.Machine

/-! ### The aliasing deadlock (R188, R189; log 17) -/

/-- Physical address of entry `j` of the current page directory. -/
def directorySlot (s : State) (j : Nat) : Nat := (pageDirectoryBase s.cr3).toNat + 4 * j

/-- Directory entry `j` is in memory, present, and no 4-MByte page, with page-table base and A and D bits: an entry
that another may have as its double. -/
def pointsToTable (s : State) (j : Nat) : Bool :=
  (memByte s.mem (directorySlot s j)).getLsbD 0 && mappedRange s.cfg (directorySlot s j) 4 &&
    !mapsLargePage s (entryAt s (directorySlot s j))

/-- The page directory holds another entry with the same page-table base as entry `i`, and the two differ in A or D
(R189: `q[31:12] = p[31:12]` and `p[6:5] != q[6:5]`). -/
def doubledEntryDiffers (s : State) (i : Nat) : Bool :=
  pointsToTable s i && (List.range 1024).any fun j =>
    j != i && pointsToTable s j &&
    (entryAt s (directorySlot s j)).extractLsb' 12 20 == (entryAt s (directorySlot s i)).extractLsb' 12 20 &&
    (entryAt s (directorySlot s j)).extractLsb' 5 2 != (entryAt s (directorySlot s i)).extractLsb' 5 2

/-- Doubled entries of the entry a linear address selects differed at one of the moments (R189). -/
def differedAt (la : Word32) (moments : List State) : Bool :=
  moments.any fun s => doubledEntryDiffers s (directoryIndex la).toNat

/-- Where the entries differed at some moment of the walk, a free value chooses between the deadlock and the normal
outcome (R189). -/
def orDeadlock {α : Type} (differed : Bool) (s : State) (normal : State → Result α) : Result α :=
  bif differed then
    bif Config.freeBool s.choices then .fault (.aliasingDeadlock (useChoices 1 s))
    else normal (useChoices 1 s)
  else normal s

/-! ### What a walk does besides reading -/

/-- `maybe_set_A(addr, e)`: a faulting walk may have set the A flag of an entry it read (R184, R190). -/
def maybeSetA (addr : Word32) (e : Word32) (s : State) : State :=
  { s with
    mem := bif Config.freeBool s.choices then writeBytes s.mem addr.toNat (leBytes 4 (setA e)) else s.mem
    choices := s.choices + 1 }

/-- `if e' != e then PhysWrite(addr, 4, e')` (R182, R190). -/
def writeBack (addr : Word32) (e e' : Word32) (s : State) : State :=
  if e' = e then s else writeEntry addr.toNat e' s

/-- `ReservedFault(la, acc, priv)` (44_paging_entries.md R226). -/
def reservedFault {α : Type} (la : Word32) (acc : AccessKind) (priv : Priv) (s : State) : Result α :=
  if pseFlag s.cr4 && paeFlag s.cr4 then raise (.pageFault la acc priv .reservedBit) s
  else .refused .reservedBitInPagingEntry

/-- The doubleword entry a walk reads (R173, R175). -/
def readEntry (addr : Word32) (s : State) : Result Word32 :=
  andThen (physRead addr.toNat 4 s) fun bs s' => .next (leWord32 bs, s')

/-! ### The walk (R190) -/

/-- The 4-MByte arm of R190. -/
def walkLarge (la : Word32) (acc : AccessKind) (priv : Priv) (pdeAddr pde : Word32) (s : State) :
    Result PhysAddr :=
  if !reservedOk s.cfg .pde4M pde then reservedFault la acc priv s
  else if !pagePermits s.cfg priv acc (wpFlag s.cr0) (usFlag pde) (rwFlag pde) none then
    raise (.pageFault la acc priv .protection) (maybeSetA pdeAddr pde s)
  else
    let pde' := setDOnWrite acc (setA pde)
    let s1 := writeBack pdeAddr pde pde' s
    .next (largePageAddress pde la, maybeFill (.page4M (la.extractLsb' 22 10) pde') s1)

/-- The end of the page-table arm of R190, both entries read and permitted. DESIGN CHOICE (log 41): the memory a deadlocked walk
leaves, to which R189 gives no state: every A and D update of the walk is done and no TLB entry added, though the entries may
have differed at an earlier moment only. -/
def finishTableWalk (la : Word32) (acc : AccessKind) (pdeAddr pde pteAddr pte : Word32) (s : State) :
    Result PhysAddr :=
  let pde' := setA pde
  let pte' := setDOnWrite acc (setA pte)
  let s1 := writeBack pdeAddr pde pde' s
  let s2 := writeBack pteAddr pte pte' s1
  orDeadlock (differedAt la [s, s1, s2]) s2 fun s3 =>
    .next (smallPageAddress pte la, maybeFill (.page4K (la.extractLsb' 12 20) pde' pte') s3)

/-- A page fault in the page-table arm: `after` is the state with the A flags that may have been set (R184), `before` the
states before it, from the one the entries were read in on; the deadlock is possible here too (R189), and leaves `after`
(DESIGN CHOICE, log 41). -/
def raiseInTableWalk (la : Word32) (acc : AccessKind) (priv : Priv) (cause : PageFaultCause)
    (before : List State) (after : State) : Result PhysAddr :=
  orDeadlock (differedAt la (before ++ [after])) after fun s => raise (.pageFault la acc priv cause) s

/-- The page-table arm of R190. -/
def walkTable (la : Word32) (acc : AccessKind) (priv : Priv) (pdeAddr pde : Word32) (s : State) :
    Result PhysAddr :=
  if !reservedOk s.cfg .pdePT pde then reservedFault la acc priv s
  else
    let pteAddr := pteAddress pde la
    andThen (readEntry pteAddr s) fun pte s =>
      if !pFlag pte then raiseInTableWalk la acc priv .notPresent [s] (maybeSetA pdeAddr pde s)
      else if !reservedOk s.cfg .pte4K pte then reservedFault la acc priv (maybeSetA pdeAddr pde s)
      else if !pagePermits s.cfg priv acc (wpFlag s.cr0) (usFlag pde) (rwFlag pde)
          (some (usFlag pte, rwFlag pte)) then
        let s1 := maybeSetA pdeAddr pde s
        raiseInTableWalk la acc priv .protection [s, s1] (maybeSetA pteAddr pte s1)
      else finishTableWalk la acc pdeAddr pde pteAddr pte s

/-- `TranslateByWalk(la, acc, priv)` (R190). -/
def walk (la : Word32) (acc : AccessKind) (priv : Priv) (s : State) : Result PhysAddr :=
  let pdeAddr := pdeAddress s.cr3 la
  andThen (readEntry pdeAddr s) fun pde s =>
    if !pFlag pde then raise (.pageFault la acc priv .notPresent) s
    else if mapsLargePage s pde then walkLarge la acc priv pdeAddr pde s
    else walkTable la acc priv pdeAddr pde s

/-! ### The function -/

/-- `TranslateByTLB(la, acc, priv)` with the entry that is used (20_memory.md R63): no paging entry in memory is read
or written. -/
def translateByTlb (e : TlbEntry) (la : Word32) (acc : AccessKind) (priv : Priv) (s : State) :
    Result PhysAddr :=
  if tlbPermits s.cfg priv acc (wpFlag s.cr0) e then .next (tlbAddress la e, s)
  else raise (.pageFault la acc priv .protection) s

/-- With paging on: a free value for each candidate entry says whether it is used; else a walk is made (R170, R63). -/
def translatePaged (la : Word32) (acc : AccessKind) (priv : Priv) (s : State) : Result PhysAddr :=
  let cs := tlbCandidates la acc s.tlb
  match pickHit cs s.choices with
  | some e => translateByTlb e la acc priv (useChoices cs.length s)
  | none => walk la acc priv (useChoices cs.length s)

/-- `Translate(la, acc, priv)` (R170). -/
def translate (la : Word32) (acc : AccessKind) (priv : Priv) (s : State) : Result PhysAddr :=
  if !pgFlag s.cr0 then .next (la.zeroExtend 36, s)
  else if paeFlag s.cr4 then .refused .paeTranslation
  else translatePaged la acc priv s

end Sys2Proof.Machine
end

