-- ==== Sys2Proof/Machine/Access.lean ====
section
/-! DEFINITION. Memory accesses at linear addresses: spec/20_memory.md R53, the alignment check of spec/60_exceptions.md R256.
Linear addresses are numbers here, so that a sum past FFFFFFFFh is seen and not wrapped (log 29). -/

namespace Sys2Proof.Machine

/-- The parts of a range of `n ≤ 4096` bytes, cut at 4-KByte boundaries, lower first: at most two (R53). -/
def blocks (addr n : Nat) : List (Nat × Nat) :=
  if addr % 4096 + n ≤ 4096 then [(addr, n)]
  else [(addr, 4096 - addr % 4096), (addr + (4096 - addr % 4096), n - (4096 - addr % 4096))]

/-- The physical place of every part, translated in order (R53). -/
def translateParts (acc : AccessKind) (priv : Priv) : List (Nat × Nat) → State → Result (List (Nat × Nat))
  | [], s => .next ([], s)
  | part :: parts, s =>
    andThen (translate (BitVec.ofNat 32 part.1) acc priv s) fun pa s =>
      andThen (translateParts acc priv parts s) fun places s => .next ((pa.toNat, part.2) :: places, s)

/-- Every part of an `n`-byte range translated, before any byte moves; a range past FFFFFFFFh is refused (R53). -/
def translateRange (addr n : Nat) (acc : AccessKind) (priv : Priv) (s : State) :
    Result (List (Nat × Nat)) :=
  if addr + n > 2 ^ 32 then .refused .linearAddressWrap
  else translateParts acc priv (blocks addr n) s

/-- A word or doubleword access that is not at a multiple of its size (R57). -/
def misaligned (addr n : Nat) : Bool := (n == 2 || n == 4) && addr % n != 0

/-- The condition of `AlignCheck(addr, n)` (R256). -/
def alignmentFaults (addr n : Nat) (s : State) : Bool := alignCheckOn s && s.cpl == 3 && misaligned addr n

/-- `AlignCheck(addr, n)` (R256), with what follows it. -/
def alignCheck {α : Type} (addr n : Nat) (s : State) (k : Host.Outcome α Fault Refusal) :
    Host.Outcome α Fault Refusal :=
  if alignmentFaults addr n s then raise (.alignmentCheck 0#16) s else k

/-- The bytes of the parts, in order (R52). -/
def readPlaces : List (Nat × Nat) → State → Result (List Byte)
  | [], s => .next ([], s)
  | p :: ps, s =>
    andThen (physRead p.1 p.2 s) fun bs s => andThen (readPlaces ps s) fun bs' s => .next (bs ++ bs', s)

/-- Bytes stored to the parts, in order (R52). -/
def writePlaces : List (Nat × Nat) → List Byte → State → Result Unit
  | [], _, s => .next ((), s)
  | p :: ps, bs, s =>
    andThen (physWrite p.1 (bs.take p.2) s) fun _ s => writePlaces ps (bs.drop p.2) s

/-- `MemRead(addr, n)` (R53), as bytes. -/
def memRead (addr n : Nat) (s : State) : Result (List Byte) :=
  andThen (translateRange addr n .read (currentPriv s) s) fun places s =>
    alignCheck addr n s (readPlaces places s)

/-- `MemWrite(addr, n, v)` (R53), the value as its bytes; answers the physical places stored to. -/
def memWrite (addr : Nat) (bs : List Byte) (s : State) : Result (List (Nat × Nat)) :=
  andThen (translateRange addr bs.length .write (currentPriv s) s) fun places s =>
    alignCheck addr bs.length s (andThen (writePlaces places bs s) fun _ s => .next (places, s))

end Sys2Proof.Machine
end

