-- ==== Sys2Proof/Machine/Operands.lean ====
section
/-! DEFINITION. Operands: effective addresses (spec/30_encoding.md R85), segment translation (spec/40_descriptor_tables.md R109,
R110) and register-or-memory operands. -/

namespace Sys2Proof.Machine

/-- The index of a SIB form: ESP stands for no index (R85). -/
def indexValue (s : State) (i : Reg) (scale : BitVec 2) : Word32 :=
  if i = .esp then 0#32 else readReg s i <<< scale.toNat

/-- The effective address of a memory operand, modulo 2^32 (R85). -/
def effectiveAddress (s : State) : Mem → Word32
  | .base r => readReg s r
  | .disp d => d
  | .baseDisp8 r d => readReg s r + d.signExtend 32
  | .baseDisp32 r d => readReg s r + d
  | .sib b i scale => readReg s b + indexValue s i scale
  | .sibNoBase i scale d => d + indexValue s i scale
  | .sibDisp8 b i scale d => readReg s b + indexValue s i scale + d.signExtend 32
  | .sibDisp32 b i scale d => readReg s b + indexValue s i scale + d

/-- SS when the base is EBP or ESP, else DS (R85). -/
def segOfBase (r : Reg) : Seg := if r = .ebp ∨ r = .esp then .ss else .ds

/-- The default segment of a memory operand (R85). -/
def defaultSeg : Mem → Seg
  | .base r => segOfBase r
  | .disp _ => .ds
  | .baseDisp8 r _ => segOfBase r
  | .baseDisp32 r _ => segOfBase r
  | .sib b _ _ => segOfBase b
  | .sibNoBase _ _ _ => .ds
  | .sibDisp8 b _ _ _ => segOfBase b
  | .sibDisp32 b _ _ _ => segOfBase b

/-- `Sreg.usable` (40_descriptor_tables.md R107); no rule makes CS or SS unusable. -/
def segUsable (s : State) : Seg → Bool
  | .es => s.es.usable
  | .cs => true
  | .ss => true
  | .ds => s.ds.usable
  | .fs => s.fs.usable
  | .gs => s.gs.usable

/-- The answer of the first row of a case; without one, the flat instance's: the offset. -/
def segLookup (q : SegCase) : List (SegCase × SegOutcome) → SegOutcome
  | [] => .linear q.offset
  | r :: rows => if r.1 = q then r.2 else segLookup q rows

/-- What `cfg.SegTranslate(sreg, offset, n, acc)` answers through a usable register (R109): in the flat instance, PRESUMED
(log 7), the offset, whatever the size and the access. -/
def segOutcome (c : Config) (seg : Seg) (offset : Word32) (n : Nat) (acc : SegAccess) : SegOutcome :=
  match c.segRule with
  | .flat => .linear offset
  | .table rows => segLookup ⟨seg, offset, n, acc⟩ rows

/-- `cfg.SegTranslate(sreg, offset, n, acc)` (R109): in every instance a data-segment register that holds a null selector
raises #GP(0) (R110). -/
def segTranslate (seg : Seg) (offset : Word32) (n : Nat) (acc : SegAccess) (s : State) : Result Word32 :=
  if segUsable s seg then
    match segOutcome s.cfg seg offset n acc with
    | .linear la => .next (la, s)
    | .protection code => raise (.generalProtection code) s
  else raise (.generalProtection 0#16) s

/-- The linear address of a memory operand. -/
def memOperand (m : Mem) (n : Nat) (acc : SegAccess) (s : State) : Result Word32 :=
  segTranslate (defaultSeg m) (effectiveAddress s m) n acc s

/-- A 16-bit source operand: the low half of a register, or two bytes of memory (40_descriptor_tables.md R107). -/
def readRegMem16 (src : RegMem) (s : State) : Result Word16 :=
  match src with
  | .reg r => .next ((readReg s r).extractLsb' 0 16, s)
  | .mem m =>
    andThen (memOperand m 2 .read s) fun a s =>
      andThen (memRead a.toNat 2 s) fun bs s => .next (leWord16 bs, s)

/-- A selector stored to a register or memory operand (41_pseudo_descriptor.md R130): memory takes two bytes; a register
takes the selector in bits 15:0 and any value in bits 31:16 (93_implementation_defined.md U9). -/
def storeSelector (sel : Word16) (dst : RegMem) (s : State) : Host.Outcome State Fault Refusal :=
  match dst with
  | .reg r =>
    .next (writeReg r ((Config.freeWord s.choices).extractLsb' 16 16 ++ sel) (useChoices 1 s))
  | .mem m =>
    andThen (memOperand m 2 .write s) fun a s =>
      andThen (memWrite a.toNat (leBytes 2 sel) s) fun _ s => .next s

end Sys2Proof.Machine
end

