-- ==== Sys2Proof/Machine/ControlRegisters.lean ====
section
/-! DEFINITION. MOV to and from control registers, INVLPG: spec/42_paging_control.md R150 to R154. -/

namespace Sys2Proof.Machine

/-- CR3 loaded: all 32 bits stored, the TLB flushed, and the stores before it no longer remembered (R150;
20_memory.md R67, R73). A task switch would do the same (R152). -/
def loadCr3 (v : Word32) (s : State) : State := flushForCr3 { s with cr3 := v, written := [] }

/-- CR0 written (R153): PG = 1 with PAE = 1 is refused; a change of PG leaves any subset of the TLB. -/
def writeCr0 (v : Word32) (s : State) : Host.Outcome State Fault Refusal :=
  if pgFlag v && paeFlag s.cr4 then .refused .paeTranslation
  else if pgFlag v != pgFlag s.cr0 then .next (dropAny { s with cr0 := v })
  else .next { s with cr0 := v }

/-- A CR4 value sets a flag of a feature the processor lacks (10_state.md R28). -/
def cr4FeatureMissing (c : Config) (v : Word32) : Bool :=
  pseFlag v && !c.hasPse || paeFlag v && !c.hasPae || pgeFlag v && !c.hasPge

/-- The TLB after CR4 goes from `old` to the value it now has (R153): any subset when PSE, PAE or PGE differs, but all of
it when only PSE differs and `cfg.pentium_only_pse_flush`. -/
def tlbAfterCr4 (old : Word32) (s : State) : State :=
  if paeFlag old != paeFlag s.cr4 || pgeFlag old != pgeFlag s.cr4 then dropAny s
  else if pseFlag old != pseFlag s.cr4 && !s.cfg.pentiumOnlyPseFlush then dropAny s
  else s

/-- CR4 written (R153). -/
def writeCr4 (v : Word32) (s : State) : Host.Outcome State Fault Refusal :=
  if cr4FeatureMissing s.cfg v then .refused .cr4FeatureAbsent
  else if pgFlag s.cr0 && paeFlag v then .refused .paeTranslation
  else .next (tlbAfterCr4 s.cr4 { s with cr4 := v })

/-- `MOV CR0, r32` (R153). -/
def execMovCr0FromReg (r : Reg) (s : State) : Host.Outcome State Fault Refusal :=
  requireLevel0 s (writeCr0 (readReg s r) s)

/-- `MOV r32, CR0` (R153). -/
def execMovRegFromCr0 (r : Reg) (s : State) : Host.Outcome State Fault Refusal :=
  requireLevel0 s (.next (writeReg r s.cr0 s))

/-- `MOV CR3, r32` (R150). -/
def execMovCr3FromReg (r : Reg) (s : State) : Host.Outcome State Fault Refusal :=
  requireLevel0 s (.next (loadCr3 (readReg s r) s))

/-- `MOV r32, CR3` (R151). -/
def execMovRegFromCr3 (r : Reg) (s : State) : Host.Outcome State Fault Refusal :=
  requireLevel0 s (.next (writeReg r s.cr3 s))

/-- `MOV CR4, r32` (R153). -/
def execMovCr4FromReg (r : Reg) (s : State) : Host.Outcome State Fault Refusal :=
  requireLevel0 s (writeCr4 (readReg s r) s)

/-- `MOV r32, CR4` (R153). -/
def execMovRegFromCr4 (r : Reg) (s : State) : Host.Outcome State Fault Refusal :=
  requireLevel0 s (.next (writeReg r s.cr4 s))

/-- `INVLPG m` (R154): an address only, no access to memory. -/
def execInvlpg (m : Mem) (s : State) : Host.Outcome State Fault Refusal :=
  requireLevel0 s (andThen (memOperand m 1 .none s) fun la s => .next (flushPage la s))

end Sys2Proof.Machine
end

