-- ==== Sys2Proof/Machine/Identification.lean ====
section
/-! DEFINITION. CPUID: spec/42_paging_control.md R160 to R162. -/

namespace Sys2Proof.Machine

/-- EDX for source operand 1: bit 17 is the PSE-36 feature flag and bit 6 the PAE feature flag (R160, R161); every other
bit is that of `other`. -/
def featureWord (c : Config) (other : Word32) : Word32 :=
  (other &&& 0xFFFDFFBF#32) ||| (bif c.hasPse36 then 0x00020000#32 else 0#32) |||
    (bif c.hasPae then 0x00000040#32 else 0#32)

/-- The four registers after CPUID, by source operand (R162). -/
def cpuidResult (c : Config) (leaf : Word32) : CpuidLeaf :=
  if leaf = 1#32 then
    { Config.cpuidLeaf leaf with edx := featureWord c (Config.cpuidLeaf leaf).edx }
  else Config.cpuidLeaf leaf

/-- `CPUID` (R162): the source operand is EAX; no privilege check. -/
def execCpuid (s : State) : Host.Outcome State Fault Refusal :=
  .next
    { s with
      gprs :=
        { s.gprs with
          eax := (cpuidResult s.cfg s.gprs.eax).eax
          ebx := (cpuidResult s.cfg s.gprs.eax).ebx
          ecx := (cpuidResult s.cfg s.gprs.eax).ecx
          edx := (cpuidResult s.cfg s.gprs.eax).edx } }

end Sys2Proof.Machine
end

