-- ==== Sys2Proof/Machine/Moves.lean ====
section
/-! DEFINITION. The helper instructions of spec/30_encoding.md R87 to R90. -/

namespace Sys2Proof.Machine

/-- `MOV r32, imm32` (R87). -/
def execMovRegImm32 (r : Reg) (imm : Word32) (s : State) : Host.Outcome State Fault Refusal :=
  .next (writeReg r imm s)

/-- `MOV EAX, moffs32` (R88). -/
def execMovEaxMoffs32 (off : Word32) (s : State) : Host.Outcome State Fault Refusal :=
  andThen (segTranslate .ds off 4 .read s) fun la s =>
    andThen (memRead la.toNat 4 s) fun bs s => .next (writeReg .eax (leWord32 bs) s)

/-- `MOV moffs32, EAX` (R89). -/
def execMovMoffs32Eax (off : Word32) (s : State) : Host.Outcome State Fault Refusal :=
  andThen (segTranslate .ds off 4 .write s) fun la s =>
    andThen (memWrite la.toNat (leBytes 4 s.gprs.eax) s) fun _ s => .next s

/-- `OR EAX, imm32` (R90): the status flags it also writes are free values (log 12). -/
def execOrEaxImm32 (imm : Word32) (s : State) : Host.Outcome State Fault Refusal :=
  .next
    (useChoices 1
      { writeReg .eax (s.gprs.eax ||| imm) s with
        eflags := withStatusFlags s.eflags (Config.freeWord s.choices) })

end Sys2Proof.Machine
end

