-- ==== Sys2Proof/Machine/Descriptors.lean ====
section
/-! DEFINITION. Descriptor tables and selectors: spec/40_descriptor_tables.md R100 to R105, R108, R112 to R115. The read of a
descriptor is the processor's own operation; no instruction of the opcode table reaches it (log 34). -/

namespace Sys2Proof.Machine

/-! ### Selectors (R108; PRESUMED layout, log 23) -/

/-- Index, bits 15:3. -/
def selectorIndex (sel : Word16) : Nat := (sel.extractLsb' 3 13).toNat

/-- Table indicator, bit 2: true is the LDT. -/
def selectorInLdt (sel : Word16) : Bool := sel.getLsbD 2

/-- Requested privilege level, bits 1:0. -/
def selectorRpl (sel : Word16) : BitVec 2 := sel.extractLsb' 0 2

/-- `IsNull(sel)`: `sel[15:2] = 0` (R108). -/
def isNullSelector (sel : Word16) : Bool := sel.extractLsb' 2 14 == 0#14

/-! ### A table as an array with a byte limit -/

/-- Linear address of descriptor `n`: an array of 8-byte elements (R100). -/
def descriptorAddress (base : Word32) (n : Nat) : Nat := base.toNat + 8 * n

/-- The address of the last valid byte: an integer sum (R101). -/
def lastValidByte (t : TableReg) : Nat := t.base.toNat + t.limit.toNat

/-- The linear address is that of a valid byte (R101). -/
def isValidByte (t : TableReg) (a : Nat) : Bool := decide (t.base.toNat ≤ a) && decide (a ≤ lastValidByte t)

/-- The number of valid bytes (R102). -/
def validByteCount (t : TableReg) : Nat := t.limit.toNat + 1

/-- The table passes the end of the linear address space (R101). -/
def tableWraps (t : TableReg) : Bool := decide (lastValidByte t > 0xFFFFFFFF)

/-- Descriptor `n` is inside a table: all 8 of its bytes are valid (R104). -/
def descriptorInside (limit n : Nat) : Bool := decide (8 * n + 7 ≤ limit)

/-- The 8 bytes of descriptor `n` of a table, read as a supervisor read whatever CPL is (R115). DESIGN CHOICE (log 40): a table that
passes FFFFFFFFh by its base and limit is refused for the GDT alone (R101); of an LDT (R114) each descriptor is refused by
itself, with the refusal of a data access, when its own bytes pass FFFFFFFFh. -/
def readDescriptorAt (base : Word32) (n : Nat) (s : State) : Result (BitVec 64) :=
  andThen (translateRange (descriptorAddress base n) 8 .read .supervisor s) fun places s =>
    andThen (readPlaces places s) fun bs s => .next (leWord64 bs, s)

/-- The processor's read of the descriptor a selector names: #GP(selector) outside the table (R104); the LDT through
the cached base and limit of LDTR (R114). The null descriptor is never read (R105): that the read of a null selector raises
#GP(0) is a DESIGN CHOICE (log 40), as neither R105 nor 60_exceptions.md R252 gives it an outcome. -/
def readDescriptor (sel : Word16) (s : State) : Result (BitVec 64) :=
  if isNullSelector sel then raise (.generalProtection 0#16) s
  else if selectorInLdt sel then
    if descriptorInside s.ldtr.limit.toNat (selectorIndex sel) then
      readDescriptorAt s.ldtr.base (selectorIndex sel) s
    else raise (.generalProtection sel) s
  else if tableWraps s.gdtr then .refused .gdtWraps
  else if descriptorInside s.gdtr.limit.toNat (selectorIndex sel) then
    readDescriptorAt s.gdtr.base (selectorIndex sel) s
  else raise (.generalProtection sel) s

end Sys2Proof.Machine
end

