-- ==== Sys2Proof/Machine/Segments.lean ====
section
/-! DEFINITION. The load of a data-segment register: spec/40_descriptor_tables.md R106, R107. -/

namespace Sys2Proof.Machine

/-- A selector put into a data-segment register (R107): a null selector is loaded without exception and makes the register
unusable; the load of another is refused, the descriptor format being in no source. -/
def loadDataSeg (r : DataSeg) (sel : Word16) (s : State) : Host.Outcome State Fault Refusal :=
  if isNullSelector sel then .next (writeDataSeg r { selector := sel, usable := false } s)
  else .refused .nonNullSelectorLoad

/-- `MOV Sreg, r/m16` (R107). -/
def execMovSreg (sreg : DataSeg) (src : RegMem) (s : State) : Host.Outcome State Fault Refusal :=
  andThen (readRegMem16 src s) fun sel s => loadDataSeg sreg sel s

end Sys2Proof.Machine
end

