-- ==== Sys2Proof/Machine/TableStores.lean ====
section
/-! DEFINITION. SGDT, SIDT, SLDT, STR: spec/41_pseudo_descriptor.md. -/

namespace Sys2Proof.Machine

/-- The bytes at physical places put back to what they were in an earlier memory. -/
def restorePlaces (before : Memory) : List (Nat × Nat) → Memory → Memory
  | [], m => m
  | p :: ps, m => restorePlaces before ps (writeBytes m p.1 (readBytes before p.1 p.2))

/-- What SGDT and SIDT leave behind when their second store raises (R124; log 18): free values choose between the first
store done, only the paging flags of its translation kept, and nothing of it done. `before` is the state before the
first store, `places` where it went, `left` the state the second store left. -/
def afterSecondStoreFault (before : State) (places : List (Nat × Nat)) (left : State) : State :=
  bif Config.freeBool left.choices then useChoices 2 left
  else bif Config.freeBool (left.choices + 1) then
    useChoices 2
      { left with mem := restorePlaces before.mem places left.mem, written := before.written }
  else { before with choices := left.choices + 2 }

/-- A pseudo-descriptor stored at linear address `a`: the word of the limit, then the doubleword of the base at `a + 2`,
each with its own checks (R122, R123). -/
def storePseudoDescriptor (t : TableReg) (a : Nat) (s : State) : Host.Outcome State Fault Refusal :=
  andThen (memWrite a (leBytes 2 t.limit) s) fun places s1 =>
    match memWrite (a + 2) (leBytes 4 t.base) s1 with
    | .next p => .next p.2
    | .fault (.exception e left) => raise e (afterSecondStoreFault s places left)
    | .fault (.aliasingDeadlock left) => .fault (.aliasingDeadlock left)
    | .refused why => .refused why

/-- `SGDT m` (R123). -/
def execSgdt (m : Mem) (s : State) : Host.Outcome State Fault Refusal :=
  andThen (memOperand m 6 .write s) fun a s => storePseudoDescriptor s.gdtr a.toNat s

/-- `SIDT m` (R126). -/
def execSidt (m : Mem) (s : State) : Host.Outcome State Fault Refusal :=
  andThen (memOperand m 6 .write s) fun a s => storePseudoDescriptor s.idtr a.toNat s

/-- `SLDT r/m16` (R130). -/
def execSldt (dst : RegMem) (s : State) : Host.Outcome State Fault Refusal :=
  storeSelector s.ldtr.selector dst s

/-- `STR r/m16` (R133). -/
def execStr (dst : RegMem) (s : State) : Host.Outcome State Fault Refusal :=
  storeSelector s.tr.selector dst s

end Sys2Proof.Machine
end

