-- ==== Sys2Proof/Machine/Dispatch.lean ====
section
/-! DEFINITION. The meaning of every instruction, one arm for each. -/

namespace Sys2Proof.Machine

def exec (i : Instr) (s : State) : Host.Outcome State Fault Refusal :=
  match i with
  | .sgdt m => Sys2Proof.Machine.execSgdt m s
  | .sidt m => Sys2Proof.Machine.execSidt m s
  | .invlpg m => Sys2Proof.Machine.execInvlpg m s
  | .sldt dst => Sys2Proof.Machine.execSldt dst s
  | .str dst => Sys2Proof.Machine.execStr dst s
  | .movCr0FromReg r => Sys2Proof.Machine.execMovCr0FromReg r s
  | .movRegFromCr0 r => Sys2Proof.Machine.execMovRegFromCr0 r s
  | .movCr3FromReg r => Sys2Proof.Machine.execMovCr3FromReg r s
  | .movRegFromCr3 r => Sys2Proof.Machine.execMovRegFromCr3 r s
  | .movCr4FromReg r => Sys2Proof.Machine.execMovCr4FromReg r s
  | .movRegFromCr4 r => Sys2Proof.Machine.execMovRegFromCr4 r s
  | .cpuid => Sys2Proof.Machine.execCpuid s
  | .movSreg sreg src => Sys2Proof.Machine.execMovSreg sreg src s
  | .movRegImm32 r imm => Sys2Proof.Machine.execMovRegImm32 r imm s
  | .movEaxMoffs32 off => Sys2Proof.Machine.execMovEaxMoffs32 off s
  | .movMoffs32Eax off => Sys2Proof.Machine.execMovMoffs32Eax off s
  | .orEaxImm32 imm => Sys2Proof.Machine.execOrEaxImm32 imm s

end Sys2Proof.Machine
end

