-- ==== Sys2Proof/Decode.lean ====
section
/-! DEFINITION. The decoder, total on any bytes, and the encoder: 30_encoding.md R84 to R92 and spec/opcode_table.json. Every
encoding is general knowledge in the spec itself (log 21). -/

namespace Sys2Proof

/-! ### Field values -/

/-- Register numbers (R84). -/
def regOfBits (b : BitVec 3) : Reg :=
  if b = 0#3 then .eax else if b = 1#3 then .ecx else if b = 2#3 then .edx else if b = 3#3 then .ebx
  else if b = 4#3 then .esp else if b = 5#3 then .ebp else if b = 6#3 then .esi else .edi

/-- Register numbers (R84). -/
def bitsOfReg : Reg → BitVec 3
  | .eax => 0#3
  | .ecx => 1#3
  | .edx => 2#3
  | .ebx => 3#3
  | .esp => 4#3
  | .ebp => 5#3
  | .esi => 6#3
  | .edi => 7#3

/-- Segment-register numbers (R84), the four of R107 only. -/
def dataSegOfBits (b : BitVec 3) : Option DataSeg :=
  if b = 0#3 then some .es else if b = 3#3 then some .ds else if b = 4#3 then some .fs
  else if b = 5#3 then some .gs else none

/-- Segment-register numbers (R84). -/
def bitsOfDataSeg : DataSeg → BitVec 3
  | .es => 0#3
  | .ds => 3#3
  | .fs => 4#3
  | .gs => 5#3

/-- `mod` of a ModR/M byte and `scale` of a SIB byte: bits 7:6 (R84). -/
def modField (b : Byte) : BitVec 2 := b.extractLsb' 6 2

/-- `reg` of a ModR/M byte and `index` of a SIB byte: bits 5:3 (R84). -/
def regField (b : Byte) : BitVec 3 := b.extractLsb' 3 3

/-- `rm` of a ModR/M byte and `base` of a SIB byte: bits 2:0 (R84). -/
def rmField (b : Byte) : BitVec 3 := b.extractLsb' 0 3

/-- A ModR/M or SIB byte from its three fields. -/
def threeFields (hi : BitVec 2) (mid lo : BitVec 3) : Byte := hi ++ mid ++ lo

/-! ### Parsing a byte sequence -/

/-- Why a byte sequence is not one of the admitted encodings (R83, R91); each is the refusal "encoding not admitted". -/
inductive DecodeError where
  /-- No row of the opcode table begins so; a prefix byte (R92) is such a byte. -/
  | noRow
  /-- mod = 11 where the row has a memory operand only (R91). -/
  | registerForm
  /-- mod other than 11 where the row has a register operand only. -/
  | memoryForm
  /-- `MOV Sreg` with CS, SS or no register (R86). -/
  | notDataSegment
deriving DecidableEq, Repr

/-- What a byte sequence begins with: a value and the bytes after it, too few bytes to tell, or nothing admitted. -/
inductive Parsed (α : Type) where
  | done (a : α) (rest : List Byte)
  | incomplete
  | refused (why : DecodeError)
deriving DecidableEq, Repr

/-- Goes on with the bytes after a parsed value. -/
def Parsed.andThen {α β : Type} (p : Parsed α) (f : α → List Byte → Parsed β) : Parsed β :=
  match p with
  | .done a rest => f a rest
  | .incomplete => .incomplete
  | .refused why => .refused why

/-- One byte. -/
def takeByte : List Byte → Parsed Byte
  | b :: rest => .done b rest
  | [] => .incomplete

/-- A 32-bit displacement, offset or immediate, little-endian (R84). -/
def takeDword : List Byte → Parsed Word32
  | b0 :: b1 :: b2 :: b3 :: rest => .done (b3 ++ b2 ++ b1 ++ b0) rest
  | _ => .incomplete

/-- The SIB forms (R85), after the SIB byte. -/
def parseSib (mod : BitVec 2) (sib : Byte) (bs : List Byte) : Parsed Mem :=
  let b := regOfBits (rmField sib)
  let i := regOfBits (regField sib)
  let scale := modField sib
  if mod = 0#2 then
    if b = .ebp then (takeDword bs).andThen fun d rest => .done (.sibNoBase i scale d) rest
    else .done (.sib b i scale) bs
  else if mod = 1#2 then (takeByte bs).andThen fun d rest => .done (.sibDisp8 b i scale d) rest
  else (takeDword bs).andThen fun d rest => .done (.sibDisp32 b i scale d) rest

/-- The memory forms of a ModR/M byte with mod other than 11 (R85). -/
def parseMem (modrm : Byte) (bs : List Byte) : Parsed Mem :=
  let mod := modField modrm
  let r := regOfBits (rmField modrm)
  if r = .esp then (takeByte bs).andThen fun sib rest => parseSib mod sib rest
  else if mod = 0#2 then
    if r = .ebp then (takeDword bs).andThen fun d rest => .done (.disp d) rest
    else .done (.base r) bs
  else if mod = 1#2 then (takeByte bs).andThen fun d rest => .done (.baseDisp8 r d) rest
  else (takeDword bs).andThen fun d rest => .done (.baseDisp32 r d) rest

/-- A memory-only operand: mod = 11 is not the instruction (R91). -/
def parseMemOnly (modrm : Byte) (bs : List Byte) (f : Mem → Instr) : Parsed Instr :=
  if modField modrm = 3#2 then .refused .registerForm
  else (parseMem modrm bs).andThen fun m rest => .done (f m) rest

/-- A register or memory operand. -/
def parseRegMem (modrm : Byte) (bs : List Byte) (f : RegMem → Instr) : Parsed Instr :=
  if modField modrm = 3#2 then .done (f (.reg (regOfBits (rmField modrm)))) bs
  else (parseMem modrm bs).andThen fun m rest => .done (f (.mem m)) rest

/-- A register-only operand: the rows fix mod = 11. -/
def parseRegOnly (modrm : Byte) (bs : List Byte) (f : Reg → Instr) : Parsed Instr :=
  if modField modrm = 3#2 then .done (f (regOfBits (rmField modrm))) bs
  else .refused .memoryForm

/-- `0F 00 /n` (R86). -/
def parse0F00 (modrm : Byte) (bs : List Byte) : Parsed Instr :=
  if regField modrm = 0#3 then parseRegMem modrm bs .sldt
  else if regField modrm = 1#3 then parseRegMem modrm bs .str
  else .refused .noRow

/-- `0F 01 /n` (R86). -/
def parse0F01 (modrm : Byte) (bs : List Byte) : Parsed Instr :=
  if regField modrm = 0#3 then parseMemOnly modrm bs .sgdt
  else if regField modrm = 1#3 then parseMemOnly modrm bs .sidt
  else if regField modrm = 7#3 then parseMemOnly modrm bs .invlpg
  else .refused .noRow

/-- `0F 20 /n` (R86): MOV r32, CRn. -/
def parse0F20 (modrm : Byte) (bs : List Byte) : Parsed Instr :=
  if regField modrm = 0#3 then parseRegOnly modrm bs .movRegFromCr0
  else if regField modrm = 3#3 then parseRegOnly modrm bs .movRegFromCr3
  else if regField modrm = 4#3 then parseRegOnly modrm bs .movRegFromCr4
  else .refused .noRow

/-- `0F 22 /n` (R86): MOV CRn, r32. -/
def parse0F22 (modrm : Byte) (bs : List Byte) : Parsed Instr :=
  if regField modrm = 0#3 then parseRegOnly modrm bs .movCr0FromReg
  else if regField modrm = 3#3 then parseRegOnly modrm bs .movCr3FromReg
  else if regField modrm = 4#3 then parseRegOnly modrm bs .movCr4FromReg
  else .refused .noRow

/-- The two-byte opcodes, after the byte `0F` (R86). -/
def parseTwoByte (op : Byte) (bs : List Byte) : Parsed Instr :=
  if op = 0x00#8 then (takeByte bs).andThen parse0F00
  else if op = 0x01#8 then (takeByte bs).andThen parse0F01
  else if op = 0x20#8 then (takeByte bs).andThen parse0F20
  else if op = 0x22#8 then (takeByte bs).andThen parse0F22
  else if op = 0xA2#8 then .done .cpuid bs
  else .refused .noRow

/-- `8E /r` (R86), after its ModR/M byte. -/
def parseMovSreg (modrm : Byte) (bs : List Byte) : Parsed Instr :=
  match dataSegOfBits (regField modrm) with
  | some sreg => parseRegMem modrm bs (.movSreg sreg)
  | none => .refused .notDataSegment

/-- The opcode's first byte (R86 to R90). -/
def parseOpcode (op : Byte) (bs : List Byte) : Parsed Instr :=
  if op = 0x0F#8 then (takeByte bs).andThen parseTwoByte
  else if op = 0x8E#8 then (takeByte bs).andThen parseMovSreg
  else if op.extractLsb' 3 5 = 0x17#5 then
    (takeDword bs).andThen fun imm rest => .done (.movRegImm32 (regOfBits (rmField op)) imm) rest
  else if op = 0xA1#8 then (takeDword bs).andThen fun off rest => .done (.movEaxMoffs32 off) rest
  else if op = 0xA3#8 then (takeDword bs).andThen fun off rest => .done (.movMoffs32Eax off) rest
  else if op = 0x0D#8 then (takeDword bs).andThen fun imm rest => .done (.orEaxImm32 imm) rest
  else .refused .noRow

/-- The instruction a byte sequence begins with and the bytes after it; `incomplete` when more bytes decide. -/
def decode (bs : List Byte) : Parsed Instr :=
  (takeByte bs).andThen parseOpcode

/-! ### Encoding -/

/-- A doubleword as bytes, little-endian (R84). -/
def dwordBytes (w : Word32) : List Byte :=
  [w.extractLsb' 0 8, w.extractLsb' 8 8, w.extractLsb' 16 8, w.extractLsb' 24 8]

/-- ModR/M byte (with `reg`), SIB byte and displacement of a memory operand (R85). -/
def encodeMem (reg : BitVec 3) : Mem → List Byte
  | .base r => [threeFields 0#2 reg (bitsOfReg r)]
  | .disp d => threeFields 0#2 reg 5#3 :: dwordBytes d
  | .baseDisp8 r d => [threeFields 1#2 reg (bitsOfReg r), d]
  | .baseDisp32 r d => threeFields 2#2 reg (bitsOfReg r) :: dwordBytes d
  | .sib b i scale => [threeFields 0#2 reg 4#3, threeFields scale (bitsOfReg i) (bitsOfReg b)]
  | .sibNoBase i scale d =>
    threeFields 0#2 reg 4#3 :: threeFields scale (bitsOfReg i) 5#3 :: dwordBytes d
  | .sibDisp8 b i scale d =>
    [threeFields 1#2 reg 4#3, threeFields scale (bitsOfReg i) (bitsOfReg b), d]
  | .sibDisp32 b i scale d =>
    threeFields 2#2 reg 4#3 :: threeFields scale (bitsOfReg i) (bitsOfReg b) :: dwordBytes d

/-- A register or memory operand. -/
def encodeRegMem (reg : BitVec 3) : RegMem → List Byte
  | .reg r => [threeFields 3#2 reg (bitsOfReg r)]
  | .mem m => encodeMem reg m

/-- The bytes of an instruction, first byte first (R86 to R90). -/
def encode : Instr → List Byte
  | .sgdt m => 0x0F#8 :: 0x01#8 :: encodeMem 0#3 m
  | .sidt m => 0x0F#8 :: 0x01#8 :: encodeMem 1#3 m
  | .invlpg m => 0x0F#8 :: 0x01#8 :: encodeMem 7#3 m
  | .sldt dst => 0x0F#8 :: 0x00#8 :: encodeRegMem 0#3 dst
  | .str dst => 0x0F#8 :: 0x00#8 :: encodeRegMem 1#3 dst
  | .movCr0FromReg r => [0x0F#8, 0x22#8, threeFields 3#2 0#3 (bitsOfReg r)]
  | .movRegFromCr0 r => [0x0F#8, 0x20#8, threeFields 3#2 0#3 (bitsOfReg r)]
  | .movCr3FromReg r => [0x0F#8, 0x22#8, threeFields 3#2 3#3 (bitsOfReg r)]
  | .movRegFromCr3 r => [0x0F#8, 0x20#8, threeFields 3#2 3#3 (bitsOfReg r)]
  | .movCr4FromReg r => [0x0F#8, 0x22#8, threeFields 3#2 4#3 (bitsOfReg r)]
  | .movRegFromCr4 r => [0x0F#8, 0x20#8, threeFields 3#2 4#3 (bitsOfReg r)]
  | .cpuid => [0x0F#8, 0xA2#8]
  | .movSreg sreg src => 0x8E#8 :: encodeRegMem (bitsOfDataSeg sreg) src
  | .movRegImm32 r imm => (0x17#5 ++ bitsOfReg r) :: dwordBytes imm
  | .movEaxMoffs32 off => 0xA1#8 :: dwordBytes off
  | .movMoffs32Eax off => 0xA3#8 :: dwordBytes off
  | .orEaxImm32 imm => 0x0D#8 :: dwordBytes imm

/-! ### Lengths (10_state.md R23: EIP advances by the byte length) -/

/-- Bytes of ModR/M, SIB and displacement (R85). -/
def memLength : Mem → Nat
  | .base _ => 1
  | .disp _ => 5
  | .baseDisp8 _ _ => 2
  | .baseDisp32 _ _ => 5
  | .sib _ _ _ => 2
  | .sibNoBase _ _ _ => 6
  | .sibDisp8 _ _ _ _ => 3
  | .sibDisp32 _ _ _ _ => 6

/-- Bytes of a register or memory operand. -/
def regMemLength : RegMem → Nat
  | .reg _ => 1
  | .mem m => memLength m

/-- The byte length of an instruction. -/
def instrLength : Instr → Nat
  | .sgdt m => 2 + memLength m
  | .sidt m => 2 + memLength m
  | .invlpg m => 2 + memLength m
  | .sldt dst => 2 + regMemLength dst
  | .str dst => 2 + regMemLength dst
  | .movCr0FromReg _ => 3
  | .movRegFromCr0 _ => 3
  | .movCr3FromReg _ => 3
  | .movRegFromCr3 _ => 3
  | .movCr4FromReg _ => 3
  | .movRegFromCr4 _ => 3
  | .cpuid => 2
  | .movSreg _ src => 1 + regMemLength src
  | .movRegImm32 _ _ => 5
  | .movEaxMoffs32 _ => 5
  | .movMoffs32Eax _ => 5
  | .orEaxImm32 _ => 5

/-- The longest instruction: `0F 01`, ModR/M, SIB, disp32. -/
def maxInstrLength : Nat := 8

/-! ### Words of the opcode table -/

/-- The last `n` bytes of `w`, most significant first: the table writes an instruction's leading bytes as one number
whose most significant byte is the first in memory (R83). -/
def tableBytes : Nat → Nat → List Byte
  | 0, _ => []
  | n + 1, w => tableBytes n (w / 256) ++ [BitVec.ofNat 8 w]

/-- The bytes in memory of a table word of `nbits` bits, the bytes it leaves open zero, up to the longest
instruction. -/
def tableWordBytes (nbits w : Nat) : List Byte :=
  let lead := tableBytes (nbits / 8) w
  lead ++ List.replicate (maxInstrLength - lead.length) 0#8

/-- The instruction the decoder reads from a word of spec/opcode_table.json, numbered as the table numbers its bits
(30_encoding.md R83: the first byte in memory is the most significant of `match` and `mask`). -/
def decodeTableWord (nbits w : Nat) : Option Instr :=
  match decode (tableWordBytes nbits w) with
  | .done i _ => some i
  | _ => none

end Sys2Proof
end

