-- ==== Sys2Proof/Machine/Fetch.lean ====
section
/-! DEFINITION. Fetching an instruction: spec/20_memory.md R54, R73, and what happens around an instruction: the TLB
environment (R66) and the advance of EIP (spec/10_state.md R23). -/

namespace Sys2Proof.Machine

/-- Linear address of the instruction: the base of the code segment plus EIP, not wrapped (log 7, log 29). -/
def fetchAddress (s : State) : Nat := s.csBase.toNat + s.eip.toNat

/-- The physical address of the byte to fetch at linear address `la`: translated at the first byte and at every 4-KByte
boundary, else the one after `prev` (log 20). -/
def fetchPlace (prev : Option Nat) (la : Nat) (s : State) : Result Nat :=
  if la ≥ 2 ^ 32 then .refused .linearAddressWrap
  else
    match prev with
    | some pa =>
      if la % 4096 = 0 then
        andThen (translate (BitVec.ofNat 32 la) .fetch (currentPriv s) s) fun pa s => .next (pa.toNat, s)
      else .next (pa + 1, s)
    | none => andThen (translate (BitVec.ofNat 32 la) .fetch (currentPriv s) s) fun pa s => .next (pa.toNat, s)

/-- One byte of code: refused when it was stored to since the last load of CR3 (R73; log 19). -/
def fetchByte (pa : Nat) (s : State) : Result Byte :=
  if pa ∈ s.written then .refused .selfModifyingCode
  else if mapped s.cfg pa then .next (memByte s.mem pa, s)
  else .refused .noMemoryAtPhysicalAddress

/-- Fetches byte after byte until the bytes decide: no byte beyond the instruction is fetched (30_encoding.md R84). -/
def fetchLoop : Nat → Option Nat → List Byte → State → Result Instr
  | 0, _, _, _ => .refused .encodingNotAdmitted
  | fuel + 1, prev, got, s =>
    match decode got with
    | .done i _ => .next (i, s)
    | .refused _ => .refused .encodingNotAdmitted
    | .incomplete =>
      andThen (fetchPlace prev (fetchAddress s + got.length) s) fun pa s =>
        andThen (fetchByte pa s) fun b s => fetchLoop fuel (some pa) (got ++ [b]) s

/-- The instruction at EIP. -/
def fetchInstr (s : State) : Result Instr := fetchLoop (maxInstrLength + 1) none [] s

/-- The environment's turn: any TLB entry may leave (R66). -/
def environment (s : State) : State := dropAny s

/-- EIP past the instruction (10_state.md R23; modulo 2^32, log 8). -/
def advance (i : Instr) (s : State) : State := { s with eip := s.eip + BitVec.ofNat 32 (instrLength i) }

/-- An instruction that has completed, EIP past it; a fault leaves EIP where it was (R22). -/
def complete (i : Instr) : Host.Outcome State Fault Refusal → Host.Outcome State Fault Refusal
  | .next s => .next (advance i s)
  | .fault e => .fault e
  | .refused why => .refused why

/-- The physical addresses from which the next step fetches `n` bytes, as far as they translate. -/
def fetchPlaces : Nat → Option Nat → Nat → State → List Nat
  | 0, _, _, _ => []
  | n + 1, prev, la, s =>
    match fetchPlace prev la s with
    | .next p => p.1 :: fetchPlaces n (some p.1) (la + 1) p.2
    | .fault _ => []
    | .refused _ => []

/-- Code bytes put at physical addresses by the outside world: not stores of the program (R73). -/
def placeCode : List Nat → List Byte → State → State
  | pa :: pas, b :: bs, s =>
    placeCode pas bs { s with mem := setByte s.mem pa b, written := s.written.filter fun w => w != pa }
  | _, _, s => s

end Sys2Proof.Machine
end

