-- ==== Sys2Proof/Machine/Step.lean ====
section
/-! DEFINITION. One step: the environment's turn, the fetch, the instruction, the advance of EIP. -/

namespace Sys2Proof.Machine

/-- One step of the machine (00_scope.md R4; 20_memory.md R54, R66; 10_state.md R23). -/
def step (s : State) : Host.Outcome State Fault Refusal :=
  andThen (fetchInstr (environment s)) fun i s' => complete i (exec i s')

/-- The instruction of a word of spec/opcode_table.json, zero bytes after it, stored where the next step fetches: the
load of a program from outside the machine (log 32). -/
def State.withFetchWord (s : State) (nbits w : Nat) : State :=
  placeCode (fetchPlaces maxInstrLength none (fetchAddress s) (environment s)) (tableWordBytes nbits w) s

end Sys2Proof.Machine
end

