-- ==== Sys2Proof/Safety.lean ====
section
/-! DEFINITION. What statements about runs are written in: what may change, the invariant of the machine, and what a TLB entry
is allowed to hold. -/

namespace Sys2Proof.Machine

/-- `t` has every register of `s`: only memory, the TLB, the bytes stored to and the count of free values may differ. -/
def SameRegisters (s t : State) : Prop :=
  t = { s with mem := t.mem, tlb := t.tlb, written := t.written, choices := t.choices }

/-- From `m` to `m'` no bit of memory is cleared and no bit outside `mask` of any byte is changed: what setting A (20h)
and D (40h) flags does (43_translation_32bit.md R180 to R182). -/
def OnlyBitsSet (mask : Byte) (m m' : Memory) : Prop :=
  ∀ a, memByte m' a &&& ~~~mask = memByte m a &&& ~~~mask ∧ memByte m' a ||| memByte m a = memByte m' a

/-- The flags a walk may set: A, and D for a write (R180, R181). -/
def walkMask (acc : AccessKind) : Byte := if acc = .write then 0x60#8 else 0x20#8

/-- What a TLB entry holds (20_memory.md R62; 44_paging_entries.md R230, R231): copies of present, accessed entries that
passed the reserved-bit test. -/
def tlbEntryOk (c : Config) : TlbEntry → Prop
  | .page4K _ pde pte =>
    pFlag pde = true ∧ aFlag pde = true ∧ pFlag pte = true ∧ aFlag pte = true ∧
      reservedOk c .pdePT pde = true ∧ reservedOk c .pte4K pte = true
  | .page4M _ pde =>
    pFlag pde = true ∧ aFlag pde = true ∧ psFlag pde = true ∧ reservedOk c .pde4M pde = true

/-- The invariant of the machine: what holds after reset and is kept by every step. -/
structure Inv (s : State) : Prop where
  /-- The constraints on `cfg` (00_scope.md R5). -/
  cfgWf : s.cfg.wf = true
  /-- Memory keeps its canonical form. -/
  memWf : Memory.wf s.mem
  /-- Only addresses in PhysMap hold anything (20_memory.md R52). -/
  memMapped : ∀ c ∈ s.mem, mapped s.cfg c.1 = true
  /-- The TLB is a set (10_state.md R38). -/
  tlbNodup : s.tlb.Nodup
  /-- No not-present entry is ever cached (44_paging_entries.md R231). -/
  tlbOk : ∀ e ∈ s.tlb, tlbEntryOk s.cfg e
  /-- A CR4 flag of an absent feature is 0 (10_state.md R28). -/
  features : cr4FeatureMissing s.cfg s.cr4 = false
  /-- PAE paging is never reached (45_pae_intro.md R245). -/
  noPaePaging : (pgFlag s.cr0 && paeFlag s.cr4) = false
  /-- An unusable data-segment register holds a null selector (40_descriptor_tables.md R107). -/
  unusableIsNull :
    ∀ r, (readDataSeg s r).usable = false → isNullSelector (readDataSeg s r).selector = true
  /-- The bytes stored to are a set. -/
  writtenNodup : s.written.Nodup
  /-- Only addresses in PhysMap are stored to (20_memory.md R52). -/
  writtenMapped : ∀ a ∈ s.written, mapped s.cfg a = true

/-- The state a step leaves, where it leaves one: the next state, or the one an exception or the deadlock leaves. -/
def stateLeft : Host.Outcome State Fault Refusal → Option State
  | .next s => some s
  | .fault (.exception _ left) => some left
  | .fault (.aliasingDeadlock left) => some left
  | .refused _ => none

/-- Physical address `a` is one of the bytes of `places`. -/
def InPlaces (places : List (Nat × Nat)) (a : Nat) : Prop := ∃ p ∈ places, p.1 ≤ a ∧ a < p.1 + p.2

/-- Only general registers, and the count of free values, may differ. -/
def OnlyGprs (s t : State) : Prop := t = { s with gprs := t.gprs, choices := t.choices }

/-- Only memory and the bytes stored to may differ. -/
def OnlyMemory (s t : State) : Prop := t = { s with mem := t.mem, written := t.written }

/-- No other entry of the page directory is a double of entry `i` (43_translation_32bit.md R188): present, pointing to a page
table, with the same base. -/
def NoDoubledEntry (s : State) (i : Nat) : Prop :=
  ∀ j, j < 1024 → j ≠ i → pointsToTable s j = true →
    (entryAt s (directorySlot s j)).extractLsb' 12 20 ≠ (entryAt s (directorySlot s i)).extractLsb' 12 20

/-- Every double of entry `i` (R188) agrees with it in A and D: `q[6:5] = p[6:5]` (R189). -/
def DoublesAgree (s : State) (i : Nat) : Prop :=
  ∀ j, j < 1024 → j ≠ i → pointsToTable s j = true →
    (entryAt s (directorySlot s j)).extractLsb' 12 20 = (entryAt s (directorySlot s i)).extractLsb' 12 20 →
    (entryAt s (directorySlot s j)).extractLsb' 5 2 = (entryAt s (directorySlot s i)).extractLsb' 5 2

/-- The doubles of the entry a linear address selects agree with it in each of the memories (R189: "at any moment of the
walk"). -/
def DoublesAgreeIn (s : State) (la : Word32) (moments : List Memory) : Prop :=
  ∀ m ∈ moments, DoublesAgree { s with mem := m } (directoryIndex la).toNat

/-- Memory with the A flag of the directory entry of a linear address set (R180, R182). -/
def withPdeAccessed (s : State) (la pde : Word32) (m : Memory) : Memory :=
  writeBytes m (pdeAddress s.cr3 la).toNat (leBytes 4 (setA pde))

/-- The moments of a walk to a 4-KByte page that completes (R190): before its updates, after that of the directory entry,
after that of the page-table entry. -/
def walkMoments (acc : AccessKind) (s : State) (la pde pte : Word32) : List Memory :=
  [s.mem, withPdeAccessed s la pde s.mem,
    writeBytes (withPdeAccessed s la pde s.mem) (pteAddress pde la).toNat (leBytes 4 (setDOnWrite acc (setA pte)))]

/-- The moments of a walk through a page table that faults (R184, R190): before, and with the A flag of the directory entry, of
the page-table entry, or of both, set. -/
def faultMoments (s : State) (la pde pte : Word32) : List Memory :=
  let withPte (m : Memory) : Memory := writeBytes m (pteAddress pde la).toNat (leBytes 4 (setA pte))
  [s.mem, withPdeAccessed s la pde s.mem, withPte s.mem, withPte (withPdeAccessed s la pde s.mem)]

/-- The moments of a walk through a page table that faults, as its free values have it (log 14, log 16): before, after the A flag
of the directory entry may have been set, and after that of the page-table entry may have been. -/
def faultPath (s : State) (la pde pte : Word32) : List Memory :=
  let m1 := if Config.freeBool s.choices then withPdeAccessed s la pde s.mem else s.mem
  [s.mem, m1,
    if Config.freeBool (s.choices + 1) then writeBytes m1 (pteAddress pde la).toNat (leBytes 4 (setA pte)) else m1]

/-- The walk of a linear address passes the directory entry `pde`, which points to a page table, and reads the page-table entry
`pte`: both in memory, the first present and without reserved bits (R173 to R175, R190). -/
structure ReadsPageTable (s : State) (la pde pte : Word32) : Prop where
  pdeInMemory : mappedRange s.cfg (pdeAddress s.cr3 la).toNat 4 = true
  pdeRead : pde = entryAt s (pdeAddress s.cr3 la).toNat
  present : pFlag pde = true
  notLarge : mapsLargePage s pde = false
  reserved : reservedOk s.cfg .pdePT pde = true
  pteInMemory : mappedRange s.cfg (pteAddress pde la).toNat 4 = true
  pteRead : pte = entryAt s (pteAddress pde la).toNat

/-- The page-table entry is present and without reserved bits, and `cfg.PagePermits` answers `permitted` (R190). -/
structure ChecksPageTable (s : State) (acc : AccessKind) (priv : Priv) (pde pte : Word32) (permitted : Bool) : Prop where
  present : pFlag pte = true
  reserved : reservedOk s.cfg .pte4K pte = true
  permission : pagePermits s.cfg priv acc (wpFlag s.cr0) (usFlag pde) (rwFlag pde) (some (usFlag pte, rwFlag pte)) = permitted

/-! ### Accesses -/

/-- `cfg.SegTranslate` gives an access of `n` bytes the linear address `la`: the register is usable and the instance answers
`la`, which in the flat one is the offset (40_descriptor_tables.md R109, R110). -/
structure SegmentAddress (s : State) (seg : Seg) (off : Word32) (n : Nat) (acc : SegAccess) (la : Word32) : Prop where
  usable : segUsable s seg = true
  answered : segOutcome s.cfg seg off n acc = .linear la

/-- The linear address of a memory operand. -/
abbrev OperandAddress (s : State) (m : Mem) (n : Nat) (acc : SegAccess) (la : Word32) : Prop :=
  SegmentAddress s (defaultSeg m) (effectiveAddress s m) n acc la

/-- Every byte of the places holds memory (20_memory.md R52). -/
def placesMapped (c : Config) (places : List (Nat × Nat)) : Bool :=
  places.all fun p => mappedRange c p.1 p.2

/-- The bytes of the places, in order. -/
def placesBytes (m : Memory) : List (Nat × Nat) → List Byte
  | [] => []
  | p :: ps => readBytes m p.1 p.2 ++ placesBytes m ps

/-- The state after bytes are stored to places that hold memory. -/
def storePlaces : List (Nat × Nat) → List Byte → State → State
  | [], _, s => s
  | p :: ps, bs, s => storePlaces ps (bs.drop p.2) (storeData p.1 (bs.take p.2) s)

/-- With paging off, a data access to `n` bytes at linear address `addr` completes: the range does not wrap, memory is
there, and the alignment check does not fault (20_memory.md R53, 60_exceptions.md R256). -/
structure PlainAccess (s : State) (addr n : Nat) : Prop where
  pagingOff : pgFlag s.cr0 = false
  noWrap : addr + n ≤ 2 ^ 32
  inMemory : mappedRange s.cfg addr n = true
  aligned : alignmentFaults addr n s = false

/-- A data access to `n` bytes at linear address `addr` completes, paging on or off: the range translates to `places`,
leaving `s1`, memory is there, and the alignment check does not fault (R53, R256). -/
structure TranslatedAccess (s : State) (addr n : Nat) (acc : AccessKind) (places : List (Nat × Nat))
    (s1 : State) : Prop where
  translated : translateRange addr n acc (currentPriv s) s = .next (places, s1)
  inMemory : placesMapped s.cfg places = true
  aligned : alignmentFaults addr n s = false

/-- What SGDT and SIDT leave when their second store raises (41_pseudo_descriptor.md R124; log 18): `places` and `stored` are
those of the first store, `u` is the state in which the second raised. No register is written; the first store stands with
all the second translation did, or its bytes are as they were before it, or memory, TLB and the bytes stored to are all as
they were before the instruction. -/
structure SecondStoreLeaves (s : State) (places : List (Nat × Nat)) (stored u left : State) : Prop where
  same : SameRegisters s left
  flags : OnlyBitsSet 0x60#8 stored.mem u.mem
  outcome :
    (left.mem = u.mem ∧ left.tlb = u.tlb ∧ left.written = stored.written) ∨
    ((∀ a, InPlaces places a → memByte left.mem a = memByte s.mem a) ∧
      (∀ a, ¬ InPlaces places a → memByte left.mem a = memByte u.mem a) ∧
      left.tlb = u.tlb ∧ left.written = s.written) ∨
    (left.mem = s.mem ∧ left.tlb = s.tlb ∧ left.written = s.written)

end Sys2Proof.Machine
end

