-- ==== Sys2Proof/WellFormed.lean ====
section
/-! DEFINITION. Which instruction terms an encoding exists for: the exclusions of the ModR/M table of 30_encoding.md R85. -/

namespace Sys2Proof

/-- The memory forms that ModR/M and SIB can encode (R85): rm 100 (ESP) announces a SIB byte, rm 101 (EBP) with mod 00
is the displacement form, and SIB.base 101 with mod 00 has no base. -/
def Mem.wf : Mem → Bool
  | .base r => r != .esp && r != .ebp
  | .disp _ => true
  | .baseDisp8 r _ => r != .esp
  | .baseDisp32 r _ => r != .esp
  | .sib b _ _ => b != .ebp
  | .sibNoBase _ _ _ => true
  | .sibDisp8 _ _ _ _ => true
  | .sibDisp32 _ _ _ _ => true

/-- A register operand is always encodable; a memory operand as `Mem.wf` says. -/
def RegMem.wf : RegMem → Bool
  | .reg _ => true
  | .mem m => m.wf

/-- The well-formed instructions: those whose operands an encoding of R86 to R90 can carry. -/
def Instr.wf : Instr → Bool
  | .sgdt m => m.wf
  | .sidt m => m.wf
  | .invlpg m => m.wf
  | .sldt dst => dst.wf
  | .str dst => dst.wf
  | .movCr0FromReg _ => true
  | .movRegFromCr0 _ => true
  | .movCr3FromReg _ => true
  | .movRegFromCr3 _ => true
  | .movCr4FromReg _ => true
  | .movRegFromCr4 _ => true
  | .cpuid => true
  | .movSreg _ src => src.wf
  | .movRegImm32 _ _ => true
  | .movEaxMoffs32 _ => true
  | .movMoffs32Eax _ => true
  | .orEaxImm32 _ => true

end Sys2Proof
end

