-- ==== Sys2Proof/Certificates/Slice0/Obligations.lean ====
section
/-! DEFINITION. The statements for the provers. -/

open Sys2Proof Sys2Proof.Machine

/-! ### Encoding -/

/-- 30_encoding.md R84 to R90: what the encoder writes of a well-formed instruction, the decoder reads, whatever follows.
The encodings are general knowledge in the spec (log 21). -/
def Obligations.DecodeInvertsEncode : Prop :=
  ∀ (i : Instr) (rest : List Byte), i.wf = true → decode (encode i ++ rest) = .done i rest

/-- 30_encoding.md R83: what the decoder accepts begins with the encoding of a well-formed instruction, and that
encoding alone is taken. (Log 21.) -/
def Obligations.DecodedBytesAreTheEncoding : Prop :=
  ∀ (bs rest : List Byte) (i : Instr), decode bs = .done i rest → i.wf = true ∧ bs = encode i ++ rest

/-- Byte sequences of 95_test_vectors.md and 30_encoding.md decode to what the spec says they are. (Log 21.) -/
def Obligations.SpecWordsDecode : Prop :=
  decode [0x0F, 0x01, 0x05, 0x02, 0x10, 0x00, 0x00] = .done (.sgdt (.disp 0x00001002)) [] ∧
  decode [0x0F, 0x22, 0xD8] = .done (.movCr3FromReg .eax) [] ∧
  decode [0x0F, 0x20, 0xD8] = .done (.movRegFromCr3 .eax) [] ∧
  decode [0x0F, 0x22, 0xC0] = .done (.movCr0FromReg .eax) [] ∧
  decode [0x8E, 0xD8] = .done (.movSreg .ds (.reg .eax)) [] ∧
  decode [0x0F, 0xA2] = .done .cpuid [] ∧
  decode [0xB8, 0x00, 0x20, 0x00, 0x00] = .done (.movRegImm32 .eax 0x00002000) [] ∧
  decode [0xA1, 0x00, 0x10, 0x00, 0x00] = .done (.movEaxMoffs32 0x00001000) [] ∧
  decode [0x0D, 0x00, 0x00, 0x00, 0x80] = .done (.orEaxImm32 0x80000000) []

/-- 30_encoding.md R83, R91, R92: prefix bytes, the register forms of SGDT, SIDT and INVLPG, the memory forms of the
control-register moves, and the loads of CS, of SS and of no segment register are refused. (Log 21.) -/
def Obligations.UnadmittedFormsRefused : Prop :=
  (∀ b ∈ ([0x66, 0x67, 0xF0, 0xF2, 0xF3, 0x26, 0x2E, 0x36, 0x3E, 0x64, 0x65] : List Byte), ∀ bs,
    decode (b :: bs) = .refused .noRow) ∧
  (∀ modrm bs, modField modrm = 3#2 → regField modrm ∈ [0#3, 1#3, 7#3] →
    decode (0x0F#8 :: 0x01#8 :: modrm :: bs) = .refused .registerForm) ∧
  (∀ op ∈ [0x20#8, 0x22#8], ∀ modrm bs, modField modrm ≠ 3#2 → regField modrm ∈ [0#3, 3#3, 4#3] →
    decode (0x0F#8 :: op :: modrm :: bs) = .refused .memoryForm) ∧
  (∀ modrm bs, regField modrm ∈ [1#3, 2#3, 6#3, 7#3] →
    decode (0x8E#8 :: modrm :: bs) = .refused .notDataSegment)

/-! ### The step -/

/-- With paging off, when the bytes at CS base plus EIP are the encoding of a well-formed instruction, a step runs that
instruction after the environment's turn (20_memory.md R54, R66): EIP goes past it when it completes (10_state.md R23), and a
fault or a refusal of the instruction is the step's. The address of the fetch is the model's (log 7). -/
def Obligations.StepRunsInstructionPagingOff : Prop :=
  ∀ (s : State) (i : Instr), i.wf = true → pgFlag s.cr0 = false →
    fetchAddress s + instrLength i ≤ 2 ^ 32 →
    readBytes s.mem (fetchAddress s) (instrLength i) = encode i →
    mappedRange s.cfg (fetchAddress s) (instrLength i) = true →
    (∀ k, k < instrLength i → fetchAddress s + k ∉ s.written) →
    (∀ t, exec i (environment s) = .next t →
      step s = .next { t with eip := t.eip + BitVec.ofNat 32 (instrLength i) }) ∧
    (∀ e, exec i (environment s) = .fault e → step s = .fault e) ∧
    (∀ why, exec i (environment s) = .refused why → step s = .refused why)

/-- The same, paging on or off, for an instruction that lies on one 4-KByte page: its address is translated once, as a fetch,
and `u` is the state that translation leaves. (Log 7, log 20.) -/
def Obligations.StepRunsInstructionOnOnePage : Prop :=
  ∀ (s u : State) (pa : PhysAddr) (i : Instr), i.wf = true →
    translate (BitVec.ofNat 32 (fetchAddress s)) .fetch (currentPriv s) (environment s) = .next (pa, u) →
    fetchAddress s + instrLength i ≤ 2 ^ 32 →
    fetchAddress s % 4096 + instrLength i ≤ 4096 →
    readBytes u.mem pa.toNat (instrLength i) = encode i →
    mappedRange s.cfg pa.toNat (instrLength i) = true →
    (∀ k, k < instrLength i → pa.toNat + k ∉ s.written) →
    (∀ t, exec i u = .next t → step s = .next { t with eip := t.eip + BitVec.ofNat 32 (instrLength i) }) ∧
    (∀ e, exec i u = .fault e → step s = .fault e) ∧
    (∀ why, exec i u = .refused why → step s = .refused why)

/-- 20_memory.md R73, as log 19 reads it: the fetch of a byte the program has stored to is refused, whichever byte of the
instruction it is: paging off; paging off, and the bytes before it leave the decoder waiting for more; paging on or
off, on one page (log 20). -/
def Obligations.FetchOfStoredByteRefused : Prop :=
  (∀ (s : State) (i : Instr) (k : Nat), i.wf = true → pgFlag s.cr0 = false →
    fetchAddress s + instrLength i ≤ 2 ^ 32 →
    readBytes s.mem (fetchAddress s) (instrLength i) = encode i →
    mappedRange s.cfg (fetchAddress s) (instrLength i) = true →
    k < instrLength i → fetchAddress s + k ∈ s.written → step s = .refused .selfModifyingCode) ∧
  (∀ (s : State) (k : Nat), pgFlag s.cr0 = false → fetchAddress s + k < 2 ^ 32 →
    decode (readBytes s.mem (fetchAddress s) k) = .incomplete →
    mappedRange s.cfg (fetchAddress s) k = true →
    fetchAddress s + k ∈ s.written → step s = .refused .selfModifyingCode) ∧
  (∀ (s u : State) (pa : PhysAddr) (i : Instr) (k : Nat), i.wf = true →
    translate (BitVec.ofNat 32 (fetchAddress s)) .fetch (currentPriv s) (environment s) = .next (pa, u) →
    fetchAddress s + instrLength i ≤ 2 ^ 32 →
    fetchAddress s % 4096 + instrLength i ≤ 4096 →
    readBytes u.mem pa.toNat (instrLength i) = encode i →
    mappedRange s.cfg pa.toNat (instrLength i) = true →
    k < instrLength i → pa.toNat + k ∈ s.written → step s = .refused .selfModifyingCode)

/-- 10_state.md R23: a completed step moves EIP by the length of the instruction it fetched, and by nothing else.
(Modulo 2^32, log 8.) -/
def Obligations.StepAdvancesEip : Prop :=
  ∀ s t : State, step s = .next t →
    ∃ i u, fetchInstr (environment s) = .next (i, u) ∧ t.eip = s.eip + BitVec.ofNat 32 (instrLength i)

/-- 10_state.md R22, 60_exceptions.md R250, R261: a step that ends in a fault leaves every register, EIP among them, as it
was. (That the aliasing deadlock leaves a state, and which, is the model's choice, log 41.) -/
def Obligations.FaultKeepsEveryRegister : Prop :=
  ∀ (s : State) (e : Fault), step s = .fault e →
    ∃ left, stateLeft (step s) = some left ∧ SameRegisters s left

/-- 70_reset_and_hazards.md R282: paging is off after reset. (The rest of CR0 is the family's, log 5.) -/
def Obligations.ResetHasPagingOff : Prop :=
  pgFlag State.reset.cr0 = false

/-- The machine after reset has the invariant. Its values are the family's (log 5) and its configuration is open (log 1). -/
def Obligations.ResetHasInvariant : Prop :=
  Inv State.reset

/-- Every step that answers a next state keeps the invariant: configuration constraints, canonical memory inside PhysMap, a TLB
of present and accessed copies, no CR4 flag of an absent feature, no PAE paging, unusable segment registers null.
(Log 26, log 27.) -/
def Obligations.StepKeepsInvariant : Prop :=
  ∀ s t : State, Inv s → step s = .next t → Inv t

/-- The state a faulting step leaves, in which, after an exception, the instruction may be restarted, has the invariant too.
(That the aliasing deadlock leaves a state, and which, is the model's choice, log 41.) -/
def Obligations.FaultKeepsInvariant : Prop :=
  ∀ (s left : State) (e : Fault), Inv s → step s = .fault e → stateLeft (step s) = some left → Inv left

/-- 10_state.md R40: the configuration never changes during a run, whatever way a step ends. -/
def Obligations.ConfigurationNeverChanges : Prop :=
  ∀ s t : State, stateLeft (step s) = some t → t.cfg = s.cfg

/-- 41_pseudo_descriptor.md R134, 60_exceptions.md R264: no step writes GDTR, IDTR, LDTR, the task register or CPL; and none the
base of the code segment, the model's own field (the hidden base of CS, PRESUMED, log 7), as 30_encoding.md R86 admits no load
of CS. -/
def Obligations.TableRegistersNeverChange : Prop :=
  ∀ s t : State, step s = .next t →
    t.gdtr = s.gdtr ∧ t.idtr = s.idtr ∧ t.ldtr = s.ldtr ∧ t.tr = s.tr ∧ t.csBase = s.csBase ∧ t.cpl = s.cpl

/-- 60_exceptions.md R265, by the privilege rule the spec presumes (log 22): outside privilege level 0 no step changes CR0,
CR3 or CR4. -/
def Obligations.ControlRegistersNeedLevelZero : Prop :=
  ∀ s t : State, s.cpl ≠ 0 → step s = .next t → t.cr0 = s.cr0 ∧ t.cr3 = s.cr3 ∧ t.cr4 = s.cr4

/-! ### Instructions on registers -/

/-- 30_encoding.md R87: MOV r32, imm32 completes in every state, and writes that register alone. -/
def Obligations.MovImmediateResult : Prop :=
  ∀ (r : Reg) (imm : Word32) (s : State), ∃ t, exec (.movRegImm32 r imm) s = .next t ∧
    readReg t r = imm ∧ (∀ r', r' ≠ r → readReg t r' = readReg s r') ∧
    t = { s with gprs := t.gprs }

/-- 30_encoding.md R90: OR EAX, imm32 completes in every state; EAX takes the bitwise or, no other general register changes,
and of the flags register at most the six status flags do, to free values (log 12). -/
def Obligations.OrImmediateResult : Prop :=
  ∀ (imm : Word32) (s : State), ∃ t, exec (.orEaxImm32 imm) s = .next t ∧
    t.gprs = { s.gprs with eax := s.gprs.eax ||| imm } ∧
    t.eflags &&& ~~~statusFlags = s.eflags &&& ~~~statusFlags ∧
    t = { s with gprs := t.gprs, eflags := t.eflags, choices := t.choices }

/-- 42_paging_control.md R151, R153: at privilege level 0, MOV r32, CR0 and CR3 and CR4 complete and copy the control register
whole into that general register alone; the TLB is not touched. (Log 22, log 31.) -/
def Obligations.ReadControlRegisterResult : Prop :=
  ∀ (r : Reg) (s : State), s.cpl = 0 →
    (∃ t, exec (.movRegFromCr0 r) s = .next t ∧ readReg t r = s.cr0 ∧
      (∀ r', r' ≠ r → readReg t r' = readReg s r') ∧ t = { s with gprs := t.gprs }) ∧
    (∃ t, exec (.movRegFromCr3 r) s = .next t ∧ readReg t r = s.cr3 ∧
      (∀ r', r' ≠ r → readReg t r' = readReg s r') ∧ t = { s with gprs := t.gprs }) ∧
    (∃ t, exec (.movRegFromCr4 r) s = .next t ∧ readReg t r = s.cr4 ∧
      (∀ r', r' ≠ r → readReg t r' = readReg s r') ∧ t = { s with gprs := t.gprs })

/-- 42_paging_control.md R150, 20_memory.md R67: at privilege level 0, MOV CR3, r32 completes; CR3 takes all 32 bits; of the TLB
only entries stay that were there, and only global ones while CR4.PGE is 1. The bytes stored to are forgotten (R73, log 19). -/
def Obligations.LoadCr3Result : Prop :=
  ∀ (r : Reg) (s : State), s.cpl = 0 → ∃ t, exec (.movCr3FromReg r) s = .next t ∧
    t.cr3 = readReg s r ∧ t.written = [] ∧
    (∀ e ∈ t.tlb, e ∈ s.tlb ∧ pgeFlag s.cr4 = true ∧ tlbGlobal e = true) ∧
    t = { s with cr3 := t.cr3, tlb := t.tlb, written := [], choices := t.choices }

/-- 42_paging_control.md R153: at privilege level 0, MOV CR0, r32 completes unless PG and PAE would both be 1, which is refused;
CR0 takes all 32 bits, and the TLB keeps a subset, or all of it when PG does not change.
The refusal is log 27, what the TLB keeps log 31. -/
def Obligations.LoadCr0Result : Prop :=
  ∀ (r : Reg) (s : State), s.cpl = 0 →
    (pgFlag (readReg s r) = true → paeFlag s.cr4 = true → exec (.movCr0FromReg r) s = .refused .paeTranslation) ∧
    ((pgFlag (readReg s r) = false ∨ paeFlag s.cr4 = false) →
      ∃ t, exec (.movCr0FromReg r) s = .next t ∧ t.cr0 = readReg s r ∧ t.tlb.Sublist s.tlb ∧
        (pgFlag (readReg s r) = pgFlag s.cr0 → t.tlb = s.tlb) ∧
        t = { s with cr0 := t.cr0, tlb := t.tlb, choices := t.choices })

/-- 42_paging_control.md R153, 10_state.md R28: at privilege level 0, MOV CR4, r32 that sets a flag of an absent feature is
refused, one that would make PAE paging is refused, and every other completes; CR4 takes all 32 bits, and the TLB keeps a
subset, or all of it when no flag changes, or PSE alone on a processor of the Pentium NOTE. (Log 27, log 31.) -/
def Obligations.LoadCr4Result : Prop :=
  ∀ (r : Reg) (s : State), s.cpl = 0 →
    (cr4FeatureMissing s.cfg (readReg s r) = true → exec (.movCr4FromReg r) s = .refused .cr4FeatureAbsent) ∧
    (cr4FeatureMissing s.cfg (readReg s r) = false → pgFlag s.cr0 = true → paeFlag (readReg s r) = true →
      exec (.movCr4FromReg r) s = .refused .paeTranslation) ∧
    (cr4FeatureMissing s.cfg (readReg s r) = false → (pgFlag s.cr0 = false ∨ paeFlag (readReg s r) = false) →
      ∃ t, exec (.movCr4FromReg r) s = .next t ∧ t.cr4 = readReg s r ∧ t.tlb.Sublist s.tlb ∧
        (paeFlag (readReg s r) = paeFlag s.cr4 → pgeFlag (readReg s r) = pgeFlag s.cr4 →
          (pseFlag (readReg s r) = pseFlag s.cr4 ∨ s.cfg.pentiumOnlyPseFlush = true) → t.tlb = s.tlb) ∧
        t = { s with cr4 := t.cr4, tlb := t.tlb, choices := t.choices })

/-- 42_paging_control.md R150 to R154 (log 22): outside privilege level 0, every MOV to or from a control register, and INVLPG,
raise #GP(0) and change nothing. -/
def Obligations.PrivilegedInstructionsFault : Prop :=
  ∀ (r : Reg) (m : Mem) (s : State), s.cpl ≠ 0 →
    ∀ i ∈ [Instr.movCr0FromReg r, .movRegFromCr0 r, .movCr3FromReg r, .movRegFromCr3 r, .movCr4FromReg r,
      .movRegFromCr4 r, .invlpg m], exec i s = .fault (.exception (.generalProtection 0#16) s)

/-- 42_paging_control.md R154: at privilege level 0, INVLPG of an operand that has a linear address completes: the TLB loses every
entry of that address's page, global ones too, keeps every other, and nothing else changes. (Log 22.) -/
def Obligations.InvlpgResult : Prop :=
  ∀ (m : Mem) (la : Word32) (s : State), s.cpl = 0 → OperandAddress s m 1 .none la →
    ∃ t, exec (.invlpg m) s = .next t ∧
      (∀ e, e ∈ t.tlb ↔ e ∈ s.tlb ∧ tlbMatches la e = false) ∧
      t = { s with tlb := t.tlb }

/-- 42_paging_control.md R160 to R162: CPUID completes in every state and at every privilege level, writes EAX, EBX, ECX and EDX
and nothing else, with values that depend on the processor and the source operand alone (held in EAX, log 25); for source
operand 1, bit 17 of EDX is the PSE-36 flag and bit 6 the PAE flag. -/
def Obligations.CpuidResult : Prop :=
  ∀ s : State, ∃ t, exec .cpuid s = .next t ∧ t = { s with gprs := t.gprs } ∧
    t.gprs.esp = s.gprs.esp ∧ t.gprs.ebp = s.gprs.ebp ∧ t.gprs.esi = s.gprs.esi ∧ t.gprs.edi = s.gprs.edi ∧
    (s.gprs.eax = 1#32 →
      (t.gprs.edx.getLsbD 17 = true ↔ s.cfg.hasPse36 = true) ∧
        (t.gprs.edx.getLsbD 6 = true ↔ s.cfg.hasPae = true)) ∧
    ∀ s' t' : State, s'.cfg = s.cfg → s'.gprs.eax = s.gprs.eax → exec .cpuid s' = .next t' →
      t'.gprs.eax = t.gprs.eax ∧ t'.gprs.ebx = t.gprs.ebx ∧ t'.gprs.ecx = t.gprs.ecx ∧
        t'.gprs.edx = t.gprs.edx

/-- 41_pseudo_descriptor.md R130, R133: SLDT and STR with a register destination complete in every state: bits 15:0 take the
selector of LDTR or of TR, bits 31:16 are free (log 24), and no other register changes. -/
def Obligations.StoreSelectorToRegister : Prop :=
  ∀ (r : Reg) (s : State),
    (∃ t, exec (.sldt (.reg r)) s = .next t ∧ (readReg t r).extractLsb' 0 16 = s.ldtr.selector ∧
      (∀ r', r' ≠ r → readReg t r' = readReg s r') ∧ OnlyGprs s t) ∧
    (∃ t, exec (.str (.reg r)) s = .next t ∧ (readReg t r).extractLsb' 0 16 = s.tr.selector ∧
      (∀ r', r' ≠ r → readReg t r' = readReg s r') ∧ OnlyGprs s t)

/-- 40_descriptor_tables.md R107, R108: MOV Sreg with a register source: one of the four null selectors completes, is stored and
makes that segment register alone unusable; another selector is refused. Which selectors are null is log 23. -/
def Obligations.LoadSegmentFromRegister : Prop :=
  ∀ (r : DataSeg) (x : Reg) (s : State),
    ((readReg s x).extractLsb' 0 16 ∈ [0#16, 1#16, 2#16, 3#16] →
      ∃ t, exec (.movSreg r (.reg x)) s = .next t ∧
        (readDataSeg t r).selector = (readReg s x).extractLsb' 0 16 ∧ (readDataSeg t r).usable = false ∧
        (∀ r', r' ≠ r → readDataSeg t r' = readDataSeg s r') ∧
        t = { s with es := t.es, ds := t.ds, fs := t.fs, gs := t.gs }) ∧
    ((readReg s x).extractLsb' 0 16 ∉ [0#16, 1#16, 2#16, 3#16] →
      exec (.movSreg r (.reg x)) s = .refused .nonNullSelectorLoad)

/-- 40_descriptor_tables.md R106: a null selector is loaded into DS, ES, FS or GS without exception, and from then on every use
of the register for an access raises #GP, whatever the offset, the access or the privilege. (Log 7, log 23.) -/
def Obligations.NullSelectorAlwaysFaults : Prop :=
  ∀ (r : DataSeg) (x : Reg) (s : State), isNullSelector ((readReg s x).extractLsb' 0 16) = true →
    ∃ t, exec (.movSreg r (.reg x)) s = .next t ∧
      ∀ (u : State), readDataSeg u r = readDataSeg t r →
        ∀ (off : Word32) (n : Nat) (acc : SegAccess),
          segTranslate (match r with | .es => .es | .ds => .ds | .fs => .fs | .gs => .gs) off n acc u =
            .fault (.exception (.generalProtection 0#16) u)

/-- 40_descriptor_tables.md R110: every instruction with a memory operand in a data segment that holds a null selector raises
#GP(0). R109: one whose operand the instance of `cfg.SegTranslate` denies raises an exception; that it is #GP, with the
instance's value, is the model's choice (DESIGN CHOICE, log 7: R109 says "raises an exception" only). Either changes
nothing: no translation is made and no memory is touched. The flat instance denies nothing and gives the offset
(R109, log 7). -/
def Obligations.NullSegmentOperandsFault : Prop :=
  (∀ (m : Mem) (r : DataSeg) (off : Word32) (s : State), s.ds.usable = false →
    exec (.movEaxMoffs32 off) s = .fault (.exception (.generalProtection 0#16) s) ∧
    exec (.movMoffs32Eax off) s = .fault (.exception (.generalProtection 0#16) s) ∧
    (defaultSeg m = .ds →
      ∀ i ∈ [Instr.sgdt m, .sidt m, .sldt (.mem m), .str (.mem m), .movSreg r (.mem m)],
        exec i s = .fault (.exception (.generalProtection 0#16) s)) ∧
    (defaultSeg m = .ds → s.cpl = 0 →
      exec (.invlpg m) s = .fault (.exception (.generalProtection 0#16) s))) ∧
  (∀ (m : Mem) (r : DataSeg) (off : Word32) (code : Word16) (s : State),
    ∀ p ∈ [(Instr.movEaxMoffs32 off, Seg.ds, off, 4, SegAccess.read), (.movMoffs32Eax off, .ds, off, 4, .write),
      (.sgdt m, defaultSeg m, effectiveAddress s m, 6, .write), (.sidt m, defaultSeg m, effectiveAddress s m, 6, .write),
      (.sldt (.mem m), defaultSeg m, effectiveAddress s m, 2, .write),
      (.str (.mem m), defaultSeg m, effectiveAddress s m, 2, .write),
      (.movSreg r (.mem m), defaultSeg m, effectiveAddress s m, 2, .read),
      (.invlpg m, defaultSeg m, effectiveAddress s m, 1, .none)],
      (p.1 = .invlpg m → s.cpl = 0) → segUsable s p.2.1 = true →
      segOutcome s.cfg p.2.1 p.2.2.1 p.2.2.2.1 p.2.2.2.2 = .protection code →
        exec p.1 s = .fault (.exception (.generalProtection code) s)) ∧
  (∀ (seg : Seg) (off la : Word32) (n : Nat) (acc : SegAccess) (s : State), s.cfg.segRule = .flat →
    (SegmentAddress s seg off n acc la ↔ segUsable s seg = true ∧ la = off))

/-! ### Instructions on memory, paging off -/

/-- 41_pseudo_descriptor.md R121 to R123, R126: with paging off, SGDT and SIDT complete and store the limit, then the base,
little-endian, in six bytes at the operand's linear address; no other byte and no register changes, and the bytes are
remembered as stored to (log 39, log 4). -/
def Obligations.StorePseudoDescriptorResult : Prop :=
  ∀ (m : Mem) (la : Word32) (s : State), OperandAddress s m 6 .write la →
    PlainAccess s la.toNat 2 → PlainAccess s (la.toNat + 2) 4 →
    ∀ i ∈ [Instr.sgdt m, .sidt m], ∃ t, exec i s = .next t ∧
      readBytes t.mem la.toNat 6 =
        (if i = .sgdt m then leBytes 2 s.gdtr.limit ++ leBytes 4 s.gdtr.base
          else leBytes 2 s.idtr.limit ++ leBytes 4 s.idtr.base) ∧
      (∀ a, a < la.toNat ∨ la.toNat + 6 ≤ a → memByte t.mem a = memByte s.mem a) ∧
      (∀ a, a ∈ t.written ↔ (la.toNat ≤ a ∧ a < la.toNat + 6) ∨ a ∈ s.written) ∧
      OnlyMemory s t

/-- 41_pseudo_descriptor.md R130, R133: with paging off, SLDT and STR with a memory destination complete and store the 16-bit
selector of LDTR or of TR in two bytes at the operand's linear address; no other byte and no register changes.
(Log 4, log 24, log 39.) -/
def Obligations.StoreSelectorToMemory : Prop :=
  ∀ (m : Mem) (la : Word32) (s : State), OperandAddress s m 2 .write la → PlainAccess s la.toNat 2 →
    ∀ i ∈ [Instr.sldt (.mem m), .str (.mem m)], ∃ t, exec i s = .next t ∧
      readBytes t.mem la.toNat 2 = leBytes 2 (if i = .sldt (.mem m) then s.ldtr.selector else s.tr.selector) ∧
      (∀ a, a < la.toNat ∨ la.toNat + 2 ≤ a → memByte t.mem a = memByte s.mem a) ∧
      OnlyMemory s t

/-- 30_encoding.md R89: with paging off, MOV moffs32, EAX completes and stores EAX, little-endian, in four bytes at the linear
address of the offset; no other byte and no register changes. (Log 4, log 39.) -/
def Obligations.StoreEaxResult : Prop :=
  ∀ (off la : Word32) (s : State), SegmentAddress s .ds off 4 .write la → PlainAccess s la.toNat 4 →
    ∃ t, exec (.movMoffs32Eax off) s = .next t ∧
      (∀ k, k < 4 → memByte t.mem (la.toNat + k) = s.gprs.eax.extractLsb' (8 * k) 8) ∧
      (∀ a, a < la.toNat ∨ la.toNat + 4 ≤ a → memByte t.mem a = memByte s.mem a) ∧
      OnlyMemory s t

/-- 30_encoding.md R88: with paging off, MOV EAX, moffs32 completes: EAX takes the four bytes at the linear address of the
offset, little-endian; no memory and no other register changes. (Log 4, log 39.) -/
def Obligations.LoadEaxResult : Prop :=
  ∀ (off la : Word32) (s : State), SegmentAddress s .ds off 4 .read la → PlainAccess s la.toNat 4 →
    ∃ t, exec (.movEaxMoffs32 off) s = .next t ∧
      (∀ k, k < 4 → t.gprs.eax.extractLsb' (8 * k) 8 = memByte s.mem (la.toNat + k)) ∧
      t = { s with gprs := { s.gprs with eax := t.gprs.eax } }

/-- 40_descriptor_tables.md R107: with paging off, MOV Sreg with a memory source takes two bytes at the operand's linear address; a
null selector completes and makes that segment register alone unusable, another is refused. (Log 23, log 39.) -/
def Obligations.LoadSegmentFromMemory : Prop :=
  ∀ (r : DataSeg) (m : Mem) (la : Word32) (s : State), OperandAddress s m 2 .read la → PlainAccess s la.toNat 2 →
    (isNullSelector (leWord16 (readBytes s.mem la.toNat 2)) = true →
      ∃ t, exec (.movSreg r (.mem m)) s = .next t ∧
        (readDataSeg t r).selector = leWord16 (readBytes s.mem la.toNat 2) ∧
        (readDataSeg t r).usable = false ∧ (∀ r', r' ≠ r → readDataSeg t r' = readDataSeg s r') ∧
        t = { s with es := t.es, ds := t.ds, fs := t.fs, gs := t.gs }) ∧
    (isNullSelector (leWord16 (readBytes s.mem la.toNat 2)) = false →
      exec (.movSreg r (.mem m)) s = .refused .nonNullSelectorLoad)

/-- With paging off, what MOV moffs32, EAX stores, MOV EAX, moffs32 reads back, whatever EAX held in between, where the segment
gives the load and the store one linear address. (Log 39.) -/
def Obligations.StoredValueIsReadBack : Prop :=
  ∀ (off la v : Word32) (s : State), SegmentAddress s .ds off 4 .write la → SegmentAddress s .ds off 4 .read la →
    PlainAccess s la.toNat 4 →
    ∃ t u, exec (.movMoffs32Eax off) s = .next t ∧
      exec (.movEaxMoffs32 off) (writeReg .eax v t) = .next u ∧ u.gprs = s.gprs

/-- 20_memory.md R52, R53: an instruction's data access whose last byte is past FFFFFFFFh is refused, and so is one to a byte
outside PhysMap when it translates and the alignment check does not fault: both moffs32 forms of MOV, SLDT m, STR m, MOV Sreg m,
and each of the two stores of SGDT and SIDT (41_pseudo_descriptor.md R122, R123), the second after a first that
completes. (Log 2, log 29.) -/
def Obligations.AccessRefusals : Prop :=
  ∀ (m : Mem) (r : DataSeg) (off la : Word32) (s : State),
    (∀ p ∈ [(Instr.movEaxMoffs32 off, SegmentAddress s .ds off 4 .read la, 4, AccessKind.read),
      (.movMoffs32Eax off, SegmentAddress s .ds off 4 .write la, 4, .write),
      (.sldt (.mem m), OperandAddress s m 2 .write la, 2, .write),
      (.str (.mem m), OperandAddress s m 2 .write la, 2, .write),
      (.movSreg r (.mem m), OperandAddress s m 2 .read la, 2, .read),
      (.sgdt m, OperandAddress s m 6 .write la, 2, .write), (.sidt m, OperandAddress s m 6 .write la, 2, .write)],
      p.2.1 →
        (la.toNat + p.2.2.1 > 2 ^ 32 → exec p.1 s = .refused .linearAddressWrap) ∧
        (pgFlag s.cr0 = false → la.toNat + p.2.2.1 ≤ 2 ^ 32 → alignmentFaults la.toNat p.2.2.1 s = false →
          mappedRange s.cfg la.toNat p.2.2.1 = false → exec p.1 s = .refused .noMemoryAtPhysicalAddress) ∧
        (∀ places u, translateRange la.toNat p.2.2.1 p.2.2.2 (currentPriv s) s = .next (places, u) →
          alignmentFaults la.toNat p.2.2.1 s = false → placesMapped s.cfg places = false →
            exec p.1 s = .refused .noMemoryAtPhysicalAddress)) ∧
    (OperandAddress s m 6 .write la →
      ∀ p ∈ [(Instr.sgdt m, s.gdtr.limit), (.sidt m, s.idtr.limit)], ∀ places1 s1,
        TranslatedAccess s la.toNat 2 .write places1 s1 →
          (la.toNat + 6 > 2 ^ 32 → exec p.1 s = .refused .linearAddressWrap) ∧
          (∀ places2 s2, translateRange (la.toNat + 2) 4 .write (currentPriv s)
              (storePlaces places1 (leBytes 2 p.2) s1) = .next (places2, s2) →
            alignmentFaults (la.toNat + 2) 4 s = false → placesMapped s.cfg places2 = false →
              exec p.1 s = .refused .noMemoryAtPhysicalAddress))

/-- 41_pseudo_descriptor.md R124, R125, 60_exceptions.md R256: in user mode with alignment checking on and paging off, SGDT and
SIDT complete where the linear address MOD 4 is 2 and raise the alignment check fault everywhere else, on the second store
where it is 0: the memory left is then the old one or has the limit word written (log 18). -/
def Obligations.PseudoDescriptorAlignment : Prop :=
  ∀ (m : Mem) (la : Word32) (s : State) (a : Nat), OperandAddress s m 6 .write la → a = la.toNat →
    pgFlag s.cr0 = false → a + 6 ≤ 2 ^ 32 → mappedRange s.cfg a 6 = true → alignCheckOn s = true → s.cpl = 3 →
    ∀ i ∈ [Instr.sgdt m, .sidt m],
      (a % 4 = 2 → ∃ t, exec i s = .next t) ∧
      (a % 4 = 1 ∨ a % 4 = 3 → exec i s = .fault (.exception (.alignmentCheck 0#16) s)) ∧
      (a % 4 = 0 → ∃ left, exec i s = .fault (.exception (.alignmentCheck 0#16) left) ∧ SameRegisters s left ∧
        ((∀ b, memByte left.mem b = memByte s.mem b) ∨
          (readBytes left.mem a 2 = leBytes 2 (if i = .sgdt m then s.gdtr.limit else s.idtr.limit) ∧
            ∀ b, b < a ∨ a + 2 ≤ b → memByte left.mem b = memByte s.mem b)))

/-! ### Instructions on memory, paging on or off -/

/-- 20_memory.md R53, 30_encoding.md R89, 41_pseudo_descriptor.md R130, R133: with paging on or off, MOV moffs32, EAX and the memory
forms of SLDT and STR complete exactly when the segment gives a linear address and the access there is a translated one, and
the state is then that of the translation with the value's bytes stored at its places. (Log 30.) -/
def Obligations.StoresCompleteExactly : Prop :=
  ∀ (m : Mem) (off : Word32) (s t : State),
    (exec (.movMoffs32Eax off) s = .next t ↔ ∃ la places u, SegmentAddress s .ds off 4 .write la ∧
      TranslatedAccess s la.toNat 4 .write places u ∧ t = storePlaces places (leBytes 4 s.gprs.eax) u) ∧
    (exec (.sldt (.mem m)) s = .next t ↔ ∃ la places u, OperandAddress s m 2 .write la ∧
      TranslatedAccess s la.toNat 2 .write places u ∧ t = storePlaces places (leBytes 2 s.ldtr.selector) u) ∧
    (exec (.str (.mem m)) s = .next t ↔ ∃ la places u, OperandAddress s m 2 .write la ∧
      TranslatedAccess s la.toNat 2 .write places u ∧ t = storePlaces places (leBytes 2 s.tr.selector) u)

/-- The frame of the same three, paging on or off: registers unchanged; for the linear address the segment gives and whatever
places it translates to, a byte outside them is as the translation left it, and the translation has set at most A and D bits
(43_translation_32bit.md R182). (Log 30.) -/
def Obligations.StoresFrame : Prop :=
  ∀ (m : Mem) (off la : Word32) (s t u : State) (places : List (Nat × Nat)),
    ∀ p ∈ [(Instr.movMoffs32Eax off, SegmentAddress s .ds off 4 .write la, 4),
      (.sldt (.mem m), OperandAddress s m 2 .write la, 2), (.str (.mem m), OperandAddress s m 2 .write la, 2)],
      p.2.1 → exec p.1 s = .next t →
        translateRange la.toNat p.2.2 .write (currentPriv s) s = .next (places, u) →
        SameRegisters s t ∧ (∀ a, ¬ InPlaces places a → memByte t.mem a = memByte u.mem a) ∧
          OnlyBitsSet 0x60#8 s.mem u.mem

/-- 41_pseudo_descriptor.md R122, R123, R126: with paging on or off, SGDT and SIDT complete exactly when the segment gives the
operand a linear address and the word there and then the doubleword two bytes on are translated accesses, the second in the
state the first store leaves; the limit and the base stand at their places, no register changes, and outside those places at
most A and D bits of a byte are set. (Log 39.) -/
def Obligations.PseudoDescriptorFrame : Prop :=
  ∀ (m : Mem) (s t : State), ∀ p ∈ [(Instr.sgdt m, s.gdtr), (.sidt m, s.idtr)],
    (exec p.1 s = .next t ↔ ∃ la places1 s1 places2 s2, OperandAddress s m 6 .write la ∧
      TranslatedAccess s la.toNat 2 .write places1 s1 ∧
      TranslatedAccess (storePlaces places1 (leBytes 2 p.2.limit) s1) (la.toNat + 2) 4 .write places2 s2 ∧
      t = storePlaces places2 (leBytes 4 p.2.base) s2) ∧
    ∀ (la : Word32) places1 s1 places2 s2, TranslatedAccess s la.toNat 2 .write places1 s1 →
      TranslatedAccess (storePlaces places1 (leBytes 2 p.2.limit) s1) (la.toNat + 2) 4 .write places2 s2 →
      t = storePlaces places2 (leBytes 4 p.2.base) s2 →
        SameRegisters s t ∧ ∀ a, ¬ InPlaces places1 a → ¬ InPlaces places2 a →
          memByte t.mem a &&& 0x9F#8 = memByte s.mem a &&& 0x9F#8 ∧
            memByte t.mem a ||| memByte s.mem a = memByte t.mem a

/-- 20_memory.md R53, 30_encoding.md R88, 40_descriptor_tables.md R107: with paging on or off, MOV EAX, moffs32 and MOV Sreg with a
memory source read the bytes at the places their linear address translates to; the loaded register apart, only what the
translation sets changes: registers kept, A bits of memory set at most. (Log 30.) -/
def Obligations.LoadsResult : Prop :=
  ∀ (m : Mem) (r : DataSeg) (off la : Word32) (s u : State) (places : List (Nat × Nat)),
    (SegmentAddress s .ds off 4 .read la → TranslatedAccess s la.toNat 4 .read places u →
      exec (.movEaxMoffs32 off) s = .next (writeReg .eax (leWord32 (placesBytes u.mem places)) u) ∧
        SameRegisters s u ∧ OnlyBitsSet 0x20#8 s.mem u.mem) ∧
    (OperandAddress s m 2 .read la → TranslatedAccess s la.toNat 2 .read places u →
      isNullSelector (leWord16 (placesBytes u.mem places)) = true →
        exec (.movSreg r (.mem m)) s =
          .next (writeDataSeg r { selector := leWord16 (placesBytes u.mem places), usable := false } u) ∧
        SameRegisters s u ∧ OnlyBitsSet 0x20#8 s.mem u.mem)

/-- 60_exceptions.md R256, 20_memory.md R53: an access that translates and meets the condition of the alignment check raises the
alignment check fault, no data byte moved and no register written; outside user mode the condition never holds.
(Log 11, log 33.) -/
def Obligations.MisalignedAccessFaults : Prop :=
  (∀ (m : Mem) (r : DataSeg) (off la : Word32) (s u : State) (places : List (Nat × Nat)),
    ∀ p ∈ [(Instr.movEaxMoffs32 off, SegmentAddress s .ds off 4 .read la, 4, AccessKind.read),
      (.movMoffs32Eax off, SegmentAddress s .ds off 4 .write la, 4, .write),
      (.sldt (.mem m), OperandAddress s m 2 .write la, 2, .write),
      (.str (.mem m), OperandAddress s m 2 .write la, 2, .write),
      (.movSreg r (.mem m), OperandAddress s m 2 .read la, 2, .read),
      (.sgdt m, OperandAddress s m 6 .write la, 2, .write), (.sidt m, OperandAddress s m 6 .write la, 2, .write)],
      p.2.1 → alignmentFaults la.toNat p.2.2.1 s = true →
        translateRange la.toNat p.2.2.1 p.2.2.2 (currentPriv s) s = .next (places, u) →
          exec p.1 s = .fault (.exception (.alignmentCheck 0#16) u)) ∧
  (∀ (addr n : Nat) (s : State), s.cpl ≠ 3 → alignmentFaults addr n s = false)

/-- 20_memory.md R53, 60_exceptions.md R250: a fault of the translation of an access is the instruction's, no register written
and no data moved: the first access of SGDT and SIDT, and the only one of the others. 41_pseudo_descriptor.md R124: an
exception of their second access, of its translation or of the alignment check, is theirs too, no register written, the
limit word stored or not: which, and that the flags and the TLB of the translations may be kept without it, is
`SecondStoreLeaves` (DESIGN CHOICE, log 18). A deadlock of that access is theirs with the state it has (log 41). -/
def Obligations.TranslationFaultEndsInstruction : Prop :=
  (∀ (m : Mem) (r : DataSeg) (off la : Word32) (s : State) (e : Fault),
    ∀ p ∈ [(Instr.movEaxMoffs32 off, SegmentAddress s .ds off 4 .read la, 4, AccessKind.read),
      (.movMoffs32Eax off, SegmentAddress s .ds off 4 .write la, 4, .write),
      (.sldt (.mem m), OperandAddress s m 2 .write la, 2, .write),
      (.str (.mem m), OperandAddress s m 2 .write la, 2, .write),
      (.movSreg r (.mem m), OperandAddress s m 2 .read la, 2, .read),
      (.sgdt m, OperandAddress s m 6 .write la, 2, .write), (.sidt m, OperandAddress s m 6 .write la, 2, .write)],
      p.2.1 → translateRange la.toNat p.2.2.1 p.2.2.2 (currentPriv s) s = .fault e → exec p.1 s = .fault e) ∧
  (∀ (m : Mem) (la : Word32) (s stored : State), OperandAddress s m 6 .write la →
    ∀ p ∈ [(Instr.sgdt m, s.gdtr.limit), (.sidt m, s.idtr.limit)], ∀ places s1,
      TranslatedAccess s la.toNat 2 .write places s1 → stored = storePlaces places (leBytes 2 p.2) s1 →
        (∀ e, translateRange (la.toNat + 2) 4 .write (currentPriv s) stored = .fault e →
          match e with
          | .exception x u => ∃ left, exec p.1 s = .fault (.exception x left) ∧ SecondStoreLeaves s places stored u left
          | .aliasingDeadlock u => exec p.1 s = .fault (.aliasingDeadlock u)) ∧
        (∀ places2 u, translateRange (la.toNat + 2) 4 .write (currentPriv s) stored = .next (places2, u) →
          alignmentFaults (la.toNat + 2) 4 s = true →
            ∃ left, exec p.1 s = .fault (.exception (.alignmentCheck 0#16) left) ∧
              SecondStoreLeaves s places stored u left))

/-! ### Translation -/

/-- 43_translation_32bit.md R170, 42_paging_control.md R145: with paging off the physical address is the linear address, and
nothing is read, written or raised (the identity is the spec's inference, log 39). -/
def Obligations.PagingOffIsIdentity : Prop :=
  ∀ (la : Word32) (acc : AccessKind) (priv : Priv) (s : State), pgFlag s.cr0 = false →
    translate la acc priv s = .next (la.zeroExtend 36, s)

/-- 43_translation_32bit.md R173: with no TLB entry to use, a page-directory entry in memory whose bit 0 is 0 ends the
translation in #PF, whatever its other bits are; nothing is written. -/
def Obligations.NotPresentDirectoryEntryFaults : Prop :=
  ∀ (la : Word32) (acc : AccessKind) (priv : Priv) (s : State), pgFlag s.cr0 = true → paeFlag s.cr4 = false →
    tlbCandidates la acc s.tlb = [] → mappedRange s.cfg (pdeAddress s.cr3 la).toNat 4 = true →
    (entryAt s (pdeAddress s.cr3 la).toNat).getLsbD 0 = false →
      translate la acc priv s = .fault (.exception (.pageFault la acc priv .notPresent) s)

/-- 43_translation_32bit.md R175, R184, R190: a page-table entry that is not present ends the walk in #PF; memory is left as it
was, but that the A flag of the page-directory entry may have been set. Doubled entries, if there are any, agree in A and D
before and after that (R189; where they do not, see DeadlockNeedsDoubledEntry). (Log 16.) -/
def Obligations.NotPresentTableEntryFaults : Prop :=
  ∀ (la : Word32) (acc : AccessKind) (priv : Priv) (s : State) (pde pte : Word32),
    ReadsPageTable s la pde pte → pFlag pte = false → DoublesAgreeIn s la [s.mem, withPdeAccessed s la pde s.mem] →
      ∃ left, walk la acc priv s = .fault (.exception (.pageFault la acc priv .notPresent) left) ∧
        SameRegisters s left ∧ left.tlb = s.tlb ∧
        (left.mem = s.mem ∨ left.mem = writeBytes s.mem (pdeAddress s.cr3 la).toNat (leBytes 4 (setA pde)))

/-- 43_translation_32bit.md R172, R175, R177, R180 to R182, R190: a permitted walk through present entries to a 4-KByte page,
doubled entries, if there are any, agreeing in A and D at every moment of it (R189), answers page base and offset, and leaves
the page-table entry with A set, and D for a write, the page-directory entry with A set, and no other byte of memory and no
register changed. 20_memory.md R62: to the TLB it adds nothing, or the entry for bits 31:12 of the address with copies of
the two entries as they stand after those updates.
(The permission is log 10's, the order of the tests log 16's, the fill log 15's.) -/
def Obligations.SmallPageWalk : Prop :=
  ∀ (la : Word32) (acc : AccessKind) (priv : Priv) (s : State) (pde pte : Word32),
    ReadsPageTable s la pde pte → ChecksPageTable s acc priv pde pte true →
    DoublesAgreeIn s la (walkMoments acc s la pde pte) →
      ∃ t, walk la acc priv s = .next (smallPageAddress pte la, t) ∧ SameRegisters s t ∧ t.written = s.written ∧
        (t.tlb = s.tlb ∨
          t.tlb = insertNew (.page4K (la.extractLsb' 12 20) (setA pde) (setDOnWrite acc (setA pte))) s.tlb) ∧
        entryAt t (pteAddress pde la).toNat = setDOnWrite acc (setA pte) ∧
        (pteAddress pde la ≠ pdeAddress s.cr3 la → entryAt t (pdeAddress s.cr3 la).toNat = setA pde) ∧
        ∀ a, (a < (pdeAddress s.cr3 la).toNat ∨ (pdeAddress s.cr3 la).toNat + 4 ≤ a) →
          (a < (pteAddress pde la).toNat ∨ (pteAddress pde la).toNat + 4 ≤ a) →
          memByte t.mem a = memByte s.mem a

/-- 43_translation_32bit.md R174, R176, R178, R180 to R182, R190: a permitted walk to a 4-MByte page reads the page-directory entry
alone, answers page base and offset, and leaves that entry with A set, and D for a write, and no other byte of memory and no
register changed. 20_memory.md R62: to the TLB it adds nothing, or the entry for bits 31:22 of the address with a copy of
the page-directory entry as it stands after those updates. (Log 10, log 15, log 16.) -/
def Obligations.LargePageWalk : Prop :=
  ∀ (la : Word32) (acc : AccessKind) (priv : Priv) (s : State) (pde : Word32),
    pde = entryAt s (pdeAddress s.cr3 la).toNat →
    mappedRange s.cfg (pdeAddress s.cr3 la).toNat 4 = true → pFlag pde = true → mapsLargePage s pde = true →
    reservedOk s.cfg .pde4M pde = true →
    pagePermits s.cfg priv acc (wpFlag s.cr0) (usFlag pde) (rwFlag pde) none = true →
      ∃ t, walk la acc priv s = .next (largePageAddress pde la, t) ∧ SameRegisters s t ∧ t.written = s.written ∧
        (t.tlb = s.tlb ∨ t.tlb = insertNew (.page4M (la.extractLsb' 22 10) (setDOnWrite acc (setA pde))) s.tlb) ∧
        entryAt t (pdeAddress s.cr3 la).toNat = setDOnWrite acc (setA pde) ∧
        ∀ a, (a < (pdeAddress s.cr3 la).toNat ∨ (pdeAddress s.cr3 la).toNat + 4 ≤ a) →
          memByte t.mem a = memByte s.mem a

/-- 44_paging_entries.md R205, 43_translation_32bit.md R184, R190, 20_memory.md R63: an access the protection check denies ends in
#PF, no register, no D flag and no TLB entry changed: in a walk to a 4-MByte page at most the A flag of the entry has been
set; in a walk to a 4-KByte page, where doubled entries, if there are any, agree in A and D whichever of the flags is set
(R189), the A flags of both entries have each been set or not; through TLB entries no memory is written, where no walk is made. The last clause says what the default instance of
`cfg.PagePermits` permits. (Log 10, log 15, log 16.) -/
def Obligations.DeniedLargePageFaults : Prop :=
  (∀ (la : Word32) (acc : AccessKind) (priv : Priv) (s : State) (pde : Word32),
    pde = entryAt s (pdeAddress s.cr3 la).toNat →
    mappedRange s.cfg (pdeAddress s.cr3 la).toNat 4 = true → pFlag pde = true → mapsLargePage s pde = true →
    reservedOk s.cfg .pde4M pde = true →
    pagePermits s.cfg priv acc (wpFlag s.cr0) (usFlag pde) (rwFlag pde) none = false →
      ∃ left, walk la acc priv s = .fault (.exception (.pageFault la acc priv .protection) left) ∧
        SameRegisters s left ∧ left.tlb = s.tlb ∧
        (left.mem = s.mem ∨ left.mem = writeBytes s.mem (pdeAddress s.cr3 la).toNat (leBytes 4 (setA pde)))) ∧
  (∀ (la : Word32) (acc : AccessKind) (priv : Priv) (s : State) (pde pte : Word32),
    ReadsPageTable s la pde pte → ChecksPageTable s acc priv pde pte false →
    DoublesAgreeIn s la (faultMoments s la pde pte) →
      ∃ left, walk la acc priv s = .fault (.exception (.pageFault la acc priv .protection) left) ∧
        SameRegisters s left ∧ left.tlb = s.tlb ∧
        ∃ m, (m = s.mem ∨ m = writeBytes s.mem (pdeAddress s.cr3 la).toNat (leBytes 4 (setA pde))) ∧
          (left.mem = m ∨ left.mem = writeBytes m (pteAddress pde la).toNat (leBytes 4 (setA pte)))) ∧
  (∀ (la : Word32) (acc : AccessKind) (priv : Priv) (s : State) (pde pte : Word32),
    (pagePermits s.cfg priv acc (wpFlag s.cr0) (usFlag pde) (rwFlag pde) (some (usFlag pte, rwFlag pte)) = false →
      ∀ vpn, translateByTlb (.page4K vpn pde pte) la acc priv s =
        .fault (.exception (.pageFault la acc priv .protection) s)) ∧
    (pagePermits s.cfg priv acc (wpFlag s.cr0) (usFlag pde) (rwFlag pde) none = false →
      ∀ vpn, translateByTlb (.page4M vpn pde) la acc priv s =
        .fault (.exception (.pageFault la acc priv .protection) s))) ∧
  (∀ (la : Word32) (acc : AccessKind) (priv : Priv) (s : State), pgFlag s.cr0 = true → paeFlag s.cr4 = false →
    (∀ e ∈ s.tlb, tlbMatches la e = true → tlbPermits s.cfg priv acc (wpFlag s.cr0) e = false) →
      ∃ n, translate la acc priv s = walk la acc priv (useChoices n s) ∨
        translate la acc priv s = .fault (.exception (.pageFault la acc priv .protection) (useChoices n s))) ∧
  (∀ (c : Config) (acc : AccessKind) (wp usPde rwPde usPte rwPte : Bool), c.permitRule = .standard →
    (pagePermits c .user acc wp usPde rwPde none = true ↔ usPde = true ∧ (acc = .write → rwPde = true)) ∧
    (pagePermits c .supervisor acc wp usPde rwPde none = true ↔ (acc = .write → wp = true → rwPde = true)) ∧
    (pagePermits c .user acc wp usPde rwPde (some (usPte, rwPte)) = true ↔
      usPde = true ∧ usPte = true ∧ (acc = .write → rwPde = true ∧ rwPte = true)) ∧
    (pagePermits c .supervisor acc wp usPde rwPde (some (usPte, rwPte)) = true ↔
      (acc = .write → wp = true → rwPde = true ∧ rwPte = true)))

/-- 43_translation_32bit.md R172, R174, R175, R177 to R179: what a completed walk answers: with PSE = 1 and PS = 1 in the
page-directory entry the address in a 4-MByte page, otherwise, with PSE = 0 whatever bit 7 is, the address in a 4-KByte page
of the page table the entry points to. The address of the page-table entry (R175) is the spec's own inference. -/
def Obligations.PageSizeSelection : Prop :=
  ∀ (la : Word32) (acc : AccessKind) (priv : Priv) (s t : State) (pa : PhysAddr) (pde : Word32),
    walk la acc priv s = .next (pa, t) → pde = entryAt s (pdeAddress s.cr3 la).toNat →
    (pseFlag s.cr4 = true → pde.getLsbD 7 = true →
      pa = (pde.extractLsb' 22 10 ++ la.extractLsb' 0 22).zeroExtend 36) ∧
    (pseFlag s.cr4 = false ∨ pde.getLsbD 7 = false →
      pa = ((entryAt s (pde.extractLsb' 12 20 ++ la.extractLsb' 12 10 ++ 0#2).toNat).extractLsb' 12 20 ++
        la.extractLsb' 0 12).zeroExtend 36)

/-- 43_translation_32bit.md R180 to R182, R190: whatever walk completes without fault leaves A = 1 in the page-directory entry it used
and, for a 4-KByte page, in the page-table entry; a walk for a write leaves D = 1 in the final entry; an entry whose flags are
set already is as it was; no bit of memory is cleared, reads and fetches set no D, and bit 6 of a page-directory entry that
points to a page table is not written unless the entry is its own page table. -/
def Obligations.AccessedAndDirtyFlags : Prop :=
  ∀ (la : Word32) (acc : AccessKind) (priv : Priv) (s t : State) (pa : PhysAddr) (pde pte : Word32),
    walk la acc priv s = .next (pa, t) → pde = entryAt s (pdeAddress s.cr3 la).toNat →
    pte = entryAt s (pteAddress pde la).toNat →
    aFlag (entryAt t (pdeAddress s.cr3 la).toNat) = true ∧
    (mapsLargePage s pde = true →
      (acc = .write → dFlag (entryAt t (pdeAddress s.cr3 la).toNat) = true) ∧
      (aFlag pde = true → (acc = .write → dFlag pde = true) → t.mem = s.mem)) ∧
    (mapsLargePage s pde = false → aFlag (entryAt t (pteAddress pde la).toNat) = true ∧
      (acc = .write → dFlag (entryAt t (pteAddress pde la).toNat) = true) ∧
      (pteAddress pde la ≠ pdeAddress s.cr3 la →
        dFlag (entryAt t (pdeAddress s.cr3 la).toNat) = dFlag pde ∧
        (aFlag pde = true → entryAt t (pdeAddress s.cr3 la).toNat = pde)) ∧
      (aFlag pte = true → (acc = .write → dFlag pte = true) → entryAt t (pteAddress pde la).toNat = pte) ∧
      (aFlag pde = true → aFlag pte = true → (acc = .write → dFlag pte = true) → t.mem = s.mem)) ∧
    (∀ a, memByte t.mem a ||| memByte s.mem a = memByte t.mem a) ∧
    (acc ≠ .write → ∀ a, memByte t.mem a &&& 0xDF#8 = memByte s.mem a &&& 0xDF#8)

/-- 60_exceptions.md R253: the only exception translation raises is the page fault of its own address, access and privilege,
never with the cause of a reserved bit (44_paging_entries.md R226); the only other fault is the deadlock. (Log 26.) -/
def Obligations.TranslationRaisesPageFaultsOnly : Prop :=
  ∀ (la : Word32) (acc : AccessKind) (priv : Priv) (s : State) (e : Fault),
    translate la acc priv s = .fault e →
      (∃ left, e = .exception (.pageFault la acc priv .notPresent) left) ∨
      (∃ left, e = .exception (.pageFault la acc priv .protection) left) ∨
      (∃ left, e = .aliasingDeadlock left)

/-- 42_paging_control.md R143, 10_state.md R40, 43_translation_32bit.md R189: two states that agree on configuration, CR0, CR3, CR4,
TLB and the free values used so far (the model's counter, log 14), and in memory on the page directory and on the page-table
entry used, translate alike: the same answer, exception, deadlock or refusal, the same TLB after it, and every byte in which
they agreed before agrees after, whatever their other registers and the rest of their memory hold. The whole directory, for
the doubled entries of R189 (log 17). The third clause speaks of the TLB and memory that the aliasing deadlock leaves: R189 gives
that outcome no state, and the one it has is the model's choice (log 41). -/
def Obligations.TranslationInputs : Prop :=
  ∀ (la : Word32) (acc : AccessKind) (priv : Priv) (s s' : State) (pde : Word32), s'.cfg = s.cfg → s'.cr0 = s.cr0 →
    s'.cr3 = s.cr3 → s'.cr4 = s.cr4 → s'.tlb = s.tlb → s'.choices = s.choices →
    pde = entryAt s (pdeAddress s.cr3 la).toNat →
    (∀ k, k < 4096 → memByte s'.mem ((pageDirectoryBase s.cr3).toNat + k) =
      memByte s.mem ((pageDirectoryBase s.cr3).toNat + k)) →
    (pFlag pde = true → mapsLargePage s pde = false →
      entryAt s' (pteAddress pde la).toNat = entryAt s (pteAddress pde la).toNat) →
    (∀ pa t, translate la acc priv s = .next (pa, t) →
      ∃ t', translate la acc priv s' = .next (pa, t') ∧ t'.tlb = t.tlb ∧ t'.choices = t.choices ∧
        ∀ a, memByte s'.mem a = memByte s.mem a → memByte t'.mem a = memByte t.mem a) ∧
    (∀ x t, translate la acc priv s = .fault (.exception x t) →
      ∃ t', translate la acc priv s' = .fault (.exception x t') ∧ t'.tlb = t.tlb ∧
        ∀ a, memByte s'.mem a = memByte s.mem a → memByte t'.mem a = memByte t.mem a) ∧
    (∀ t, translate la acc priv s = .fault (.aliasingDeadlock t) →
      ∃ t', translate la acc priv s' = .fault (.aliasingDeadlock t') ∧ t'.tlb = t.tlb ∧
        ∀ a, memByte s'.mem a = memByte s.mem a → memByte t'.mem a = memByte t.mem a) ∧
    (∀ why, translate la acc priv s = .refused why → translate la acc priv s' = .refused why)

/-- 43_translation_32bit.md R188, R189: the deadlock needs doubled entries that differ in A or D at a moment of the walk. Where no
other present entry of the directory has the page-table base of the entry used, or where every one that has agrees with it
before the walk's updates, between them and after them, translation never ends in it; entries that are no doubles agree. Where
doubled entries differ at a moment of a walk that completes, or of one that faults, of the moments that `n` A flags it may have
set give it, both the deadlock and the normal outcome are admitted, a free value choosing (log 14, log 16, log 17); the state
of the deadlock is the model's choice (log 41). -/
def Obligations.DeadlockNeedsDoubledEntry : Prop :=
  (∀ (la : Word32) (acc : AccessKind) (priv : Priv) (s left : State), NoDoubledEntry s (directoryIndex la).toNat →
    translate la acc priv s ≠ .fault (.aliasingDeadlock left)) ∧
  (∀ (la : Word32) (acc : AccessKind) (priv : Priv) (s left : State) (pde pte : Word32),
    pde = entryAt s (pdeAddress s.cr3 la).toNat → pte = entryAt s (pteAddress pde la).toNat →
    (DoublesAgreeIn s la (walkMoments acc s la pde pte ++ faultMoments s la pde pte) →
      translate la acc priv s ≠ .fault (.aliasingDeadlock left)) ∧
    (NoDoubledEntry s (directoryIndex la).toNat →
      DoublesAgreeIn s la (walkMoments acc s la pde pte ++ faultMoments s la pde pte))) ∧
  (∀ (la : Word32) (acc : AccessKind) (priv : Priv) (s : State) (pde pte : Word32),
    ReadsPageTable s la pde pte → ChecksPageTable s acc priv pde pte true →
    ¬ DoublesAgreeIn s la (walkMoments acc s la pde pte) →
      ∃ left t, walk la acc priv s =
          (if Config.freeBool s.choices then .fault (.aliasingDeadlock left) else .next (smallPageAddress pte la, t)) ∧
        SameRegisters s left ∧ SameRegisters s t ∧ (t.tlb = s.tlb ∨
          t.tlb = insertNew (.page4K (la.extractLsb' 12 20) (setA pde) (setDOnWrite acc (setA pte))) s.tlb)) ∧
  (∀ (la : Word32) (acc : AccessKind) (priv : Priv) (s : State) (pde pte : Word32) (cause : PageFaultCause) (n : Nat),
    ReadsPageTable s la pde pte → ¬ DoublesAgreeIn s la ((faultPath s la pde pte).take (n + 1)) →
    ((pFlag pte = false ∧ cause = .notPresent ∧ n = 1) ∨
      (ChecksPageTable s acc priv pde pte false ∧ cause = .protection ∧ n = 2)) →
      ∃ left left', walk la acc priv s =
          (if Config.freeBool (s.choices + n) then .fault (.aliasingDeadlock left)
            else .fault (.exception (.pageFault la acc priv cause) left')) ∧
        SameRegisters s left ∧ SameRegisters s left')

/-- 20_memory.md R63 to R65, R67, R68, 42_paging_control.md R154: what a translation with paging on may answer: that of a walk, or
that of one entry of the TLB for its page, for a write one whose copy has D = 1: where the copies permit the access the
address computed from them, else #PF, with nothing changed but the count of free values. With one such entry a free value
chooses. After INVLPG of the address, and, without global pages, after a load of CR3, it is that of a walk: no old copy is
used. (Log 14, log 15.) -/
def Obligations.InvalidatedPageIsWalked : Prop :=
  (∀ (la : Word32) (acc : AccessKind) (priv : Priv) (s : State), pgFlag s.cr0 = true → paeFlag s.cr4 = false →
    ∃ n, translate la acc priv s = walk la acc priv (useChoices n s) ∨
      (∃ pde pte, .page4K (la.extractLsb' 12 20) pde pte ∈ s.tlb ∧ (acc = .write → dFlag pte = true) ∧
        translate la acc priv s =
          if pagePermits s.cfg priv acc (wpFlag s.cr0) (usFlag pde) (rwFlag pde) (some (usFlag pte, rwFlag pte)) then
            .next ((pte.extractLsb' 12 20 ++ la.extractLsb' 0 12).zeroExtend 36, useChoices n s)
          else .fault (.exception (.pageFault la acc priv .protection) (useChoices n s))) ∨
      (∃ pde, .page4M (la.extractLsb' 22 10) pde ∈ s.tlb ∧ (acc = .write → dFlag pde = true) ∧
        translate la acc priv s =
          if pagePermits s.cfg priv acc (wpFlag s.cr0) (usFlag pde) (rwFlag pde) none then
            .next ((pde.extractLsb' 22 10 ++ la.extractLsb' 0 22).zeroExtend 36, useChoices n s)
          else .fault (.exception (.pageFault la acc priv .protection) (useChoices n s)))) ∧
  (∀ (la : Word32) (acc : AccessKind) (priv : Priv) (s : State) (e : TlbEntry), pgFlag s.cr0 = true →
    paeFlag s.cr4 = false → tlbCandidates la acc s.tlb = [e] →
    translate la acc priv s =
      if Config.freeBool s.choices then translateByTlb e la acc priv (useChoices 1 s)
      else walk la acc priv (useChoices 1 s)) ∧
  (∀ (la : Word32) (acc : AccessKind) (priv : Priv) (s t : State), pgFlag s.cr0 = true → paeFlag s.cr4 = false →
    ((∃ m, OperandAddress s m 1 .none la ∧ exec (.invlpg m) s = .next t) ∨
      (pgeFlag s.cr4 = false ∧ ∃ r, exec (.movCr3FromReg r) s = .next t)) →
    translate la acc priv t = walk la acc priv t)

/-- 44_paging_entries.md R220 to R228: which present entries pass the reserved-bit test, as masks of the bits that must be 0.
The policy is the default one (log 26). -/
def Obligations.ReservedBitMasks : Prop :=
  ∀ (c : Config) (e : Word32), c.ignoreShouldBeZero = false →
    (reservedOk c .pdePT e = true ↔ e &&& (if c.hasPge then 0x040#32 else 0x140#32) = 0#32) ∧
    (reservedOk c .pte4K e = true ↔
      e &&& ((if c.hasPat then 0#32 else 0x080#32) ||| (if c.hasPge then 0#32 else 0x100#32)) = 0#32) ∧
    (reservedOk c .pde4M e = true ↔
      e &&& (0x003FE000#32 ||| (if c.hasPat then 0#32 else 0x1000#32) ||| (if c.hasPge then 0#32 else 0x100#32)) =
        0#32)

/-- 44_paging_entries.md R226, 43_translation_32bit.md R190, 45_pae_intro.md R245: a walk that meets a present entry with a reserved
bit set, in the page directory or in the page table, is refused (PAE paging being refused before), and every translation
with PG = 1 and PAE = 1 is refused. 20_memory.md R52: a walk whose page-directory entry, or then whose page-table entry, lies
outside PhysMap is refused for want of memory. (Log 2, log 26, log 27.) -/
def Obligations.ReservedBitsAndPaeRefused : Prop :=
  ∀ (la : Word32) (acc : AccessKind) (priv : Priv) (s : State),
    (pgFlag s.cr0 = true → paeFlag s.cr4 = true → translate la acc priv s = .refused .paeTranslation) ∧
    (∀ pde, pde = entryAt s (pdeAddress s.cr3 la).toNat → paeFlag s.cr4 = false →
      mappedRange s.cfg (pdeAddress s.cr3 la).toNat 4 = true → pFlag pde = true →
      (reservedOk s.cfg (if mapsLargePage s pde then .pde4M else .pdePT) pde = false →
        walk la acc priv s = .refused .reservedBitInPagingEntry) ∧
      (mapsLargePage s pde = false → reservedOk s.cfg .pdePT pde = true →
        mappedRange s.cfg (pteAddress pde la).toNat 4 = true → pFlag (entryAt s (pteAddress pde la).toNat) = true →
        reservedOk s.cfg .pte4K (entryAt s (pteAddress pde la).toNat) = false →
          walk la acc priv s = .refused .reservedBitInPagingEntry)) ∧
    (mappedRange s.cfg (pdeAddress s.cr3 la).toNat 4 = false → walk la acc priv s = .refused .noMemoryAtPhysicalAddress) ∧
    (∀ pde, pde = entryAt s (pdeAddress s.cr3 la).toNat → mappedRange s.cfg (pdeAddress s.cr3 la).toNat 4 = true →
      pFlag pde = true → mapsLargePage s pde = false → reservedOk s.cfg .pdePT pde = true →
      mappedRange s.cfg (pteAddress pde la).toNat 4 = false →
        walk la acc priv s = .refused .noMemoryAtPhysicalAddress)

/-- 42_paging_control.md R155: the seven rows of Table 3-3. -/
def Obligations.PagingModeTable : Prop :=
  ∀ x y z w : Bool,
    pageMode false x y z w = .disabled ∧
    pageMode true false false x y = .pages4K .bits32 ∧
    pageMode true false true false x = .pages4K .bits32 ∧
    pageMode true false true true false = .pages4M .bits32 ∧
    pageMode true false true true true = .pages4M .bits36 ∧
    pageMode true true x false y = .pages4K .bits36 ∧
    pageMode true true x true y = .pages2M .bits36

/-! ### Descriptor tables -/

/-- 40_descriptor_tables.md R100 to R104: a limit of 0 leaves one valid byte; a descriptor is inside the table exactly when its
eight bytes are valid; with limit 8N - 1 exactly the descriptors 0 to N - 1 are inside. -/
def Obligations.DescriptorTableLimits : Prop :=
  (∀ (t : TableReg) (a : Nat), t.limit = 0#16 → (isValidByte t a = true ↔ a = t.base.toNat)) ∧
  (∀ (t : TableReg) (n : Nat), descriptorInside t.limit.toNat n = true ↔
    ∀ k, k < 8 → isValidByte t (descriptorAddress t.base n + k) = true) ∧
  (∀ (t : TableReg) (count n : Nat), t.limit.toNat + 1 = 8 * count →
    (descriptorInside t.limit.toNat n = true ↔ n < count))

/-- 40_descriptor_tables.md R101, R104, R105, R114: the processor's read of a descriptor raises #GP with the selector beyond the
limit, refuses a GDT past the end of the linear address space, and looks in the LDT through the base and limit LDTR caches,
whatever the GDT holds and wherever the LDT ends. (Log 23, log 29, log 34, log 40.) -/
def Obligations.DescriptorReadOutcomes : Prop :=
  ∀ (sel : Word16) (s : State), isNullSelector sel = false →
    (selectorInLdt sel = false → tableWraps s.gdtr = true → readDescriptor sel s = .refused .gdtWraps) ∧
    (selectorInLdt sel = false → tableWraps s.gdtr = false → 8 * selectorIndex sel + 7 > s.gdtr.limit.toNat →
      readDescriptor sel s = .fault (.exception (.generalProtection sel) s)) ∧
    (selectorInLdt sel = true → 8 * selectorIndex sel + 7 > s.ldtr.limit.toNat →
      readDescriptor sel s = .fault (.exception (.generalProtection sel) s)) ∧
    (selectorInLdt sel = true → 8 * selectorIndex sel + 7 ≤ s.ldtr.limit.toNat → pgFlag s.cr0 = false →
      s.ldtr.base.toNat + 8 * selectorIndex sel + 8 ≤ 2 ^ 32 →
      mappedRange s.cfg (s.ldtr.base.toNat + 8 * selectorIndex sel) 8 = true →
        readDescriptor sel s =
          .next (leWord64 (readBytes s.mem (s.ldtr.base.toNat + 8 * selectorIndex sel) 8), s))
end

