-- ==== Sys2Proof/Laws/Memory.lean ====
section
/-! SUPPORT. Memory as bytes: read after write, the canonical form kept, little-endian assembly (spec/20_memory.md R50 to
R52). -/

namespace Sys2Proof.Machine

/-! ### One byte -/

theorem memByte_insertCell_same (m : Memory) (a : Nat) (b : Byte) (h : ∀ c ∈ m, c.1 ≠ a) :
    memByte (insertCell a b m) a = b := by
  induction m with
  | nil => simp [insertCell, memByte]
  | cons c m ih =>
    unfold insertCell
    split
    · simp [memByte]
    · simp only [memByte, h c (by simp), if_false]
      exact ih fun d hd => h d (by simp [hd])

theorem memByte_insertCell_other (m : Memory) (a a' : Nat) (b : Byte) (h : a' ≠ a) :
    memByte (insertCell a b m) a' = memByte m a' := by
  induction m with
  | nil => simp [insertCell, memByte, h.symm]
  | cons c m ih =>
    unfold insertCell
    split
    · simp [memByte, h.symm]
    · simp only [memByte, ih]

theorem memByte_filter_other (m : Memory) (a a' : Nat) (h : a' ≠ a) :
    memByte (m.filter fun c => c.1 != a) a' = memByte m a' := by
  induction m with
  | nil => rfl
  | cons c m ih =>
    by_cases hc : c.1 = a
    · rw [List.filter_cons_of_neg (by simp [hc])]
      simp [memByte, ih, hc, h.symm]
    · rw [List.filter_cons_of_pos (by simp [hc])]
      simp [memByte, ih]

theorem memByte_of_not_listed (m : Memory) (a : Nat) (h : ∀ c ∈ m, c.1 ≠ a) :
    memByte m a = blankByte := by
  induction m with
  | nil => rfl
  | cons c m ih =>
    simp only [memByte, h c (by simp), if_false]
    exact ih fun d hd => h d (by simp [hd])

theorem not_listed_filter (m : Memory) (a : Nat) : ∀ c ∈ m.filter fun c => c.1 != a, c.1 ≠ a := by
  intro c hc
  simpa using (List.mem_filter.mp hc).2

/-- A read after a write to the same address gives the byte written. -/
@[simp] theorem memByte_setByte_same (m : Memory) (a : Nat) (b : Byte) :
    memByte (setByte m a b) a = b := by
  unfold setByte
  simp only
  split
  · rename_i h
    rw [memByte_of_not_listed _ _ (not_listed_filter m a), h]
  · exact memByte_insertCell_same _ _ _ (not_listed_filter m a)

/-- A write leaves every other address alone. -/
theorem memByte_setByte_other (m : Memory) (a a' : Nat) (b : Byte) (h : a' ≠ a) :
    memByte (setByte m a b) a' = memByte m a' := by
  unfold setByte
  simp only
  split
  · exact memByte_filter_other m a a' h
  · rw [memByte_insertCell_other _ _ _ _ h, memByte_filter_other m a a' h]

theorem memByte_setByte (m : Memory) (a a' : Nat) (b : Byte) :
    memByte (setByte m a b) a' = if a' = a then b else memByte m a' := by
  split
  · rename_i h; subst h; simp
  · rename_i h; exact memByte_setByte_other m a a' b h

/-! ### Byte strings -/

/-- What is read after a write of bytes: the bytes written inside their range, the old byte elsewhere. -/
theorem memByte_writeBytes (bs : List Byte) (m : Memory) (a a' : Nat) :
    memByte (writeBytes m a bs) a' =
      if a ≤ a' ∧ a' < a + bs.length then bs.getD (a' - a) 0 else memByte m a' := by
  induction bs generalizing m a with
  | nil =>
    rw [if_neg (by simp only [List.length_nil]; omega)]
    rfl
  | cons b bs ih =>
    simp only [writeBytes, ih, memByte_setByte, List.length_cons]
    by_cases h0 : a' = a
    · subst h0
      simp
    · by_cases h1 : a + 1 ≤ a' ∧ a' < a + 1 + bs.length
      · have h2 : a ≤ a' ∧ a' < a + (bs.length + 1) := by omega
        have h3 : a' - a = (a' - (a + 1)) + 1 := by omega
        simp [h1, h2, h3]
      · have h2 : ¬ (a ≤ a' ∧ a' < a + (bs.length + 1)) := by omega
        rw [if_neg h1, if_neg h0, if_neg h2]

/-- A write of bytes leaves every byte outside its range alone. -/
theorem memByte_writeBytes_other (bs : List Byte) (m : Memory) (a a' : Nat)
    (h : a' < a ∨ a + bs.length ≤ a') : memByte (writeBytes m a bs) a' = memByte m a' := by
  rw [memByte_writeBytes, if_neg (by omega)]

@[simp] theorem length_readBytes (m : Memory) (a n : Nat) : (readBytes m a n).length = n := by
  induction n generalizing a with
  | zero => rfl
  | succ n ih => simp [readBytes, ih]

theorem getD_readBytes (m : Memory) (a n k : Nat) (h : k < n) :
    (readBytes m a n).getD k 0 = memByte m (a + k) := by
  induction n generalizing a k with
  | zero => omega
  | succ n ih =>
    cases k with
    | zero => simp [readBytes]
    | succ k =>
      have := ih (a + 1) k (by omega)
      simp only [readBytes, List.getD_cons_succ, this]
      congr 1
      omega

theorem readBytes_congr (m m' : Memory) (a n : Nat)
    (h : ∀ k, k < n → memByte m' (a + k) = memByte m (a + k)) : readBytes m' a n = readBytes m a n := by
  induction n generalizing a with
  | zero => rfl
  | succ n ih =>
    simp only [readBytes]
    rw [show memByte m' a = memByte m a from by simpa using h 0 (by omega)]
    rw [ih (a + 1) fun k hk => by
      have := h (k + 1) (by omega)
      rwa [show a + (k + 1) = a + 1 + k from by omega] at this]

/-- Bytes read back are the bytes written. -/
@[simp] theorem readBytes_writeBytes_same (m : Memory) (a : Nat) (bs : List Byte) :
    readBytes (writeBytes m a bs) a bs.length = bs := by
  apply List.ext_getElem (by simp)
  intro k h1 h2
  have h := getD_readBytes (writeBytes m a bs) a bs.length k h2
  rw [memByte_writeBytes, if_pos (by omega)] at h
  simpa [List.getD_eq_getElem?_getD, h2] using h

/-! ### The canonical form -/

theorem mem_insertCell {m : Memory} {a : Nat} {b : Byte} {c : Host.Cell} :
    c ∈ insertCell a b m ↔ c = (a, b) ∨ c ∈ m := by
  induction m with
  | nil => simp [insertCell]
  | cons d m ih =>
    unfold insertCell
    split
    · simp
    · simp [ih, or_left_comm]

theorem insertCell_sorted (m : Memory) (a : Nat) (b : Byte) (hm : m.Pairwise fun c d => c.1 < d.1)
    (ha : ∀ c ∈ m, c.1 ≠ a) : (insertCell a b m).Pairwise fun c d => c.1 < d.1 := by
  induction m with
  | nil => simp [insertCell]
  | cons d m ih =>
    rw [List.pairwise_cons] at hm
    unfold insertCell
    split
    · rename_i h
      rw [List.pairwise_cons, List.pairwise_cons]
      refine ⟨fun c hc => ?_, hm⟩
      rcases List.mem_cons.mp hc with rfl | hc
      · exact h
      · exact lt_trans h (hm.1 c hc)
    · rename_i h
      rw [List.pairwise_cons]
      refine ⟨fun c hc => ?_, ih hm.2 fun c hc => ha c (by simp [hc])⟩
      rcases mem_insertCell.mp hc with rfl | hc
      · have := ha d (by simp)
        simp only
        omega
      · exact hm.1 c hc

/-- Writing a byte keeps the canonical form. -/
theorem setByte_wf (m : Memory) (a : Nat) (b : Byte) (h : Memory.wf m) : Memory.wf (setByte m a b) := by
  have hf : Memory.wf (m.filter fun c => c.1 != a) :=
    ⟨h.1.filter _, fun c hc => h.2 c (List.mem_filter.mp hc).1⟩
  unfold setByte
  simp only
  split
  · exact hf
  · rename_i hb
    refine ⟨insertCell_sorted _ _ _ hf.1 (not_listed_filter m a), fun c hc => ?_⟩
    rcases mem_insertCell.mp hc with rfl | hc
    · exact hb
    · exact hf.2 c hc

/-- Writing bytes keeps the canonical form. -/
theorem writeBytes_wf (bs : List Byte) (m : Memory) (a : Nat) (h : Memory.wf m) :
    Memory.wf (writeBytes m a bs) := by
  induction bs generalizing m a with
  | nil => exact h
  | cons b bs ih => exact ih _ _ (setByte_wf m a b h)

/-- The listed addresses after a write are the old ones and the one written. -/
theorem mem_setByte {m : Memory} {a : Nat} {b : Byte} {c : Host.Cell} (h : c ∈ setByte m a b) :
    c.1 = a ∨ c ∈ m := by
  unfold setByte at h
  simp only at h
  split at h
  · exact .inr (List.mem_filter.mp h).1
  · rcases mem_insertCell.mp h with rfl | h
    · exact .inl rfl
    · exact .inr (List.mem_filter.mp h).1

/-- The listed addresses after a write of bytes are the old ones and those of the range. -/
theorem mem_writeBytes {bs : List Byte} {m : Memory} {a : Nat} {c : Host.Cell}
    (h : c ∈ writeBytes m a bs) : (a ≤ c.1 ∧ c.1 < a + bs.length) ∨ c ∈ m := by
  induction bs generalizing m a with
  | nil => exact .inr h
  | cons b bs ih =>
    rcases ih h with h | h
    · exact .inl (by simp only [List.length_cons]; omega)
    · rcases mem_setByte h with h | h
      · exact .inl (by simp only [List.length_cons]; omega)
      · exact .inr h

/-- Two memories in canonical form that read alike are equal. -/
theorem eq_of_memByte_eq (m m' : Memory) (h : Memory.wf m) (h' : Memory.wf m')
    (hr : ∀ a, memByte m a = memByte m' a) : m = m' := by
  induction m generalizing m' with
  | nil =>
    cases m' with
    | nil => rfl
    | cons c m' =>
      exact absurd (by simpa [memByte] using (hr c.1).symm) (h'.2 c (by simp))
  | cons c m ih =>
    cases m' with
    | nil => exact absurd (by simpa [memByte] using hr c.1) (h.2 c (by simp))
    | cons d m' =>
      have hs := List.pairwise_cons.mp h.1
      have hs' := List.pairwise_cons.mp h'.1
      have hcd : c.1 = d.1 := by
        rcases lt_trichotomy c.1 d.1 with hlt | heq | hgt
        · have := hr c.1
          rw [memByte_of_not_listed (d :: m') c.1 (fun e he => by
            rcases List.mem_cons.mp he with rfl | he
            · omega
            · have := hs'.1 e he; omega)] at this
          exact absurd (by simpa [memByte] using this) (h.2 c (by simp))
        · exact heq
        · have := hr d.1
          rw [memByte_of_not_listed (c :: m) d.1 (fun e he => by
            rcases List.mem_cons.mp he with rfl | he
            · omega
            · have := hs.1 e he; omega)] at this
          exact absurd (by simpa [memByte] using this.symm) (h'.2 d (by simp))
      have hb : c.2 = d.2 := by simpa [memByte, hcd] using hr c.1
      have htail : m = m' := by
        refine ih m' ⟨hs.2, fun e he => h.2 e (by simp [he])⟩ ⟨hs'.2, fun e he => h'.2 e (by simp [he])⟩
          fun a => ?_
        have ha := hr a
        simp only [memByte] at ha
        by_cases hca : c.1 = a
        · rw [memByte_of_not_listed m a (fun e he => by have := hs.1 e he; omega),
            memByte_of_not_listed m' a (fun e he => by have := hs'.1 e he; omega)]
        · simpa [hca, hcd ▸ hca] using ha
      rw [htail, show c = d from Prod.ext hcd hb]

/-! ### Little-endian values -/

@[simp] theorem length_leBytes {w : Nat} (n : Nat) (v : BitVec w) : (leBytes n v).length = n := by
  simp [leBytes]

theorem getD_leBytes {w : Nat} (n : Nat) (v : BitVec w) (k : Nat) (h : k < n) :
    (leBytes n v).getD k 0 = v.extractLsb' (8 * k) 8 := by
  simp [leBytes, List.getD_eq_getElem?_getD, h]

theorem leNat_four (b0 b1 b2 b3 : Byte) : BitVec.ofNat 32 (leNat [b0, b1, b2, b3]) = b3 ++ b2 ++ b1 ++ b0 := by
  apply BitVec.eq_of_toNat_eq
  have h0 := b0.isLt
  have h1 := b1.isLt
  have h2 := b2.isLt
  have h3 := b3.isLt
  simp only [leNat, BitVec.toNat_ofNat, BitVec.toNat_append]
  rw [Nat.mod_eq_of_lt (by omega), ← Nat.shiftLeft_add_eq_or_of_lt h2, ← Nat.shiftLeft_add_eq_or_of_lt h1,
    ← Nat.shiftLeft_add_eq_or_of_lt h0]
  simp only [Nat.shiftLeft_eq]
  omega

end Sys2Proof.Machine
end

