-- ==== Sys2Proof/Laws/Bits.lean ====
section
/-! SUPPORT. Paging entries as bytes: setting A and D changes only those bits of memory (spec/43_translation_32bit.md R180 to
R182). -/

namespace Sys2Proof.Machine

/-- From `x` to `y` no bit is cleared and none outside `mask` changes. -/
def BitsSet (mask x y : Byte) : Prop := y &&& ~~~mask = x &&& ~~~mask ∧ y ||| x = y

theorem BitsSet.refl (mask x : Byte) : BitsSet mask x x := ⟨rfl, BitVec.or_self⟩

theorem BitsSet.trans {mask x y z : Byte} (h : BitsSet mask x y) (h' : BitsSet mask y z) : BitsSet mask x z := by
  refine ⟨h'.1.trans h.1, ?_⟩
  rw [← h'.2, BitVec.or_assoc, h.2]

theorem BitsSet.or {mask c : Byte} (x : Byte) (h : c &&& ~~~mask = 0#8) : BitsSet mask x (x ||| c) := by
  refine ⟨?_, ?_⟩
  · rw [BitVec.and_comm (x ||| c), BitVec.and_or_distrib_left, BitVec.and_comm _ c, h, BitVec.or_zero,
      BitVec.and_comm]
  · rw [BitVec.or_comm x c, BitVec.or_assoc, BitVec.or_self]

theorem onlyBitsSet_iff {mask : Byte} {m m' : Memory} :
    OnlyBitsSet mask m m' ↔ ∀ a, BitsSet mask (memByte m a) (memByte m' a) := Iff.rfl

theorem OnlyBitsSet.refl (mask : Byte) (m : Memory) : OnlyBitsSet mask m m := fun _ => BitsSet.refl _ _

theorem OnlyBitsSet.trans {mask : Byte} {m m' m'' : Memory} (h : OnlyBitsSet mask m m')
    (h' : OnlyBitsSet mask m' m'') : OnlyBitsSet mask m m'' :=
  fun a => BitsSet.trans (h a) (h' a)

/-! ### Values and bytes -/

/-- A doubleword assembled from four bytes, taken apart again. -/
theorem leBytes_leWord32 (bs : List Byte) (h : bs.length = 4) : leBytes 4 (leWord32 bs) = bs := by
  obtain ⟨b0, b1, b2, b3, rfl⟩ : ∃ b0 b1 b2 b3, bs = [b0, b1, b2, b3] := by
    match bs, h with
    | [b0, b1, b2, b3], _ => exact ⟨b0, b1, b2, b3, rfl⟩
  unfold leWord32
  rw [leNat_four]
  simp only [leBytes, List.range, List.range.loop, List.map, Nat.reduceMul]
  congr 1
  · ext i hi
    simp only [BitVec.getElem_extractLsb', BitVec.getLsbD_append]
    rw [if_pos (by omega), show 0 + i = i from by omega]
    simp [BitVec.getLsbD_eq_getElem hi]
  congr 1
  · ext i hi
    simp only [BitVec.getElem_extractLsb', BitVec.getLsbD_append]
    rw [if_neg (by omega), if_pos (by omega), show 8 + i - 8 = i from by omega]
    simp [BitVec.getLsbD_eq_getElem hi]
  congr 1
  · ext i hi
    simp only [BitVec.getElem_extractLsb', BitVec.getLsbD_append]
    rw [if_neg (by omega), if_neg (by omega), if_pos (by omega), show 16 + i - 8 - 8 = i from by omega]
    simp [BitVec.getLsbD_eq_getElem hi]
  congr 1
  · ext i hi
    simp only [BitVec.getElem_extractLsb', BitVec.getLsbD_append]
    rw [if_neg (by omega), if_neg (by omega), if_neg (by omega), show 24 + i - 8 - 8 - 8 = i from by omega]
    simp [BitVec.getLsbD_eq_getElem hi]

/-- A doubleword from its own bytes. -/
@[simp] theorem leWord32_leBytes (v : Word32) : leWord32 (leBytes 4 v) = v := by
  unfold leWord32
  simp only [leBytes, List.range, List.range.loop, List.map, Nat.reduceMul]
  rw [leNat_four]
  ext i hi
  simp only [BitVec.getElem_append, BitVec.getElem_extractLsb']
  split
  · rename_i h; simp [BitVec.getLsbD_eq_getElem hi]
  split
  · rename_i h h'; rw [show 8 + (i - 8) = i from by omega]; simp [BitVec.getLsbD_eq_getElem hi]
  split
  · rename_i h h' h''; rw [show 16 + (i - 8 - 8) = i from by omega]; simp [BitVec.getLsbD_eq_getElem hi]
  · rename_i h h' h''; rw [show 24 + (i - 8 - 8 - 8) = i from by omega]; simp [BitVec.getLsbD_eq_getElem hi]

/-- A word from its own bytes. -/
@[simp] theorem leWord16_leBytes (v : Word16) : leWord16 (leBytes 2 v) = v := by
  unfold leWord16
  simp only [leBytes, List.range, List.range.loop, List.map, Nat.reduceMul]
  apply BitVec.eq_of_toNat_eq
  simp only [leNat, BitVec.toNat_ofNat, BitVec.extractLsb'_toNat, Nat.shiftRight_eq_div_pow]
  have := v.isLt
  omega

/-- The bytes of memory at an entry are the bytes of the entry. -/
theorem memByte_of_entryAt (s : State) (pa k : Nat) (hk : k < 4) :
    memByte s.mem (pa + k) = (entryAt s pa).extractLsb' (8 * k) 8 := by
  rw [← getD_readBytes s.mem pa 4 k hk, ← getD_leBytes 4 (entryAt s pa) k hk]
  unfold entryAt
  rw [leBytes_leWord32 _ (by simp)]

/-! ### A and D -/

/-- The entry `e'` differs from `e` at most in A and, where `mask` has it, D, set. -/
def EntryBitsSet (mask : Byte) (e e' : Word32) : Prop :=
  ∀ k, k < 4 → BitsSet mask (e.extractLsb' (8 * k) 8) (e'.extractLsb' (8 * k) 8)

theorem entryBitsSet_or {mask : Byte} (e c : Word32)
    (h : ∀ k, k < 4 → c.extractLsb' (8 * k) 8 &&& ~~~mask = 0#8) : EntryBitsSet mask e (e ||| c) := by
  intro k hk
  rw [BitVec.extractLsb'_or]
  exact BitsSet.or _ (h k hk)

theorem EntryBitsSet.trans {mask : Byte} {e e' e'' : Word32} (h : EntryBitsSet mask e e')
    (h' : EntryBitsSet mask e' e'') : EntryBitsSet mask e e'' := fun k hk => (h k hk).trans (h' k hk)

/-- Setting A sets one bit every walk may set. -/
theorem entryBitsSet_setA (acc : AccessKind) (e : Word32) : EntryBitsSet (walkMask acc) e (setA e) := by
  apply entryBitsSet_or
  intro k hk
  cases acc <;> revert hk <;> revert k <;> decide

/-- Setting A, and D for a write, sets only bits the walk may set. -/
theorem entryBitsSet_setDA (acc : AccessKind) (e : Word32) :
    EntryBitsSet (walkMask acc) e (setDOnWrite acc (setA e)) := by
  refine (entryBitsSet_setA acc e).trans ?_
  unfold setDOnWrite
  split
  · rename_i h
    subst h
    apply entryBitsSet_or
    decide
  · exact fun k _ => BitsSet.refl _ _

/-- Memory after an entry is written back with flags set: relative to the memory it was read from. -/
theorem onlyBitsSet_writeEntry {mask : Byte} {s : State} {m : Memory} {pa : Nat} {e' : Word32}
    (hm : OnlyBitsSet mask s.mem m) (he : EntryBitsSet mask (entryAt s pa) e') :
    OnlyBitsSet mask s.mem (writeBytes m pa (leBytes 4 e')) := by
  intro a
  rw [memByte_writeBytes]
  split
  · rename_i h
    simp only [length_leBytes] at h
    obtain ⟨k, rfl⟩ : ∃ k, a = pa + k := ⟨a - pa, by omega⟩
    have hk : k < 4 := by omega
    rw [show pa + k - pa = k from by omega, getD_leBytes 4 e' k hk, memByte_of_entryAt s pa k hk]
    exact he k hk
  · exact hm a

end Sys2Proof.Machine
end

