-- ==== Sys2Proof/Laws/State.lean ====
section
/-! SUPPORT. The fields of a state after each named update, so that no proof unfolds one. -/

namespace Sys2Proof.Machine

variable (s : State)

@[simp] theorem useChoices_cfg (n : Nat) : (useChoices n s).cfg = s.cfg := rfl
@[simp] theorem useChoices_gprs (n : Nat) : (useChoices n s).gprs = s.gprs := rfl
@[simp] theorem useChoices_eip (n : Nat) : (useChoices n s).eip = s.eip := rfl
@[simp] theorem useChoices_csBase (n : Nat) : (useChoices n s).csBase = s.csBase := rfl
@[simp] theorem useChoices_eflags (n : Nat) : (useChoices n s).eflags = s.eflags := rfl
@[simp] theorem useChoices_cr0 (n : Nat) : (useChoices n s).cr0 = s.cr0 := rfl
@[simp] theorem useChoices_cr3 (n : Nat) : (useChoices n s).cr3 = s.cr3 := rfl
@[simp] theorem useChoices_cr4 (n : Nat) : (useChoices n s).cr4 = s.cr4 := rfl
@[simp] theorem useChoices_gdtr (n : Nat) : (useChoices n s).gdtr = s.gdtr := rfl
@[simp] theorem useChoices_idtr (n : Nat) : (useChoices n s).idtr = s.idtr := rfl
@[simp] theorem useChoices_ldtr (n : Nat) : (useChoices n s).ldtr = s.ldtr := rfl
@[simp] theorem useChoices_tr (n : Nat) : (useChoices n s).tr = s.tr := rfl
@[simp] theorem useChoices_es (n : Nat) : (useChoices n s).es = s.es := rfl
@[simp] theorem useChoices_ds (n : Nat) : (useChoices n s).ds = s.ds := rfl
@[simp] theorem useChoices_fs (n : Nat) : (useChoices n s).fs = s.fs := rfl
@[simp] theorem useChoices_gs (n : Nat) : (useChoices n s).gs = s.gs := rfl
@[simp] theorem useChoices_cpl (n : Nat) : (useChoices n s).cpl = s.cpl := rfl
@[simp] theorem useChoices_mem (n : Nat) : (useChoices n s).mem = s.mem := rfl
@[simp] theorem useChoices_tlb (n : Nat) : (useChoices n s).tlb = s.tlb := rfl
@[simp] theorem useChoices_written (n : Nat) : (useChoices n s).written = s.written := rfl
@[simp] theorem useChoices_choices (n : Nat) : (useChoices n s).choices = s.choices + n := rfl

@[simp] theorem writeReg_cfg (r : Reg) (v : Word32) : (writeReg r v s).cfg = s.cfg := rfl
@[simp] theorem writeReg_gprs (r : Reg) (v : Word32) : (writeReg r v s).gprs = setGpr s.gprs r v := rfl
@[simp] theorem writeReg_eip (r : Reg) (v : Word32) : (writeReg r v s).eip = s.eip := rfl
@[simp] theorem writeReg_csBase (r : Reg) (v : Word32) : (writeReg r v s).csBase = s.csBase := rfl
@[simp] theorem writeReg_eflags (r : Reg) (v : Word32) : (writeReg r v s).eflags = s.eflags := rfl
@[simp] theorem writeReg_cr0 (r : Reg) (v : Word32) : (writeReg r v s).cr0 = s.cr0 := rfl
@[simp] theorem writeReg_cr3 (r : Reg) (v : Word32) : (writeReg r v s).cr3 = s.cr3 := rfl
@[simp] theorem writeReg_cr4 (r : Reg) (v : Word32) : (writeReg r v s).cr4 = s.cr4 := rfl
@[simp] theorem writeReg_gdtr (r : Reg) (v : Word32) : (writeReg r v s).gdtr = s.gdtr := rfl
@[simp] theorem writeReg_idtr (r : Reg) (v : Word32) : (writeReg r v s).idtr = s.idtr := rfl
@[simp] theorem writeReg_ldtr (r : Reg) (v : Word32) : (writeReg r v s).ldtr = s.ldtr := rfl
@[simp] theorem writeReg_tr (r : Reg) (v : Word32) : (writeReg r v s).tr = s.tr := rfl
@[simp] theorem writeReg_es (r : Reg) (v : Word32) : (writeReg r v s).es = s.es := rfl
@[simp] theorem writeReg_ds (r : Reg) (v : Word32) : (writeReg r v s).ds = s.ds := rfl
@[simp] theorem writeReg_fs (r : Reg) (v : Word32) : (writeReg r v s).fs = s.fs := rfl
@[simp] theorem writeReg_gs (r : Reg) (v : Word32) : (writeReg r v s).gs = s.gs := rfl
@[simp] theorem writeReg_cpl (r : Reg) (v : Word32) : (writeReg r v s).cpl = s.cpl := rfl
@[simp] theorem writeReg_mem (r : Reg) (v : Word32) : (writeReg r v s).mem = s.mem := rfl
@[simp] theorem writeReg_tlb (r : Reg) (v : Word32) : (writeReg r v s).tlb = s.tlb := rfl
@[simp] theorem writeReg_written (r : Reg) (v : Word32) : (writeReg r v s).written = s.written := rfl
@[simp] theorem writeReg_choices (r : Reg) (v : Word32) : (writeReg r v s).choices = s.choices := rfl

@[simp] theorem writeEntry_cfg (pa : Nat) (e : Word32) : (writeEntry pa e s).cfg = s.cfg := rfl
@[simp] theorem writeEntry_gprs (pa : Nat) (e : Word32) : (writeEntry pa e s).gprs = s.gprs := rfl
@[simp] theorem writeEntry_eip (pa : Nat) (e : Word32) : (writeEntry pa e s).eip = s.eip := rfl
@[simp] theorem writeEntry_csBase (pa : Nat) (e : Word32) : (writeEntry pa e s).csBase = s.csBase := rfl
@[simp] theorem writeEntry_eflags (pa : Nat) (e : Word32) : (writeEntry pa e s).eflags = s.eflags := rfl
@[simp] theorem writeEntry_cr0 (pa : Nat) (e : Word32) : (writeEntry pa e s).cr0 = s.cr0 := rfl
@[simp] theorem writeEntry_cr3 (pa : Nat) (e : Word32) : (writeEntry pa e s).cr3 = s.cr3 := rfl
@[simp] theorem writeEntry_cr4 (pa : Nat) (e : Word32) : (writeEntry pa e s).cr4 = s.cr4 := rfl
@[simp] theorem writeEntry_gdtr (pa : Nat) (e : Word32) : (writeEntry pa e s).gdtr = s.gdtr := rfl
@[simp] theorem writeEntry_idtr (pa : Nat) (e : Word32) : (writeEntry pa e s).idtr = s.idtr := rfl
@[simp] theorem writeEntry_ldtr (pa : Nat) (e : Word32) : (writeEntry pa e s).ldtr = s.ldtr := rfl
@[simp] theorem writeEntry_tr (pa : Nat) (e : Word32) : (writeEntry pa e s).tr = s.tr := rfl
@[simp] theorem writeEntry_es (pa : Nat) (e : Word32) : (writeEntry pa e s).es = s.es := rfl
@[simp] theorem writeEntry_ds (pa : Nat) (e : Word32) : (writeEntry pa e s).ds = s.ds := rfl
@[simp] theorem writeEntry_fs (pa : Nat) (e : Word32) : (writeEntry pa e s).fs = s.fs := rfl
@[simp] theorem writeEntry_gs (pa : Nat) (e : Word32) : (writeEntry pa e s).gs = s.gs := rfl
@[simp] theorem writeEntry_cpl (pa : Nat) (e : Word32) : (writeEntry pa e s).cpl = s.cpl := rfl
@[simp] theorem writeEntry_mem (pa : Nat) (e : Word32) :
    (writeEntry pa e s).mem =
      writeBytes s.mem pa (leBytes 4 e) := rfl
@[simp] theorem writeEntry_tlb (pa : Nat) (e : Word32) : (writeEntry pa e s).tlb = s.tlb := rfl
@[simp] theorem writeEntry_written (pa : Nat) (e : Word32) : (writeEntry pa e s).written = s.written := rfl
@[simp] theorem writeEntry_choices (pa : Nat) (e : Word32) : (writeEntry pa e s).choices = s.choices := rfl

@[simp] theorem storeData_cfg (pa : Nat) (bs : List Byte) : (storeData pa bs s).cfg = s.cfg := rfl
@[simp] theorem storeData_gprs (pa : Nat) (bs : List Byte) : (storeData pa bs s).gprs = s.gprs := rfl
@[simp] theorem storeData_eip (pa : Nat) (bs : List Byte) : (storeData pa bs s).eip = s.eip := rfl
@[simp] theorem storeData_csBase (pa : Nat) (bs : List Byte) : (storeData pa bs s).csBase = s.csBase := rfl
@[simp] theorem storeData_eflags (pa : Nat) (bs : List Byte) : (storeData pa bs s).eflags = s.eflags := rfl
@[simp] theorem storeData_cr0 (pa : Nat) (bs : List Byte) : (storeData pa bs s).cr0 = s.cr0 := rfl
@[simp] theorem storeData_cr3 (pa : Nat) (bs : List Byte) : (storeData pa bs s).cr3 = s.cr3 := rfl
@[simp] theorem storeData_cr4 (pa : Nat) (bs : List Byte) : (storeData pa bs s).cr4 = s.cr4 := rfl
@[simp] theorem storeData_gdtr (pa : Nat) (bs : List Byte) : (storeData pa bs s).gdtr = s.gdtr := rfl
@[simp] theorem storeData_idtr (pa : Nat) (bs : List Byte) : (storeData pa bs s).idtr = s.idtr := rfl
@[simp] theorem storeData_ldtr (pa : Nat) (bs : List Byte) : (storeData pa bs s).ldtr = s.ldtr := rfl
@[simp] theorem storeData_tr (pa : Nat) (bs : List Byte) : (storeData pa bs s).tr = s.tr := rfl
@[simp] theorem storeData_es (pa : Nat) (bs : List Byte) : (storeData pa bs s).es = s.es := rfl
@[simp] theorem storeData_ds (pa : Nat) (bs : List Byte) : (storeData pa bs s).ds = s.ds := rfl
@[simp] theorem storeData_fs (pa : Nat) (bs : List Byte) : (storeData pa bs s).fs = s.fs := rfl
@[simp] theorem storeData_gs (pa : Nat) (bs : List Byte) : (storeData pa bs s).gs = s.gs := rfl
@[simp] theorem storeData_cpl (pa : Nat) (bs : List Byte) : (storeData pa bs s).cpl = s.cpl := rfl
@[simp] theorem storeData_mem (pa : Nat) (bs : List Byte) : (storeData pa bs s).mem = writeBytes s.mem pa bs := rfl
@[simp] theorem storeData_tlb (pa : Nat) (bs : List Byte) : (storeData pa bs s).tlb = s.tlb := rfl
@[simp] theorem storeData_written (pa : Nat) (bs : List Byte) :
    (storeData pa bs s).written =
      markWritten pa bs.length s.written := rfl
@[simp] theorem storeData_choices (pa : Nat) (bs : List Byte) : (storeData pa bs s).choices = s.choices := rfl

@[simp] theorem dropAny_cfg : (dropAny s).cfg = s.cfg := rfl
@[simp] theorem dropAny_gprs : (dropAny s).gprs = s.gprs := rfl
@[simp] theorem dropAny_eip : (dropAny s).eip = s.eip := rfl
@[simp] theorem dropAny_csBase : (dropAny s).csBase = s.csBase := rfl
@[simp] theorem dropAny_eflags : (dropAny s).eflags = s.eflags := rfl
@[simp] theorem dropAny_cr0 : (dropAny s).cr0 = s.cr0 := rfl
@[simp] theorem dropAny_cr3 : (dropAny s).cr3 = s.cr3 := rfl
@[simp] theorem dropAny_cr4 : (dropAny s).cr4 = s.cr4 := rfl
@[simp] theorem dropAny_gdtr : (dropAny s).gdtr = s.gdtr := rfl
@[simp] theorem dropAny_idtr : (dropAny s).idtr = s.idtr := rfl
@[simp] theorem dropAny_ldtr : (dropAny s).ldtr = s.ldtr := rfl
@[simp] theorem dropAny_tr : (dropAny s).tr = s.tr := rfl
@[simp] theorem dropAny_es : (dropAny s).es = s.es := rfl
@[simp] theorem dropAny_ds : (dropAny s).ds = s.ds := rfl
@[simp] theorem dropAny_fs : (dropAny s).fs = s.fs := rfl
@[simp] theorem dropAny_gs : (dropAny s).gs = s.gs := rfl
@[simp] theorem dropAny_cpl : (dropAny s).cpl = s.cpl := rfl
@[simp] theorem dropAny_mem : (dropAny s).mem = s.mem := rfl
@[simp] theorem dropAny_tlb : (dropAny s).tlb = anySubset s.tlb s.choices := rfl
@[simp] theorem dropAny_written : (dropAny s).written = s.written := rfl
@[simp] theorem dropAny_choices : (dropAny s).choices = s.choices + s.tlb.length := rfl

@[simp] theorem maybeFill_cfg (e : TlbEntry) : (maybeFill e s).cfg = s.cfg := rfl
@[simp] theorem maybeFill_gprs (e : TlbEntry) : (maybeFill e s).gprs = s.gprs := rfl
@[simp] theorem maybeFill_eip (e : TlbEntry) : (maybeFill e s).eip = s.eip := rfl
@[simp] theorem maybeFill_csBase (e : TlbEntry) : (maybeFill e s).csBase = s.csBase := rfl
@[simp] theorem maybeFill_eflags (e : TlbEntry) : (maybeFill e s).eflags = s.eflags := rfl
@[simp] theorem maybeFill_cr0 (e : TlbEntry) : (maybeFill e s).cr0 = s.cr0 := rfl
@[simp] theorem maybeFill_cr3 (e : TlbEntry) : (maybeFill e s).cr3 = s.cr3 := rfl
@[simp] theorem maybeFill_cr4 (e : TlbEntry) : (maybeFill e s).cr4 = s.cr4 := rfl
@[simp] theorem maybeFill_gdtr (e : TlbEntry) : (maybeFill e s).gdtr = s.gdtr := rfl
@[simp] theorem maybeFill_idtr (e : TlbEntry) : (maybeFill e s).idtr = s.idtr := rfl
@[simp] theorem maybeFill_ldtr (e : TlbEntry) : (maybeFill e s).ldtr = s.ldtr := rfl
@[simp] theorem maybeFill_tr (e : TlbEntry) : (maybeFill e s).tr = s.tr := rfl
@[simp] theorem maybeFill_es (e : TlbEntry) : (maybeFill e s).es = s.es := rfl
@[simp] theorem maybeFill_ds (e : TlbEntry) : (maybeFill e s).ds = s.ds := rfl
@[simp] theorem maybeFill_fs (e : TlbEntry) : (maybeFill e s).fs = s.fs := rfl
@[simp] theorem maybeFill_gs (e : TlbEntry) : (maybeFill e s).gs = s.gs := rfl
@[simp] theorem maybeFill_cpl (e : TlbEntry) : (maybeFill e s).cpl = s.cpl := rfl
@[simp] theorem maybeFill_mem (e : TlbEntry) : (maybeFill e s).mem = s.mem := rfl
@[simp] theorem maybeFill_tlb (e : TlbEntry) :
    (maybeFill e s).tlb =
      bif Config.freeBool s.choices then insertNew e s.tlb else s.tlb := rfl
@[simp] theorem maybeFill_written (e : TlbEntry) : (maybeFill e s).written = s.written := rfl
@[simp] theorem maybeFill_choices (e : TlbEntry) : (maybeFill e s).choices = s.choices + 1 := rfl

@[simp] theorem flushPage_cfg (la : Word32) : (flushPage la s).cfg = s.cfg := rfl
@[simp] theorem flushPage_gprs (la : Word32) : (flushPage la s).gprs = s.gprs := rfl
@[simp] theorem flushPage_eip (la : Word32) : (flushPage la s).eip = s.eip := rfl
@[simp] theorem flushPage_csBase (la : Word32) : (flushPage la s).csBase = s.csBase := rfl
@[simp] theorem flushPage_eflags (la : Word32) : (flushPage la s).eflags = s.eflags := rfl
@[simp] theorem flushPage_cr0 (la : Word32) : (flushPage la s).cr0 = s.cr0 := rfl
@[simp] theorem flushPage_cr3 (la : Word32) : (flushPage la s).cr3 = s.cr3 := rfl
@[simp] theorem flushPage_cr4 (la : Word32) : (flushPage la s).cr4 = s.cr4 := rfl
@[simp] theorem flushPage_gdtr (la : Word32) : (flushPage la s).gdtr = s.gdtr := rfl
@[simp] theorem flushPage_idtr (la : Word32) : (flushPage la s).idtr = s.idtr := rfl
@[simp] theorem flushPage_ldtr (la : Word32) : (flushPage la s).ldtr = s.ldtr := rfl
@[simp] theorem flushPage_tr (la : Word32) : (flushPage la s).tr = s.tr := rfl
@[simp] theorem flushPage_es (la : Word32) : (flushPage la s).es = s.es := rfl
@[simp] theorem flushPage_ds (la : Word32) : (flushPage la s).ds = s.ds := rfl
@[simp] theorem flushPage_fs (la : Word32) : (flushPage la s).fs = s.fs := rfl
@[simp] theorem flushPage_gs (la : Word32) : (flushPage la s).gs = s.gs := rfl
@[simp] theorem flushPage_cpl (la : Word32) : (flushPage la s).cpl = s.cpl := rfl
@[simp] theorem flushPage_mem (la : Word32) : (flushPage la s).mem = s.mem := rfl
@[simp] theorem flushPage_tlb (la : Word32) : (flushPage la s).tlb = s.tlb.filter fun e => !tlbMatches la e := rfl
@[simp] theorem flushPage_written (la : Word32) : (flushPage la s).written = s.written := rfl
@[simp] theorem flushPage_choices (la : Word32) : (flushPage la s).choices = s.choices := rfl

@[simp] theorem maybeSetA_cfg (addr e : Word32) : (maybeSetA addr e s).cfg = s.cfg := rfl
@[simp] theorem maybeSetA_gprs (addr e : Word32) : (maybeSetA addr e s).gprs = s.gprs := rfl
@[simp] theorem maybeSetA_eip (addr e : Word32) : (maybeSetA addr e s).eip = s.eip := rfl
@[simp] theorem maybeSetA_csBase (addr e : Word32) : (maybeSetA addr e s).csBase = s.csBase := rfl
@[simp] theorem maybeSetA_eflags (addr e : Word32) : (maybeSetA addr e s).eflags = s.eflags := rfl
@[simp] theorem maybeSetA_cr0 (addr e : Word32) : (maybeSetA addr e s).cr0 = s.cr0 := rfl
@[simp] theorem maybeSetA_cr3 (addr e : Word32) : (maybeSetA addr e s).cr3 = s.cr3 := rfl
@[simp] theorem maybeSetA_cr4 (addr e : Word32) : (maybeSetA addr e s).cr4 = s.cr4 := rfl
@[simp] theorem maybeSetA_gdtr (addr e : Word32) : (maybeSetA addr e s).gdtr = s.gdtr := rfl
@[simp] theorem maybeSetA_idtr (addr e : Word32) : (maybeSetA addr e s).idtr = s.idtr := rfl
@[simp] theorem maybeSetA_ldtr (addr e : Word32) : (maybeSetA addr e s).ldtr = s.ldtr := rfl
@[simp] theorem maybeSetA_tr (addr e : Word32) : (maybeSetA addr e s).tr = s.tr := rfl
@[simp] theorem maybeSetA_es (addr e : Word32) : (maybeSetA addr e s).es = s.es := rfl
@[simp] theorem maybeSetA_ds (addr e : Word32) : (maybeSetA addr e s).ds = s.ds := rfl
@[simp] theorem maybeSetA_fs (addr e : Word32) : (maybeSetA addr e s).fs = s.fs := rfl
@[simp] theorem maybeSetA_gs (addr e : Word32) : (maybeSetA addr e s).gs = s.gs := rfl
@[simp] theorem maybeSetA_cpl (addr e : Word32) : (maybeSetA addr e s).cpl = s.cpl := rfl
@[simp] theorem maybeSetA_mem (addr e : Word32) :
    (maybeSetA addr e s).mem =
      bif Config.freeBool s.choices then writeBytes s.mem addr.toNat (leBytes 4 (setA e)) else s.mem := rfl
@[simp] theorem maybeSetA_tlb (addr e : Word32) : (maybeSetA addr e s).tlb = s.tlb := rfl
@[simp] theorem maybeSetA_written (addr e : Word32) : (maybeSetA addr e s).written = s.written := rfl
@[simp] theorem maybeSetA_choices (addr e : Word32) : (maybeSetA addr e s).choices = s.choices + 1 := rfl

@[simp] theorem loadCr3_cfg (v : Word32) : (loadCr3 v s).cfg = s.cfg := rfl
@[simp] theorem loadCr3_gprs (v : Word32) : (loadCr3 v s).gprs = s.gprs := rfl
@[simp] theorem loadCr3_eip (v : Word32) : (loadCr3 v s).eip = s.eip := rfl
@[simp] theorem loadCr3_csBase (v : Word32) : (loadCr3 v s).csBase = s.csBase := rfl
@[simp] theorem loadCr3_eflags (v : Word32) : (loadCr3 v s).eflags = s.eflags := rfl
@[simp] theorem loadCr3_cr0 (v : Word32) : (loadCr3 v s).cr0 = s.cr0 := rfl
@[simp] theorem loadCr3_cr3 (v : Word32) : (loadCr3 v s).cr3 = v := rfl
@[simp] theorem loadCr3_cr4 (v : Word32) : (loadCr3 v s).cr4 = s.cr4 := rfl
@[simp] theorem loadCr3_gdtr (v : Word32) : (loadCr3 v s).gdtr = s.gdtr := rfl
@[simp] theorem loadCr3_idtr (v : Word32) : (loadCr3 v s).idtr = s.idtr := rfl
@[simp] theorem loadCr3_ldtr (v : Word32) : (loadCr3 v s).ldtr = s.ldtr := rfl
@[simp] theorem loadCr3_tr (v : Word32) : (loadCr3 v s).tr = s.tr := rfl
@[simp] theorem loadCr3_es (v : Word32) : (loadCr3 v s).es = s.es := rfl
@[simp] theorem loadCr3_ds (v : Word32) : (loadCr3 v s).ds = s.ds := rfl
@[simp] theorem loadCr3_fs (v : Word32) : (loadCr3 v s).fs = s.fs := rfl
@[simp] theorem loadCr3_gs (v : Word32) : (loadCr3 v s).gs = s.gs := rfl
@[simp] theorem loadCr3_cpl (v : Word32) : (loadCr3 v s).cpl = s.cpl := rfl
@[simp] theorem loadCr3_mem (v : Word32) : (loadCr3 v s).mem = s.mem := rfl
@[simp] theorem loadCr3_tlb (v : Word32) :
    (loadCr3 v s).tlb =
      anySubset (s.tlb.filter fun e => pgeFlag s.cr4 && tlbGlobal e) s.choices := rfl
@[simp] theorem loadCr3_written (v : Word32) : (loadCr3 v s).written = [] := rfl
@[simp] theorem loadCr3_choices (v : Word32) :
    (loadCr3 v s).choices =
      s.choices + (s.tlb.filter fun e => pgeFlag s.cr4 && tlbGlobal e).length := rfl

@[simp] theorem environment_cfg : (environment s).cfg = s.cfg := rfl
@[simp] theorem environment_gprs : (environment s).gprs = s.gprs := rfl
@[simp] theorem environment_eip : (environment s).eip = s.eip := rfl
@[simp] theorem environment_csBase : (environment s).csBase = s.csBase := rfl
@[simp] theorem environment_eflags : (environment s).eflags = s.eflags := rfl
@[simp] theorem environment_cr0 : (environment s).cr0 = s.cr0 := rfl
@[simp] theorem environment_cr3 : (environment s).cr3 = s.cr3 := rfl
@[simp] theorem environment_cr4 : (environment s).cr4 = s.cr4 := rfl
@[simp] theorem environment_gdtr : (environment s).gdtr = s.gdtr := rfl
@[simp] theorem environment_idtr : (environment s).idtr = s.idtr := rfl
@[simp] theorem environment_ldtr : (environment s).ldtr = s.ldtr := rfl
@[simp] theorem environment_tr : (environment s).tr = s.tr := rfl
@[simp] theorem environment_es : (environment s).es = s.es := rfl
@[simp] theorem environment_ds : (environment s).ds = s.ds := rfl
@[simp] theorem environment_fs : (environment s).fs = s.fs := rfl
@[simp] theorem environment_gs : (environment s).gs = s.gs := rfl
@[simp] theorem environment_cpl : (environment s).cpl = s.cpl := rfl
@[simp] theorem environment_mem : (environment s).mem = s.mem := rfl
@[simp] theorem environment_tlb : (environment s).tlb = anySubset s.tlb s.choices := rfl
@[simp] theorem environment_written : (environment s).written = s.written := rfl
@[simp] theorem environment_choices : (environment s).choices = s.choices + s.tlb.length := rfl

@[simp] theorem advance_cfg (i : Instr) : (advance i s).cfg = s.cfg := rfl
@[simp] theorem advance_gprs (i : Instr) : (advance i s).gprs = s.gprs := rfl
@[simp] theorem advance_eip (i : Instr) : (advance i s).eip = s.eip + BitVec.ofNat 32 (instrLength i) := rfl
@[simp] theorem advance_csBase (i : Instr) : (advance i s).csBase = s.csBase := rfl
@[simp] theorem advance_eflags (i : Instr) : (advance i s).eflags = s.eflags := rfl
@[simp] theorem advance_cr0 (i : Instr) : (advance i s).cr0 = s.cr0 := rfl
@[simp] theorem advance_cr3 (i : Instr) : (advance i s).cr3 = s.cr3 := rfl
@[simp] theorem advance_cr4 (i : Instr) : (advance i s).cr4 = s.cr4 := rfl
@[simp] theorem advance_gdtr (i : Instr) : (advance i s).gdtr = s.gdtr := rfl
@[simp] theorem advance_idtr (i : Instr) : (advance i s).idtr = s.idtr := rfl
@[simp] theorem advance_ldtr (i : Instr) : (advance i s).ldtr = s.ldtr := rfl
@[simp] theorem advance_tr (i : Instr) : (advance i s).tr = s.tr := rfl
@[simp] theorem advance_es (i : Instr) : (advance i s).es = s.es := rfl
@[simp] theorem advance_ds (i : Instr) : (advance i s).ds = s.ds := rfl
@[simp] theorem advance_fs (i : Instr) : (advance i s).fs = s.fs := rfl
@[simp] theorem advance_gs (i : Instr) : (advance i s).gs = s.gs := rfl
@[simp] theorem advance_cpl (i : Instr) : (advance i s).cpl = s.cpl := rfl
@[simp] theorem advance_mem (i : Instr) : (advance i s).mem = s.mem := rfl
@[simp] theorem advance_tlb (i : Instr) : (advance i s).tlb = s.tlb := rfl
@[simp] theorem advance_written (i : Instr) : (advance i s).written = s.written := rfl
@[simp] theorem advance_choices (i : Instr) : (advance i s).choices = s.choices := rfl

@[simp] theorem writeDataSeg_cfg (r : DataSeg) (v : SegReg) : (writeDataSeg r v s).cfg = s.cfg := by
  cases r <;> rfl
@[simp] theorem writeDataSeg_gprs (r : DataSeg) (v : SegReg) : (writeDataSeg r v s).gprs = s.gprs := by
  cases r <;> rfl
@[simp] theorem writeDataSeg_eip (r : DataSeg) (v : SegReg) : (writeDataSeg r v s).eip = s.eip := by
  cases r <;> rfl
@[simp] theorem writeDataSeg_csBase (r : DataSeg) (v : SegReg) : (writeDataSeg r v s).csBase = s.csBase := by
  cases r <;> rfl
@[simp] theorem writeDataSeg_eflags (r : DataSeg) (v : SegReg) : (writeDataSeg r v s).eflags = s.eflags := by
  cases r <;> rfl
@[simp] theorem writeDataSeg_cr0 (r : DataSeg) (v : SegReg) : (writeDataSeg r v s).cr0 = s.cr0 := by
  cases r <;> rfl
@[simp] theorem writeDataSeg_cr3 (r : DataSeg) (v : SegReg) : (writeDataSeg r v s).cr3 = s.cr3 := by
  cases r <;> rfl
@[simp] theorem writeDataSeg_cr4 (r : DataSeg) (v : SegReg) : (writeDataSeg r v s).cr4 = s.cr4 := by
  cases r <;> rfl
@[simp] theorem writeDataSeg_gdtr (r : DataSeg) (v : SegReg) : (writeDataSeg r v s).gdtr = s.gdtr := by
  cases r <;> rfl
@[simp] theorem writeDataSeg_idtr (r : DataSeg) (v : SegReg) : (writeDataSeg r v s).idtr = s.idtr := by
  cases r <;> rfl
@[simp] theorem writeDataSeg_ldtr (r : DataSeg) (v : SegReg) : (writeDataSeg r v s).ldtr = s.ldtr := by
  cases r <;> rfl
@[simp] theorem writeDataSeg_tr (r : DataSeg) (v : SegReg) : (writeDataSeg r v s).tr = s.tr := by
  cases r <;> rfl
@[simp] theorem writeDataSeg_cpl (r : DataSeg) (v : SegReg) : (writeDataSeg r v s).cpl = s.cpl := by
  cases r <;> rfl
@[simp] theorem writeDataSeg_mem (r : DataSeg) (v : SegReg) : (writeDataSeg r v s).mem = s.mem := by
  cases r <;> rfl
@[simp] theorem writeDataSeg_tlb (r : DataSeg) (v : SegReg) : (writeDataSeg r v s).tlb = s.tlb := by
  cases r <;> rfl
@[simp] theorem writeDataSeg_written (r : DataSeg) (v : SegReg) : (writeDataSeg r v s).written = s.written := by
  cases r <;> rfl
@[simp] theorem writeDataSeg_choices (r : DataSeg) (v : SegReg) : (writeDataSeg r v s).choices = s.choices := by
  cases r <;> rfl

@[simp] theorem writeBack_cfg (addr e e' : Word32) : (writeBack addr e e' s).cfg = s.cfg := by
  unfold writeBack; split <;> rfl
@[simp] theorem writeBack_gprs (addr e e' : Word32) : (writeBack addr e e' s).gprs = s.gprs := by
  unfold writeBack; split <;> rfl
@[simp] theorem writeBack_eip (addr e e' : Word32) : (writeBack addr e e' s).eip = s.eip := by
  unfold writeBack; split <;> rfl
@[simp] theorem writeBack_csBase (addr e e' : Word32) : (writeBack addr e e' s).csBase = s.csBase := by
  unfold writeBack; split <;> rfl
@[simp] theorem writeBack_eflags (addr e e' : Word32) : (writeBack addr e e' s).eflags = s.eflags := by
  unfold writeBack; split <;> rfl
@[simp] theorem writeBack_cr0 (addr e e' : Word32) : (writeBack addr e e' s).cr0 = s.cr0 := by
  unfold writeBack; split <;> rfl
@[simp] theorem writeBack_cr3 (addr e e' : Word32) : (writeBack addr e e' s).cr3 = s.cr3 := by
  unfold writeBack; split <;> rfl
@[simp] theorem writeBack_cr4 (addr e e' : Word32) : (writeBack addr e e' s).cr4 = s.cr4 := by
  unfold writeBack; split <;> rfl
@[simp] theorem writeBack_gdtr (addr e e' : Word32) : (writeBack addr e e' s).gdtr = s.gdtr := by
  unfold writeBack; split <;> rfl
@[simp] theorem writeBack_idtr (addr e e' : Word32) : (writeBack addr e e' s).idtr = s.idtr := by
  unfold writeBack; split <;> rfl
@[simp] theorem writeBack_ldtr (addr e e' : Word32) : (writeBack addr e e' s).ldtr = s.ldtr := by
  unfold writeBack; split <;> rfl
@[simp] theorem writeBack_tr (addr e e' : Word32) : (writeBack addr e e' s).tr = s.tr := by
  unfold writeBack; split <;> rfl
@[simp] theorem writeBack_es (addr e e' : Word32) : (writeBack addr e e' s).es = s.es := by
  unfold writeBack; split <;> rfl
@[simp] theorem writeBack_ds (addr e e' : Word32) : (writeBack addr e e' s).ds = s.ds := by
  unfold writeBack; split <;> rfl
@[simp] theorem writeBack_fs (addr e e' : Word32) : (writeBack addr e e' s).fs = s.fs := by
  unfold writeBack; split <;> rfl
@[simp] theorem writeBack_gs (addr e e' : Word32) : (writeBack addr e e' s).gs = s.gs := by
  unfold writeBack; split <;> rfl
@[simp] theorem writeBack_cpl (addr e e' : Word32) : (writeBack addr e e' s).cpl = s.cpl := by
  unfold writeBack; split <;> rfl
@[simp] theorem writeBack_tlb (addr e e' : Word32) : (writeBack addr e e' s).tlb = s.tlb := by
  unfold writeBack; split <;> rfl
@[simp] theorem writeBack_written (addr e e' : Word32) : (writeBack addr e e' s).written = s.written := by
  unfold writeBack; split <;> rfl
@[simp] theorem writeBack_choices (addr e e' : Word32) : (writeBack addr e e' s).choices = s.choices := by
  unfold writeBack; split <;> rfl

@[simp] theorem readReg_writeReg_same (r : Reg) (v : Word32) : readReg (writeReg r v s) r = v := by
  cases r <;> rfl

theorem readReg_writeReg_other (r r' : Reg) (v : Word32) (h : r' ≠ r) :
    readReg (writeReg r v s) r' = readReg s r' := by
  cases r <;> cases r' <;> first | exact absurd rfl h | rfl

@[simp] theorem readDataSeg_writeDataSeg_same (r : DataSeg) (v : SegReg) :
    readDataSeg (writeDataSeg r v s) r = v := by
  cases r <;> rfl

theorem readDataSeg_writeDataSeg_other (r r' : DataSeg) (v : SegReg) (h : r' ≠ r) :
    readDataSeg (writeDataSeg r v s) r' = readDataSeg s r' := by
  cases r <;> cases r' <;> first | exact absurd rfl h | rfl

@[simp] theorem useChoices_zero : useChoices 0 s = s := rfl

end Sys2Proof.Machine
end

