-- ==== Sys2Proof/Laws/Invariant.lean ====
section
/-! SUPPORT. The named updates keep the invariant. -/

namespace Sys2Proof.Machine

/-- Any subset is a sublist. -/
theorem anySubset_sublist (l : List TlbEntry) (n : Nat) : (anySubset l n).Sublist l := by
  induction l generalizing n with
  | nil => exact List.Sublist.slnil
  | cons e l ih =>
    unfold anySubset
    cases Config.freeBool n
    · exact (ih (n + 1)).cons e
    · exact (ih (n + 1)).cons_cons e

theorem mem_insertNew {α : Type} [DecidableEq α] {a b : α} {l : List α} :
    b ∈ insertNew a l ↔ b = a ∨ b ∈ l := by
  unfold insertNew
  split
  · rename_i h
    exact ⟨.inr, fun hb => hb.elim (fun hb => hb ▸ h) id⟩
  · simp

theorem nodup_insertNew {α : Type} [DecidableEq α] (a : α) (l : List α) (h : l.Nodup) :
    (insertNew a l).Nodup := by
  unfold insertNew
  split
  · exact h
  · rename_i ha; exact List.nodup_cons.mpr ⟨ha, h⟩

theorem mem_markWritten {a n b : Nat} {w : List Nat} :
    b ∈ markWritten a n w ↔ (a ≤ b ∧ b < a + n) ∨ b ∈ w := by
  induction n generalizing a w with
  | zero => simp only [markWritten]; constructor <;> intro h; exact .inr h; rcases h with h | h; omega; exact h
  | succ n ih =>
    simp only [markWritten, ih, mem_insertNew]
    constructor
    · rintro (h | h | h)
      · left; omega
      · left; omega
      · exact .inr h
    · rintro (h | h)
      · by_cases hb : b = a
        · exact .inr (.inl hb)
        · left; omega
      · exact .inr (.inr h)

theorem nodup_markWritten (a n : Nat) (w : List Nat) (h : w.Nodup) : (markWritten a n w).Nodup := by
  induction n generalizing a w with
  | zero => exact h
  | succ n ih => exact ih _ _ (nodup_insertNew _ _ h)

/-- Every byte of a mapped range is mapped. -/
theorem mapped_of_range {c : Config} {pa n a : Nat} (h : mappedRange c pa n = true) (h1 : pa ≤ a)
    (h2 : a < pa + n) : mapped c a = true := by
  unfold mappedRange at h
  have := List.all_eq_true.mp h (a - pa) (List.mem_range.mpr (by omega))
  rwa [show pa + (a - pa) = a from by omega] at this

theorem Inv.useChoices {s : State} (h : Inv s) (n : Nat) : Inv (useChoices n s) :=
  ⟨h.cfgWf, h.memWf, h.memMapped, h.tlbNodup, h.tlbOk, h.features, h.noPaePaging, h.unusableIsNull,
    h.writtenNodup, h.writtenMapped⟩

theorem Inv.writeReg {s : State} (h : Inv s) (r : Reg) (v : Word32) : Inv (writeReg r v s) :=
  ⟨h.cfgWf, h.memWf, h.memMapped, h.tlbNodup, h.tlbOk, h.features, h.noPaePaging, h.unusableIsNull,
    h.writtenNodup, h.writtenMapped⟩

theorem Inv.advance {s : State} (h : Inv s) (i : Instr) : Inv (advance i s) :=
  ⟨h.cfgWf, h.memWf, h.memMapped, h.tlbNodup, h.tlbOk, h.features, h.noPaePaging, h.unusableIsNull,
    h.writtenNodup, h.writtenMapped⟩

/-- A TLB reduced to part of itself. -/
theorem Inv.subTlb {s : State} (h : Inv s) (l : List TlbEntry) (hl : l.Sublist s.tlb) (n : Nat) :
    Inv { s with tlb := l, choices := n } :=
  ⟨h.cfgWf, h.memWf, h.memMapped, h.tlbNodup.sublist hl, fun e he => h.tlbOk e (hl.subset he), h.features,
    h.noPaePaging, h.unusableIsNull, h.writtenNodup, h.writtenMapped⟩

theorem Inv.dropAny {s : State} (h : Inv s) : Inv (dropAny s) := h.subTlb _ (anySubset_sublist _ _) _

theorem Inv.flushPage {s : State} (h : Inv s) (la : Word32) : Inv (flushPage la s) :=
  h.subTlb _ List.filter_sublist s.choices

theorem Inv.maybeFill {s : State} (h : Inv s) (e : TlbEntry) (he : tlbEntryOk s.cfg e) :
    Inv (maybeFill e s) := by
  refine ⟨h.cfgWf, h.memWf, h.memMapped, ?_, ?_, h.features, h.noPaePaging, h.unusableIsNull, h.writtenNodup,
    h.writtenMapped⟩
  · rw [maybeFill_tlb]
    cases Config.freeBool s.choices
    · exact h.tlbNodup
    · exact nodup_insertNew _ _ h.tlbNodup
  · intro e' he'
    rw [maybeFill_tlb] at he'
    rw [maybeFill_cfg]
    revert he'
    cases Config.freeBool s.choices
    · exact fun he' => h.tlbOk e' he'
    · intro he'
      rcases mem_insertNew.mp he' with rfl | he'
      · exact he
      · exact h.tlbOk e' he'

/-- Memory written inside PhysMap. -/
theorem Inv.writeMem {s : State} (h : Inv s) (pa : Nat) (bs : List Byte)
    (hr : mappedRange s.cfg pa bs.length = true) (n : Nat) :
    Inv { s with mem := writeBytes s.mem pa bs, choices := n } := by
  refine ⟨h.cfgWf, writeBytes_wf _ _ _ h.memWf, fun c hc => ?_, h.tlbNodup, h.tlbOk, h.features, h.noPaePaging,
    h.unusableIsNull, h.writtenNodup, h.writtenMapped⟩
  rcases mem_writeBytes hc with hc | hc
  · exact mapped_of_range hr hc.1 hc.2
  · exact h.memMapped c hc

theorem Inv.writeEntry {s : State} (h : Inv s) (pa : Nat) (e : Word32) (hr : mappedRange s.cfg pa 4 = true) :
    Inv (writeEntry pa e s) := h.writeMem pa _ (by simpa using hr) s.choices

theorem Inv.maybeSetA {s : State} (h : Inv s) (addr e : Word32)
    (hr : mappedRange s.cfg addr.toNat 4 = true) : Inv (maybeSetA addr e s) := by
  have h' : ∀ b : Bool, Inv { s with
      mem := bif b then writeBytes s.mem addr.toNat (leBytes 4 (setA e)) else s.mem
      choices := s.choices + 1 } := by
    intro b
    cases b
    · exact h.useChoices 1
    · exact h.writeMem _ _ (by simpa using hr) _
  exact h' _

theorem Inv.storeData {s : State} (h : Inv s) (pa : Nat) (bs : List Byte)
    (hr : mappedRange s.cfg pa bs.length = true) : Inv (storeData pa bs s) := by
  refine ⟨h.cfgWf, writeBytes_wf _ _ _ h.memWf, fun c hc => ?_, h.tlbNodup, h.tlbOk, h.features, h.noPaePaging,
    h.unusableIsNull, nodup_markWritten _ _ _ h.writtenNodup, fun a ha => ?_⟩
  · rcases mem_writeBytes hc with hc | hc
    · exact mapped_of_range hr hc.1 hc.2
    · exact h.memMapped c hc
  · rcases mem_markWritten.mp ha with ha | ha
    · exact mapped_of_range hr ha.1 ha.2
    · exact h.writtenMapped a ha

end Sys2Proof.Machine
end

