-- ==== Sys2Proof/Laws/Result.lean ====
section
/-! SUPPORT. How outcomes compose: the inversion of `andThen`, and a rule that carries a property of the state left behind
(after a next state and after a fault alike) through a sequence of operations. -/

namespace Sys2Proof.Machine

/-! ### Inversion -/

@[simp] theorem andThen_next {α β : Type} (a : α) (s : State) (f : α → State → Host.Outcome β Fault Refusal) :
    andThen (.next (a, s)) f = f a s := rfl

@[simp] theorem andThen_fault {α β : Type} (e : Fault) (f : α → State → Host.Outcome β Fault Refusal) :
    andThen (.fault e) f = .fault e := rfl

@[simp] theorem andThen_refused {α β : Type} (why : Refusal)
    (f : α → State → Host.Outcome β Fault Refusal) : andThen (.refused why) f = .refused why := rfl

/-- A sequence answers a next state only through an answer of its first operation. -/
theorem andThen_eq_next {α β : Type} {r : Result α} {f : α → State → Host.Outcome β Fault Refusal} {b : β} :
    andThen r f = .next b ↔ ∃ a s, r = .next (a, s) ∧ f a s = .next b := by
  rcases r with ⟨a, s⟩ | e | why
  · simp [andThen]
  · simp [andThen]
  · simp [andThen]

/-- A sequence ends in a fault in its first operation or in the rest. -/
theorem andThen_eq_fault {α β : Type} {r : Result α} {f : α → State → Host.Outcome β Fault Refusal}
    {e : Fault} :
    andThen r f = .fault e ↔ r = .fault e ∨ ∃ a s, r = .next (a, s) ∧ f a s = .fault e := by
  rcases r with ⟨a, s⟩ | e' | why
  · simp [andThen]
  · simp [andThen]
  · simp [andThen]

@[simp] theorem raise_ne_next {α : Type} (e : Exception) (s : State) (a : α) : raise e s ≠ .next a := by
  simp [raise]

/-! ### Properties of the state left behind -/

/-- `R` holds of every state the outcome leaves: the next state, and the one a fault leaves. -/
def Ensures {β : Type} (left : β → State) (R : State → Prop) : Host.Outcome β Fault Refusal → Prop
  | .next b => R (left b)
  | .fault (.exception _ s) => R s
  | .fault (.aliasingDeadlock s) => R s
  | .refused _ => True

@[simp] theorem ensures_next {β : Type} (left : β → State) (R : State → Prop) (b : β) :
    Ensures left R (.next b) ↔ R (left b) := Iff.rfl

@[simp] theorem ensures_raise {β : Type} (left : β → State) (R : State → Prop) (e : Exception) (s : State) :
    Ensures left R (raise e s) ↔ R s := Iff.rfl

@[simp] theorem ensures_deadlock {β : Type} (left : β → State) (R : State → Prop) (s : State) :
    Ensures left R (.fault (.aliasingDeadlock s)) ↔ R s := Iff.rfl

@[simp] theorem ensures_refused {β : Type} (left : β → State) (R : State → Prop) (why : Refusal) :
    Ensures left R (.refused why) := trivial

theorem Ensures.mono {β : Type} {left : β → State} {R R' : State → Prop} {o : Host.Outcome β Fault Refusal}
    (h : Ensures left R o) (hR : ∀ s, R s → R' s) : Ensures left R' o := by
  rcases o with b | e | why
  · exact hR _ h
  · cases e <;> exact hR _ h
  · trivial

/-- What the first operation ensures, and the rest ensures after every answer of it, the sequence ensures. -/
theorem ensures_andThen {α β : Type} {left : β → State} {R : State → Prop} {r : Result α}
    {f : α → State → Host.Outcome β Fault Refusal} (h : Ensures Prod.snd R r)
    (hf : ∀ a s, r = .next (a, s) → R s → Ensures left R (f a s)) : Ensures left R (andThen r f) := by
  rcases r with ⟨a, s⟩ | e | why
  · exact hf a s rfl h
  · cases e <;> exact h
  · trivial

theorem Ensures.next {β : Type} {left : β → State} {R : State → Prop} {o : Host.Outcome β Fault Refusal}
    {b : β} (h : Ensures left R o) (ho : o = .next b) : R (left b) := by
  subst ho; exact h

/-- `stateLeft` says the same of an instruction's outcome. -/
theorem Ensures.stateLeft {R : State → Prop} {o : Host.Outcome State Fault Refusal} {t : State}
    (h : Ensures id R o) (ho : stateLeft o = some t) : R t := by
  rcases o with b | e | why
  · simp only [Machine.stateLeft, Option.some.injEq] at ho; exact ho ▸ h
  · cases e <;> (simp only [Machine.stateLeft, Option.some.injEq] at ho; exact ho ▸ h)
  · simp [Machine.stateLeft] at ho

theorem ensures_iff_stateLeft {R : State → Prop} {o : Host.Outcome State Fault Refusal} :
    Ensures id R o ↔ ∀ t, stateLeft o = some t → R t := by
  refine ⟨fun h t ht => h.stateLeft ht, fun h => ?_⟩
  rcases o with b | e | why
  · exact h b rfl
  · cases e
    · exact h _ rfl
    · exact h _ rfl
  · trivial

/-! ### Registers kept -/

theorem SameRegisters.refl (s : State) : SameRegisters s s := rfl

theorem SameRegisters.trans {s t u : State} (h : SameRegisters s t) (h' : SameRegisters t u) :
    SameRegisters s u := by
  unfold SameRegisters at *
  rw [h] at h'
  exact h'

section
variable {s t : State} (h : SameRegisters s t)
include h

theorem SameRegisters.cfg : t.cfg = s.cfg := by rw [h]
theorem SameRegisters.gprs : t.gprs = s.gprs := by rw [h]
theorem SameRegisters.eip : t.eip = s.eip := by rw [h]
theorem SameRegisters.csBase : t.csBase = s.csBase := by rw [h]
theorem SameRegisters.eflags : t.eflags = s.eflags := by rw [h]
theorem SameRegisters.cr0 : t.cr0 = s.cr0 := by rw [h]
theorem SameRegisters.cr3 : t.cr3 = s.cr3 := by rw [h]
theorem SameRegisters.cr4 : t.cr4 = s.cr4 := by rw [h]
theorem SameRegisters.gdtr : t.gdtr = s.gdtr := by rw [h]
theorem SameRegisters.idtr : t.idtr = s.idtr := by rw [h]
theorem SameRegisters.ldtr : t.ldtr = s.ldtr := by rw [h]
theorem SameRegisters.tr : t.tr = s.tr := by rw [h]
theorem SameRegisters.es : t.es = s.es := by rw [h]
theorem SameRegisters.ds : t.ds = s.ds := by rw [h]
theorem SameRegisters.fs : t.fs = s.fs := by rw [h]
theorem SameRegisters.gs : t.gs = s.gs := by rw [h]
theorem SameRegisters.cpl : t.cpl = s.cpl := by rw [h]

theorem SameRegisters.readDataSeg (r : DataSeg) : Machine.readDataSeg t r = Machine.readDataSeg s r := by
  cases r
  · exact h.es
  · exact h.ds
  · exact h.fs
  · exact h.gs

end

end Sys2Proof.Machine
end

