-- ==== Sys2Proof/Laws/Translate.lean ====
section
/-! SUPPORT. What translation can do, said once (spec/43_translation_32bit.md R170, R190): every outcome leaves every register
as it was, sets at most A and D bits in memory, and keeps the invariant. -/

namespace Sys2Proof.Machine

/-- What translation may have done to the state: registers and the bytes stored to kept, at most A (and, for a write, D)
bits of memory set. -/
structure WalkEffect (acc : AccessKind) (s t : State) : Prop where
  same : SameRegisters s t
  written : t.written = s.written
  bits : OnlyBitsSet (walkMask acc) s.mem t.mem

theorem WalkEffect.refl (acc : AccessKind) (s : State) : WalkEffect acc s s :=
  ⟨SameRegisters.refl s, rfl, OnlyBitsSet.refl _ _⟩

theorem WalkEffect.trans {acc : AccessKind} {s t u : State} (h : WalkEffect acc s t)
    (h' : WalkEffect acc t u) : WalkEffect acc s u :=
  ⟨h.same.trans h'.same, h'.written.trans h.written, h.bits.trans h'.bits⟩

/-- The effect and, from a state with the invariant, the invariant. -/
def WalkKeeps (acc : AccessKind) (s t : State) : Prop := WalkEffect acc s t ∧ (Inv s → Inv t)

theorem WalkKeeps.refl (acc : AccessKind) (s : State) : WalkKeeps acc s s := ⟨WalkEffect.refl acc s, id⟩

theorem WalkKeeps.trans {acc : AccessKind} {s t u : State} (h : WalkKeeps acc s t)
    (h' : WalkKeeps acc t u) : WalkKeeps acc s u := ⟨h.1.trans h'.1, fun hi => h'.2 (h.2 hi)⟩

theorem walkKeeps_useChoices (acc : AccessKind) (s : State) (n : Nat) : WalkKeeps acc s (useChoices n s) :=
  ⟨⟨rfl, rfl, OnlyBitsSet.refl _ _⟩, fun h => h.useChoices n⟩

/-! ### Reading an entry -/

/-- An entry is read exactly when memory is there, and reading it changes nothing. -/
theorem readEntry_eq (addr : Word32) (s : State) :
    readEntry addr s =
      if mappedRange s.cfg addr.toNat 4 then .next (entryAt s addr.toNat, s)
      else .refused .noMemoryAtPhysicalAddress := by
  unfold readEntry physRead entryAt
  split <;> rfl

theorem readEntry_eq_next {addr : Word32} {s t : State} {e : Word32} :
    readEntry addr s = .next (e, t) ↔
      mappedRange s.cfg addr.toNat 4 = true ∧ e = entryAt s addr.toNat ∧ t = s := by
  rw [readEntry_eq]
  split
  · rename_i h
    simp only [Host.Outcome.next.injEq, Prod.mk.injEq, h, true_and]
    constructor <;> rintro ⟨rfl, rfl⟩ <;> exact ⟨rfl, rfl⟩
  · rename_i h
    simp [h]

theorem ensures_readEntry (acc : AccessKind) (addr : Word32) (s : State) :
    Ensures Prod.snd (WalkKeeps acc s) (readEntry addr s) := by
  rw [readEntry_eq]
  split
  · exact WalkKeeps.refl acc s
  · trivial

/-! ### Writing an entry -/

/-- An entry of `s`, written over a later memory with flags set, is within the effect. -/
theorem WalkKeeps.setEntry {acc : AccessKind} {s t : State} {addr : Word32} {e' : Word32}
    (h : WalkKeeps acc s t) (hr : mappedRange s.cfg addr.toNat 4 = true)
    (he : EntryBitsSet (walkMask acc) (entryAt s addr.toNat) e') (n : Nat) :
    WalkKeeps acc s { t with mem := writeBytes t.mem addr.toNat (leBytes 4 e'), choices := n } := by
  refine ⟨⟨?_, h.1.written, onlyBitsSet_writeEntry h.1.bits he⟩, fun hi => ?_⟩
  · have := h.1.same
    unfold SameRegisters at this ⊢
    rw [this]
  · exact (h.2 hi).writeMem _ _ (by simpa [h.1.same.cfg] using hr) n

theorem WalkKeeps.writeBack {acc : AccessKind} {s t : State} {addr : Word32} {e e' : Word32}
    (h : WalkKeeps acc s t) (hr : mappedRange s.cfg addr.toNat 4 = true)
    (he : EntryBitsSet (walkMask acc) (entryAt s addr.toNat) e') :
    WalkKeeps acc s (writeBack addr e e' t) := by
  unfold Machine.writeBack
  split
  · exact h
  · exact h.setEntry hr he t.choices

theorem WalkKeeps.maybeSetA {acc : AccessKind} {s t : State} {addr : Word32} {e : Word32}
    (h : WalkKeeps acc s t) (hr : mappedRange s.cfg addr.toNat 4 = true) (he : e = entryAt s addr.toNat) :
    WalkKeeps acc s (maybeSetA addr e t) := by
  have hb : EntryBitsSet (walkMask acc) (entryAt s addr.toNat) (setA e) := by
    rw [he]; exact entryBitsSet_setA acc _
  have h' : ∀ b : Bool, WalkKeeps acc s { t with
      mem := bif b then writeBytes t.mem addr.toNat (leBytes 4 (setA e)) else t.mem
      choices := t.choices + 1 } := by
    intro b
    cases b
    · exact h.trans (walkKeeps_useChoices acc t 1)
    · exact h.setEntry hr hb _
  unfold Machine.maybeSetA
  exact h' (Config.freeBool t.choices)

theorem WalkKeeps.maybeFill {acc : AccessKind} {s t : State} {e : TlbEntry} (h : WalkKeeps acc s t)
    (he : tlbEntryOk s.cfg e) : WalkKeeps acc s (maybeFill e t) := by
  refine ⟨⟨?_, h.1.written, h.1.bits⟩, fun hi => (h.2 hi).maybeFill e (h.1.same.cfg ▸ he)⟩
  have := h.1.same
  unfold SameRegisters at this ⊢
  rw [maybeFill_mem, maybeFill_tlb, maybeFill_written, maybeFill_choices]
  rw [this]
  rfl

/-! ### The flags of a written entry -/

theorem getLsbD_or_const (e c : Word32) (i : Nat) : (e ||| c).getLsbD i = (e.getLsbD i || c.getLsbD i) := by
  simp

@[simp] theorem pFlag_setA (e : Word32) : pFlag (setA e) = pFlag e := by
  simp [pFlag, setA]

@[simp] theorem aFlag_setA (e : Word32) : aFlag (setA e) = true := by
  simp [aFlag, setA]

@[simp] theorem psFlag_setA (e : Word32) : psFlag (setA e) = psFlag e := by
  simp [psFlag, setA]

@[simp] theorem pFlag_setD (acc : AccessKind) (e : Word32) : pFlag (setDOnWrite acc e) = pFlag e := by
  unfold setDOnWrite; split <;> simp [pFlag]

@[simp] theorem aFlag_setD (acc : AccessKind) (e : Word32) : aFlag (setDOnWrite acc e) = aFlag e := by
  unfold setDOnWrite; split <;> simp [aFlag]

@[simp] theorem psFlag_setD (acc : AccessKind) (e : Word32) : psFlag (setDOnWrite acc e) = psFlag e := by
  unfold setDOnWrite; split <;> simp [psFlag]

/-- Setting A touches no bit the reserved-bit test looks at. -/
@[simp] theorem reservedOk_setA (c : Config) (kind : EntryKind) (e : Word32) :
    reservedOk c kind (setA e) = reservedOk c kind e := by
  cases kind <;> simp [reservedOk, setA, gFlag, BitVec.extractLsb'_or]

/-- Setting D touches no bit the reserved-bit test of a final entry looks at. -/
theorem reservedOk_setD (c : Config) (kind : EntryKind) (hk : kind ≠ .pdePT) (acc : AccessKind) (e : Word32) :
    reservedOk c kind (setDOnWrite acc e) = reservedOk c kind e := by
  unfold setDOnWrite
  split
  · cases kind
    · exact absurd rfl hk
    · simp [reservedOk, gFlag]
    · simp [reservedOk, gFlag, BitVec.extractLsb'_or]
  · rfl

/-! ### The walk -/

theorem ensures_orDeadlock {α : Type} {acc : AccessKind} {s t : State} {differed : Bool}
    {normal : State → Result α} (h : WalkKeeps acc s t)
    (hn : ∀ u, WalkKeeps acc s u → Ensures Prod.snd (WalkKeeps acc s) (normal u)) :
    Ensures Prod.snd (WalkKeeps acc s) (orDeadlock differed t normal) := by
  unfold orDeadlock
  have h1 := h.trans (walkKeeps_useChoices acc t 1)
  cases differed
  · exact hn t h
  · cases Config.freeBool t.choices
    · exact hn _ h1
    · exact h1

theorem ensures_reservedFault {α : Type} {acc : AccessKind} {s t : State} {la : Word32} {priv : Priv}
    (h : WalkKeeps acc s t) :
    Ensures Prod.snd (WalkKeeps acc s) (reservedFault la acc priv t : Result α) := by
  unfold reservedFault
  split
  · exact h
  · trivial

theorem ensures_walkLarge {acc : AccessKind} {s : State} {la : Word32} {priv : Priv} {pdeAddr pde : Word32}
    (hr : mappedRange s.cfg pdeAddr.toNat 4 = true) (he : pde = entryAt s pdeAddr.toNat)
    (hp : pFlag pde = true) (hl : mapsLargePage s pde = true) :
    Ensures Prod.snd (WalkKeeps acc s) (walkLarge la acc priv pdeAddr pde s) := by
  unfold walkLarge
  have h0 := WalkKeeps.refl acc s
  split
  · exact ensures_reservedFault h0
  · rename_i hok
    split
    · exact h0.maybeSetA hr he
    · refine (h0.writeBack hr (he ▸ entryBitsSet_setDA acc pde)).maybeFill ⟨?_, ?_, ?_, ?_⟩
      · simpa using hp
      · simp
      · unfold mapsLargePage at hl
        simpa using (Bool.and_eq_true_iff.mp hl).2
      · rw [reservedOk_setD _ _ (by simp), reservedOk_setA]
        simpa using hok

theorem ensures_finishTableWalk {acc : AccessKind} {s : State} {la : Word32} {pdeAddr pde pteAddr pte : Word32}
    (hr : mappedRange s.cfg pdeAddr.toNat 4 = true) (he : pde = entryAt s pdeAddr.toNat)
    (hr' : mappedRange s.cfg pteAddr.toNat 4 = true) (he' : pte = entryAt s pteAddr.toNat)
    (hp : pFlag pde = true) (hp' : pFlag pte = true) (hok : reservedOk s.cfg .pdePT pde = true)
    (hok' : reservedOk s.cfg .pte4K pte = true) :
    Ensures Prod.snd (WalkKeeps acc s) (finishTableWalk la acc pdeAddr pde pteAddr pte s) := by
  unfold finishTableWalk
  have h0 := WalkKeeps.refl acc s
  refine ensures_orDeadlock ((h0.writeBack hr (he ▸ entryBitsSet_setA acc pde)).writeBack hr'
    (he' ▸ entryBitsSet_setDA acc pte)) fun u hu => hu.maybeFill ⟨?_, ?_, ?_, ?_, ?_, ?_⟩
  · simpa using hp
  · simp
  · simpa using hp'
  · simp
  · simpa using hok
  · rw [reservedOk_setD _ _ (by simp), reservedOk_setA]
    exact hok'

theorem ensures_walkTable {acc : AccessKind} {s : State} {la : Word32} {priv : Priv} {pdeAddr pde : Word32}
    (hr : mappedRange s.cfg pdeAddr.toNat 4 = true) (he : pde = entryAt s pdeAddr.toNat)
    (hp : pFlag pde = true) :
    Ensures Prod.snd (WalkKeeps acc s) (walkTable la acc priv pdeAddr pde s) := by
  unfold walkTable
  have h0 := WalkKeeps.refl acc s
  split
  · exact ensures_reservedFault h0
  · rename_i hok
    refine ensures_andThen (ensures_readEntry acc _ s) fun pte t ht _ => ?_
    obtain ⟨hr', he', rfl⟩ := readEntry_eq_next.mp ht
    have h1 := h0.maybeSetA hr he
    have hdead : ∀ cause before after, WalkKeeps acc t after →
        Ensures Prod.snd (WalkKeeps acc t) (raiseInTableWalk la acc priv cause before after) :=
      fun cause before after ha => ensures_orDeadlock ha fun u hu => hu
    split
    · exact hdead _ _ _ h1
    · rename_i hp'
      split
      · exact ensures_reservedFault h1
      · rename_i hok'
        split
        · exact hdead _ _ _ (h1.maybeSetA hr' he')
        · exact ensures_finishTableWalk hr he hr' he' hp (by simpa using hp') (by simpa using hok)
            (by simpa using hok')

/-- What a walk leaves, whatever its outcome. -/
theorem ensures_walk (acc : AccessKind) (s : State) (la : Word32) (priv : Priv) :
    Ensures Prod.snd (WalkKeeps acc s) (walk la acc priv s) := by
  unfold walk
  refine ensures_andThen (ensures_readEntry acc _ s) fun pde t ht _ => ?_
  obtain ⟨hr, he, rfl⟩ := readEntry_eq_next.mp ht
  split
  · exact WalkKeeps.refl acc t
  · rename_i hp
    have hp' : pFlag pde = true := by simpa using hp
    split
    · rename_i hl
      exact ensures_walkLarge hr he hp' hl
    · exact ensures_walkTable hr he hp'

/-- What translation leaves, whatever its outcome. -/
theorem ensures_translate (acc : AccessKind) (s : State) (la : Word32) (priv : Priv) :
    Ensures Prod.snd (WalkKeeps acc s) (translate la acc priv s) := by
  unfold translate
  split
  · exact WalkKeeps.refl acc s
  split
  · trivial
  · unfold translatePaged
    simp only
    have h := walkKeeps_useChoices acc s (tlbCandidates la acc s.tlb).length
    split
    · unfold translateByTlb
      split
      · exact h
      · exact h
    · exact (ensures_walk acc _ la priv).mono fun t ht => h.trans ht

/-- With paging off, translation is the identity and does nothing (R170, first arm). -/
theorem translate_paging_off {s : State} (h : pgFlag s.cr0 = false) (la : Word32) (acc : AccessKind)
    (priv : Priv) : translate la acc priv s = .next (la.zeroExtend 36, s) := by
  unfold translate
  rw [h]
  rfl

/-- The entry a hit uses is one of the candidates (20_memory.md R63). -/
theorem pickHit_mem {l : List TlbEntry} {n : Nat} {e : TlbEntry} (h : pickHit l n = some e) : e ∈ l := by
  induction l generalizing n with
  | nil => cases h
  | cons x l ih =>
    unfold pickHit at h
    cases hb : Config.freeBool n <;> rw [hb] at h
    · exact List.mem_cons_of_mem _ (ih h)
    · cases h
      exact List.mem_cons_self

/-! ### The walks that complete -/

/-- Where every double agrees, none differs (R189). -/
theorem doubledEntryDiffers_of_doublesAgree {s : State} {i : Nat} (h : DoublesAgree s i) :
    doubledEntryDiffers s i = false := by
  unfold doubledEntryDiffers
  rw [Bool.and_eq_false_iff]
  refine .inr (List.any_eq_false.mpr fun j hj hd => ?_)
  simp only [Bool.and_eq_true, bne_iff_ne, beq_iff_eq] at hd
  exact hd.2 (h j (List.mem_range.mp hj) hd.1.1.1 hd.1.1.2 hd.1.2)

/-- Without doubles there is nothing to differ (R188). -/
theorem NoDoubledEntry.doublesAgree {s : State} {i : Nat} (h : NoDoubledEntry s i) : DoublesAgree s i :=
  fun j hj hne hp he => absurd he (h j hj hne hp)

/-- What the end of the page-table arm answers when no doubled entry differs at any moment (R188, R189). -/
theorem finishTableWalk_plain {la pdeAddr pde pteAddr pte : Word32} {acc : AccessKind} {s : State}
    (h : doubledEntryDiffers s (directoryIndex la).toNat = false)
    (h1 : doubledEntryDiffers (writeBack pdeAddr pde (setA pde) s) (directoryIndex la).toNat = false)
    (h2 : doubledEntryDiffers (writeBack pteAddr pte (setDOnWrite acc (setA pte)) (writeBack pdeAddr pde (setA pde) s))
      (directoryIndex la).toNat = false) :
    finishTableWalk la acc pdeAddr pde pteAddr pte s =
      .next (smallPageAddress pte la,
        maybeFill (.page4K (la.extractLsb' 12 20) (setA pde) (setDOnWrite acc (setA pte)))
          (writeBack pteAddr pte (setDOnWrite acc (setA pte)) (writeBack pdeAddr pde (setA pde) s))) := by
  unfold finishTableWalk differedAt
  simp only [List.any_cons, List.any_nil, h, h1, h2, Bool.or_self]
  rfl

/-- A walk that passes its directory entry and reads a page-table entry is the rest of the page-table arm (R190). -/
theorem walk_eq_table {la pde pte : Word32} {acc : AccessKind} {priv : Priv} {s : State} (h : ReadsPageTable s la pde pte) :
    walk la acc priv s =
      let s1 := maybeSetA (pdeAddress s.cr3 la) pde s
      if !pFlag pte then raiseInTableWalk la acc priv .notPresent [s] s1
      else if !reservedOk s.cfg .pte4K pte then reservedFault la acc priv s1
      else if !pagePermits s.cfg priv acc (wpFlag s.cr0) (usFlag pde) (rwFlag pde) (some (usFlag pte, rwFlag pte)) then
        raiseInTableWalk la acc priv .protection [s, s1] (maybeSetA (pteAddress pde la) pte s1)
      else finishTableWalk la acc (pdeAddress s.cr3 la) pde (pteAddress pde la) pte s := by
  obtain ⟨hm, hpde, hp, hl, hr, hm', hpte⟩ := h
  unfold walk walkTable
  simp only [readEntry_eq, if_pos hm, if_pos hm', andThen_next, ← hpde, ← hpte, hp, hl, hr, Bool.not_true,
    Bool.false_eq_true, if_false]

/-- A permitted walk comes to its end. -/
theorem walk_eq_finish {la pde pte : Word32} {acc : AccessKind} {priv : Priv} {s : State} (h : ReadsPageTable s la pde pte)
    (h' : ChecksPageTable s acc priv pde pte true) :
    walk la acc priv s = finishTableWalk la acc (pdeAddress s.cr3 la) pde (pteAddress pde la) pte s := by
  rw [walk_eq_table h]
  simp only [h'.present, h'.reserved, h'.permission, Bool.not_true, Bool.false_eq_true, if_false]

end Sys2Proof.Machine
end

