-- ==== Sys2Proof/Laws/Access.lean ====
section
/-! SUPPORT. What a memory access can do, said once (spec/20_memory.md R52, R53; spec/60_exceptions.md R256). -/

namespace Sys2Proof.Machine

/-! ### Translation of a range -/

theorem ensures_translateParts (acc : AccessKind) (priv : Priv) (parts : List (Nat × Nat)) (s : State) :
    Ensures Prod.snd (WalkKeeps acc s) (translateParts acc priv parts s) := by
  induction parts generalizing s with
  | nil => exact WalkKeeps.refl acc s
  | cons p ps ih =>
    unfold translateParts
    refine ensures_andThen (ensures_translate acc s _ priv) fun pa t _ ht => ?_
    refine ensures_andThen ((ih t).mono fun u hu => ht.trans hu) fun places u _ hu => ?_
    exact hu

/-- What the translation of a range leaves, whatever its outcome. -/
theorem ensures_translateRange (addr n : Nat) (acc : AccessKind) (priv : Priv) (s : State) :
    Ensures Prod.snd (WalkKeeps acc s) (translateRange addr n acc priv s) := by
  unfold translateRange
  split
  · trivial
  · exact ensures_translateParts acc priv _ s

theorem translateParts_sizes {acc : AccessKind} {priv : Priv} {parts places : List (Nat × Nat)} {s t : State}
    (h : translateParts acc priv parts s = .next (places, t)) :
    places.map Prod.snd = parts.map Prod.snd := by
  induction parts generalizing s t places with
  | nil =>
    simp only [translateParts, Host.Outcome.next.injEq, Prod.mk.injEq] at h
    rw [← h.1]
  | cons p ps ih =>
    unfold translateParts at h
    obtain ⟨pa, u, _, h⟩ := andThen_eq_next.mp h
    obtain ⟨rest, v, hr, h⟩ := andThen_eq_next.mp h
    simp only [Host.Outcome.next.injEq, Prod.mk.injEq] at h
    rw [← h.1, List.map_cons, List.map_cons, ih hr]

theorem blocks_size (addr n : Nat) : ((blocks addr n).map Prod.snd).sum = n := by
  unfold blocks
  split
  · simp
  · rename_i h
    simp only [List.map_cons, List.map_nil, List.sum_cons, List.sum_nil]
    omega

/-- The places of a range hold as many bytes as the range. -/
theorem translateRange_size {addr n : Nat} {acc : AccessKind} {priv : Priv} {places : List (Nat × Nat)}
    {s t : State} (h : translateRange addr n acc priv s = .next (places, t)) :
    (places.map Prod.snd).sum = n := by
  unfold translateRange at h
  split at h
  · exact absurd h (by simp)
  · rw [translateParts_sizes h, blocks_size]

theorem translateParts_paging_off {s : State} (h : pgFlag s.cr0 = false) (acc : AccessKind) (priv : Priv)
    (parts : List (Nat × Nat)) (hp : ∀ p ∈ parts, p.1 < 2 ^ 32) :
    translateParts acc priv parts s = .next (parts, s) := by
  induction parts with
  | nil => rfl
  | cons p ps ih =>
    unfold translateParts
    rw [translate_paging_off h, andThen_next, ih fun q hq => hp q (by simp [hq]), andThen_next]
    have hlt := hp p (by simp)
    have : (BitVec.zeroExtend 36 (BitVec.ofNat 32 p.1)).toNat = p.1 := by
      simp only [BitVec.toNat_setWidth, BitVec.toNat_ofNat]
      omega
    rw [this]

/-- With paging off a range is its own place (43_translation_32bit.md R170). -/
theorem translateRange_paging_off {s : State} (h : pgFlag s.cr0 = false) {addr n : Nat} (hn : 0 < n)
    (hr : addr + n ≤ 2 ^ 32) (acc : AccessKind) (priv : Priv) :
    translateRange addr n acc priv s = .next (blocks addr n, s) := by
  unfold translateRange
  rw [if_neg (by omega), translateParts_paging_off h]
  intro p hp
  unfold blocks at hp
  split at hp
  · simp only [List.mem_singleton] at hp
    subst hp
    simp only
    omega
  · simp only [List.mem_cons, List.not_mem_nil, or_false] at hp
    rcases hp with rfl | rfl
    · simp only; omega
    · simp only; omega

/-! ### Bytes at places -/

theorem physRead_eq (pa n : Nat) (s : State) :
    physRead pa n s =
      if mappedRange s.cfg pa n then .next (readBytes s.mem pa n, s) else .refused .noMemoryAtPhysicalAddress :=
  rfl

theorem physWrite_eq (pa : Nat) (bs : List Byte) (s : State) :
    physWrite pa bs s =
      if mappedRange s.cfg pa bs.length then .next ((), storeData pa bs s)
      else .refused .noMemoryAtPhysicalAddress :=
  rfl

/-- Places are read whole when every byte holds memory, and refused otherwise. -/
theorem readPlaces_eq (places : List (Nat × Nat)) (s : State) :
    readPlaces places s =
      if placesMapped s.cfg places then .next (placesBytes s.mem places, s)
      else .refused .noMemoryAtPhysicalAddress := by
  induction places with
  | nil => rfl
  | cons p ps ih =>
    unfold readPlaces
    rw [physRead_eq]
    by_cases h : mappedRange s.cfg p.1 p.2 = true
    · rw [if_pos h, andThen_next, ih]
      by_cases h' : placesMapped s.cfg ps = true
      · have : placesMapped s.cfg (p :: ps) = true := by
          unfold placesMapped at h' ⊢
          simp [h, h']
        rw [if_pos h', if_pos this]
        rfl
      · have : ¬ placesMapped s.cfg (p :: ps) = true := by
          unfold placesMapped at h' ⊢
          simpa [h] using h'
        rw [if_neg h', if_neg this]
        rfl
    · have : ¬ placesMapped s.cfg (p :: ps) = true := by
        unfold placesMapped
        simp [h]
      rw [if_neg h, if_neg this]
      rfl

@[simp] theorem storePlaces_cfg (places : List (Nat × Nat)) (bs : List Byte) (s : State) :
    (storePlaces places bs s).cfg = s.cfg := by
  induction places generalizing bs s with
  | nil => rfl
  | cons p ps ih =>
    unfold storePlaces
    rw [ih]
    rfl

/-- Bytes are stored to places when every byte holds memory, and refused otherwise. -/
theorem writePlaces_eq (places : List (Nat × Nat)) (bs : List Byte) (s : State)
    (h : (places.map Prod.snd).sum = bs.length) :
    writePlaces places bs s =
      if placesMapped s.cfg places then .next ((), storePlaces places bs s)
      else .refused .noMemoryAtPhysicalAddress := by
  induction places generalizing bs s with
  | nil => rfl
  | cons p ps ih =>
    have hlen : (bs.take p.2).length = p.2 := by
      simp only [List.map_cons, List.sum_cons] at h
      simp only [List.length_take]
      omega
    have hrest : (ps.map Prod.snd).sum = (bs.drop p.2).length := by
      simp only [List.map_cons, List.sum_cons] at h
      simp only [List.length_drop]
      omega
    unfold writePlaces
    rw [physWrite_eq, hlen]
    by_cases hm : mappedRange s.cfg p.1 p.2 = true
    · rw [if_pos hm, andThen_next, ih _ _ hrest]
      by_cases h' : placesMapped s.cfg ps = true
      · have : placesMapped s.cfg (p :: ps) = true := by
          unfold placesMapped at h' ⊢
          simp [hm, h']
        rw [if_pos (by simpa using h'), if_pos this]
        rfl
      · have : ¬ placesMapped s.cfg (p :: ps) = true := by
          unfold placesMapped at h' ⊢
          simpa [hm] using h'
        rw [if_neg (by simpa using h'), if_neg this]
    · have : ¬ placesMapped s.cfg (p :: ps) = true := by
        unfold placesMapped
        simp [hm]
      rw [if_neg hm, if_neg this]
      rfl

/-- A store to places changes no register. -/
theorem sameRegisters_storePlaces (places : List (Nat × Nat)) (bs : List Byte) (s : State) :
    SameRegisters s (storePlaces places bs s) := by
  induction places generalizing bs s with
  | nil => rfl
  | cons p ps ih => exact SameRegisters.trans (t := storeData p.1 (bs.take p.2) s) rfl (ih _ _)

@[simp] theorem storePlaces_tlb (places : List (Nat × Nat)) (bs : List Byte) (s : State) :
    (storePlaces places bs s).tlb = s.tlb := by
  induction places generalizing bs s with
  | nil => rfl
  | cons p ps ih =>
    unfold storePlaces
    rw [ih]
    rfl

@[simp] theorem storePlaces_choices (places : List (Nat × Nat)) (bs : List Byte) (s : State) :
    (storePlaces places bs s).choices = s.choices := by
  induction places generalizing bs s with
  | nil => rfl
  | cons p ps ih =>
    unfold storePlaces
    rw [ih]
    rfl

/-- A store to places leaves every other byte alone. -/
theorem memByte_storePlaces_other (places : List (Nat × Nat)) (bs : List Byte) (s : State) (a : Nat)
    (h : ¬ InPlaces places a) : memByte (storePlaces places bs s).mem a = memByte s.mem a := by
  induction places generalizing bs s with
  | nil => rfl
  | cons p ps ih =>
    unfold storePlaces
    rw [ih _ _ fun ⟨q, hq, hr⟩ => h ⟨q, List.mem_cons_of_mem _ hq, hr⟩]
    refine memByte_writeBytes_other _ _ _ _ ?_
    by_contra hc
    refine h ⟨p, List.mem_cons_self, ?_⟩
    have : (bs.take p.2).length ≤ p.2 := by simp
    omega

/-- A store to places that hold memory keeps the invariant. -/
theorem Inv.storePlaces {s : State} (h : Inv s) (places : List (Nat × Nat)) (bs : List Byte)
    (hm : placesMapped s.cfg places = true) : Inv (storePlaces places bs s) := by
  induction places generalizing bs s with
  | nil => exact h
  | cons p ps ih =>
    have hm' : mappedRange s.cfg p.1 p.2 = true ∧ placesMapped s.cfg ps = true := by
      unfold placesMapped at hm ⊢
      simpa using hm
    refine ih (h.storeData p.1 (bs.take p.2) ?_) _ hm'.2
    unfold mappedRange at hm' ⊢
    refine List.all_eq_true.mpr fun k hk => List.all_eq_true.mp hm'.1 k ?_
    simp only [List.mem_range, List.length_take] at hk ⊢
    omega

/-! ### Reads and writes -/

/-- `MemRead` in one line. -/
theorem memRead_eq (addr n : Nat) (s : State) :
    memRead addr n s =
      andThen (translateRange addr n .read (currentPriv s) s) fun places t =>
        if alignmentFaults addr n t then raise (.alignmentCheck 0#16) t
        else if placesMapped t.cfg places then .next (placesBytes t.mem places, t)
        else .refused .noMemoryAtPhysicalAddress := by
  unfold memRead alignCheck
  congr 1
  funext places t
  rw [readPlaces_eq]

/-- `MemWrite` in one line. -/
theorem memWrite_eq (addr : Nat) (bs : List Byte) (s : State) :
    memWrite addr bs s =
      andThen (translateRange addr bs.length .write (currentPriv s) s) fun places t =>
        if alignmentFaults addr bs.length t then raise (.alignmentCheck 0#16) t
        else if placesMapped t.cfg places then .next (places, storePlaces places bs t)
        else .refused .noMemoryAtPhysicalAddress := by
  unfold memWrite alignCheck
  rcases ht : translateRange addr bs.length .write (currentPriv s) s with ⟨places, t⟩ | e | why
  · simp only [andThen_next]
    rw [writePlaces_eq _ _ _ (translateRange_size ht)]
    split
    · rfl
    · split <;> rfl
  · rfl
  · rfl

theorem alignmentFaults_of_same {s t : State} (h : SameRegisters s t) (addr n : Nat) :
    alignmentFaults addr n t = alignmentFaults addr n s := by
  unfold alignmentFaults alignCheckOn
  rw [h.cfg, h.cr0, h.cr4, h.eflags, h.cpl]

/-- What a read leaves, whatever its outcome. -/
theorem ensures_memRead (addr n : Nat) (s : State) :
    Ensures Prod.snd (WalkKeeps .read s) (memRead addr n s) := by
  rw [memRead_eq]
  refine ensures_andThen (ensures_translateRange addr n .read _ s) fun places t _ ht => ?_
  split
  · exact ht
  · split
    · exact ht
    · trivial

/-- Registers kept and, from a state with the invariant, the invariant. -/
def Keeps (s t : State) : Prop := SameRegisters s t ∧ (Inv s → Inv t)

theorem Keeps.refl (s : State) : Keeps s s := ⟨SameRegisters.refl s, id⟩

theorem Keeps.trans {s t u : State} (h : Keeps s t) (h' : Keeps t u) : Keeps s u :=
  ⟨h.1.trans h'.1, fun hi => h'.2 (h.2 hi)⟩

theorem WalkKeeps.keeps {acc : AccessKind} {s t : State} (h : WalkKeeps acc s t) : Keeps s t := ⟨h.1.same, h.2⟩

/-- What a write leaves, whatever its outcome. -/
theorem ensures_memWrite (addr : Nat) (bs : List Byte) (s : State) :
    Ensures Prod.snd (Keeps s) (memWrite addr bs s) := by
  rw [memWrite_eq]
  refine ensures_andThen ((ensures_translateRange addr bs.length .write _ s).mono fun t ht => ht.keeps)
    fun places t _ ht => ?_
  split
  · exact ht
  · split
    · rename_i hm
      exact ⟨ht.1.trans (sameRegisters_storePlaces places bs t), fun hi => (ht.2 hi).storePlaces places bs hm⟩
    · trivial

/-- When a read answers. -/
theorem memRead_eq_next {addr n : Nat} {s t : State} {bs : List Byte} :
    memRead addr n s = .next (bs, t) ↔
      ∃ places, TranslatedAccess s addr n .read places t ∧ bs = placesBytes t.mem places := by
  rw [memRead_eq, andThen_eq_next]
  constructor
  · rintro ⟨places, u, hu, h⟩
    have hs := ((ensures_translateRange addr n .read _ s).next hu).1.same
    simp only at hs
    rw [alignmentFaults_of_same hs, hs.cfg] at h
    split at h
    · exact absurd h (by simp)
    · rename_i ha
      split at h
      · rename_i hm
        simp only [Host.Outcome.next.injEq, Prod.mk.injEq] at h
        obtain ⟨rfl, rfl⟩ := h
        exact ⟨places, ⟨hu, hm, by simpa using ha⟩, rfl⟩
      · exact absurd h (by simp)
  · rintro ⟨places, ⟨hu, hm, ha⟩, rfl⟩
    have hs := ((ensures_translateRange addr n .read _ s).next hu).1.same
    simp only at hs
    refine ⟨places, t, hu, ?_⟩
    rw [alignmentFaults_of_same hs, hs.cfg, ha, hm]
    rfl

/-- When a write answers. -/
theorem memWrite_eq_next {addr : Nat} {bs : List Byte} {s t : State} {places : List (Nat × Nat)} :
    memWrite addr bs s = .next (places, t) ↔
      ∃ s1, TranslatedAccess s addr bs.length .write places s1 ∧ t = storePlaces places bs s1 := by
  rw [memWrite_eq, andThen_eq_next]
  constructor
  · rintro ⟨places', u, hu, h⟩
    have hs := ((ensures_translateRange addr bs.length .write _ s).next hu).1.same
    simp only at hs
    rw [alignmentFaults_of_same hs, hs.cfg] at h
    split at h
    · exact absurd h (by simp)
    · rename_i ha
      split at h
      · rename_i hm
        simp only [Host.Outcome.next.injEq, Prod.mk.injEq] at h
        obtain ⟨rfl, rfl⟩ := h
        exact ⟨u, ⟨hu, hm, by simpa using ha⟩, rfl⟩
      · exact absurd h (by simp)
  · rintro ⟨s1, ⟨hu, hm, ha⟩, rfl⟩
    have hs := ((ensures_translateRange addr bs.length .write _ s).next hu).1.same
    simp only at hs
    refine ⟨places, s1, hu, ?_⟩
    rw [alignmentFaults_of_same hs, hs.cfg, ha, hm]
    rfl

/-! ### With paging off -/

theorem readBytes_append (m : Memory) (a n k : Nat) :
    readBytes m a (n + k) = readBytes m a n ++ readBytes m (a + n) k := by
  induction n generalizing a with
  | zero => simp [readBytes]
  | succ n ih =>
    rw [show n + 1 + k = (n + k) + 1 from by omega]
    simp only [readBytes, List.cons_append]
    rw [ih, show a + 1 + n = a + (n + 1) from by omega]

theorem placesBytes_blocks (m : Memory) (addr n : Nat) :
    placesBytes m (blocks addr n) = readBytes m addr n := by
  unfold blocks
  split
  · simp [placesBytes]
  · rename_i h
    simp only [placesBytes, List.append_nil]
    rw [← readBytes_append]
    congr 1
    omega

theorem writeBytes_append (m : Memory) (a : Nat) (bs cs : List Byte) :
    writeBytes m a (bs ++ cs) = writeBytes (writeBytes m a bs) (a + bs.length) cs := by
  induction bs generalizing m a with
  | nil => rfl
  | cons b bs ih =>
    simp only [List.cons_append, writeBytes, ih, List.length_cons]
    congr 1
    omega

theorem markWritten_add (a n k : Nat) (w : List Nat) :
    markWritten a (n + k) w = markWritten (a + n) k (markWritten a n w) := by
  induction n generalizing a w with
  | zero => simp [markWritten]
  | succ n ih =>
    rw [show n + 1 + k = (n + k) + 1 from by omega]
    simp only [markWritten]
    rw [ih, show a + 1 + n = a + (n + 1) from by omega]

theorem storeData_append (pa : Nat) (bs cs : List Byte) (s : State) :
    storeData pa (bs ++ cs) s = storeData (pa + bs.length) cs (storeData pa bs s) := by
  unfold storeData
  simp only [List.length_append, writeBytes_append, markWritten_add]

theorem storePlaces_blocks (addr : Nat) (bs : List Byte) (s : State) :
    storePlaces (blocks addr bs.length) bs s = storeData addr bs s := by
  unfold blocks
  split
  · simp [storePlaces]
  · rename_i h
    generalize hk : 4096 - addr % 4096 = k at *
    have hkl : k ≤ bs.length := by omega
    simp only [storePlaces]
    have h1 : (bs.take k).length = k := by simp [hkl]
    have h2 : (bs.drop k).take (bs.length - k) = bs.drop k := by
      apply List.take_of_length_le; simp
    rw [h2]
    conv_rhs => rw [← List.take_append_drop k bs, storeData_append, h1]

theorem placesMapped_blocks (c : Config) (addr n : Nat) :
    placesMapped c (blocks addr n) = mappedRange c addr n := by
  unfold blocks placesMapped
  split
  · simp
  · rename_i h
    generalize hk : 4096 - addr % 4096 = k at *
    rw [Bool.eq_iff_iff]
    simp only [List.all_cons, List.all_nil, Bool.and_true, Bool.and_eq_true, mappedRange, List.all_eq_true,
      List.mem_range]
    constructor
    · rintro ⟨h1, h2⟩ j hj
      by_cases hjk : j < k
      · exact h1 j hjk
      · have := h2 (j - k) (by omega)
        rwa [show addr + k + (j - k) = addr + j from by omega] at this
    · intro hall
      refine ⟨fun j hj => hall j (by omega), fun j hj => ?_⟩
      have := hall (k + j) (by omega)
      rwa [show addr + (k + j) = addr + k + j from by omega] at this

theorem PlainAccess.translated {s : State} {addr n : Nat} (h : PlainAccess s addr n) (hn : 0 < n)
    (acc : AccessKind) : TranslatedAccess s addr n acc (blocks addr n) s :=
  ⟨translateRange_paging_off h.pagingOff hn h.noWrap acc _, by rw [placesMapped_blocks]; exact h.inMemory,
    h.aligned⟩

/-- A read with paging off. -/
theorem memRead_plain {s : State} {addr n : Nat} (h : PlainAccess s addr n) (hn : 0 < n) :
    memRead addr n s = .next (readBytes s.mem addr n, s) :=
  memRead_eq_next.mpr ⟨_, h.translated hn .read, (placesBytes_blocks _ _ _).symm⟩

/-- A write with paging off. -/
theorem memWrite_plain {s : State} {addr : Nat} {bs : List Byte} (h : PlainAccess s addr bs.length)
    (hn : 0 < bs.length) : memWrite addr bs s = .next (blocks addr bs.length, storeData addr bs s) :=
  memWrite_eq_next.mpr ⟨s, h.translated hn .write, (storePlaces_blocks addr bs s).symm⟩

end Sys2Proof.Machine
end

