-- ==== Sys2Proof/Laws/Decode.lean ====
section
/-! SUPPORT. Decoding decides in order (spec/30_encoding.md R84): what a byte sequence has decided, more bytes after it do not
change, and eight bytes decide. -/

namespace Sys2Proof

/-- More bytes change neither a value parsed nor a refusal. -/
structure Stable {α : Type} (p : List Byte → Parsed α) : Prop where
  done : ∀ bs a rest more, p bs = .done a rest → p (bs ++ more) = .done a (rest ++ more)
  refused : ∀ bs why more, p bs = .refused why → p (bs ++ more) = .refused why

theorem stable_done {α : Type} (a : α) : Stable fun bs => .done a bs :=
  ⟨fun bs x rest more h => by
    injection h with h1 h2
    rw [h1, h2], fun bs why more h => by injection h⟩

theorem stable_refused {α : Type} (why : DecodeError) : Stable fun _ => (.refused why : Parsed α) :=
  ⟨fun bs x rest more h => by injection h, fun bs why more h => h⟩

theorem stable_takeByte : Stable takeByte := by
  refine ⟨fun bs a rest more h => ?_, fun bs why more h => ?_⟩
  · cases bs with
    | nil => exact absurd h (by simp [takeByte])
    | cons b bs =>
      simp only [takeByte, Parsed.done.injEq] at h
      simp [takeByte, h.1, h.2]
  · cases bs <;> exact absurd h (by simp [takeByte])

theorem stable_takeDword : Stable takeDword := by
  refine ⟨fun bs a rest more h => ?_, fun bs why more h => ?_⟩
  · match bs, h with
    | b0 :: b1 :: b2 :: b3 :: bs, h =>
      simp only [takeDword, Parsed.done.injEq] at h
      simp [takeDword, ← h.1, h.2]
  · match bs, h with
    | [], h => exact absurd h (by simp [takeDword])
    | [_], h => exact absurd h (by simp [takeDword])
    | [_, _], h => exact absurd h (by simp [takeDword])
    | [_, _, _], h => exact absurd h (by simp [takeDword])
    | _ :: _ :: _ :: _ :: _, h => exact absurd h (by simp [takeDword])

theorem stable_andThen {α β : Type} {p : List Byte → Parsed α} {f : α → List Byte → Parsed β} (hp : Stable p)
    (hf : ∀ a, Stable (f a)) : Stable fun bs => (p bs).andThen f := by
  refine ⟨fun bs b rest more h => ?_, fun bs why more h => ?_⟩
  · rcases hb : p bs with ⟨a, r⟩ | _ | why
    · simp only [hb, Parsed.andThen] at h
      simp only [hp.done bs a r more hb, Parsed.andThen]
      exact (hf a).done r b rest more h
    · simp [hb, Parsed.andThen] at h
    · simp [hb, Parsed.andThen] at h
  · rcases hb : p bs with ⟨a, r⟩ | _ | w
    · simp only [hb, Parsed.andThen] at h
      simp only [hp.done bs a r more hb, Parsed.andThen]
      exact (hf a).refused r why more h
    · simp [hb, Parsed.andThen] at h
    · simp only [hb, Parsed.andThen] at h
      simp only [hp.refused bs w more hb, Parsed.andThen]
      exact h

theorem stable_ite {α : Type} {c : Prop} [Decidable c] {p q : List Byte → Parsed α} (hp : Stable p)
    (hq : Stable q) : Stable fun bs => if c then p bs else q bs := by
  by_cases h : c
  · simpa only [if_pos h] using hp
  · simpa only [if_neg h] using hq

theorem stable_parseMem (modrm : Byte) : Stable (parseMem modrm) := by
  unfold parseMem parseSib
  refine stable_ite (stable_andThen stable_takeByte fun sib => ?_) ?_
  · refine stable_ite (stable_ite ?_ (stable_done _)) (stable_ite ?_ ?_)
    · exact stable_andThen stable_takeDword fun d => stable_done _
    · exact stable_andThen stable_takeByte fun d => stable_done _
    · exact stable_andThen stable_takeDword fun d => stable_done _
  · refine stable_ite (stable_ite ?_ (stable_done _)) (stable_ite ?_ ?_)
    · exact stable_andThen stable_takeDword fun d => stable_done _
    · exact stable_andThen stable_takeByte fun d => stable_done _
    · exact stable_andThen stable_takeDword fun d => stable_done _

theorem stable_parseMemOnly (modrm : Byte) (f : Mem → Instr) : Stable fun bs => parseMemOnly modrm bs f :=
  stable_ite (stable_refused _) (stable_andThen (stable_parseMem modrm) fun _ => stable_done _)

theorem stable_parseRegMem (modrm : Byte) (f : RegMem → Instr) : Stable fun bs => parseRegMem modrm bs f :=
  stable_ite (stable_done _) (stable_andThen (stable_parseMem modrm) fun _ => stable_done _)

theorem stable_parseRegOnly (modrm : Byte) (f : Reg → Instr) : Stable fun bs => parseRegOnly modrm bs f :=
  stable_ite (stable_done _) (stable_refused _)

theorem stable_parseTwoByte (op : Byte) : Stable (parseTwoByte op) := by
  refine stable_ite (stable_andThen stable_takeByte fun b => ?_)
    (stable_ite (stable_andThen stable_takeByte fun b => ?_)
      (stable_ite (stable_andThen stable_takeByte fun b => ?_)
        (stable_ite (stable_andThen stable_takeByte fun b => ?_) (stable_ite (stable_done _) (stable_refused _)))))
  · exact stable_ite (stable_parseRegMem _ _) (stable_ite (stable_parseRegMem _ _) (stable_refused _))
  · exact stable_ite (stable_parseMemOnly _ _)
      (stable_ite (stable_parseMemOnly _ _) (stable_ite (stable_parseMemOnly _ _) (stable_refused _)))
  · exact stable_ite (stable_parseRegOnly _ _)
      (stable_ite (stable_parseRegOnly _ _) (stable_ite (stable_parseRegOnly _ _) (stable_refused _)))
  · exact stable_ite (stable_parseRegOnly _ _)
      (stable_ite (stable_parseRegOnly _ _) (stable_ite (stable_parseRegOnly _ _) (stable_refused _)))

theorem stable_parseMovSreg (modrm : Byte) : Stable (parseMovSreg modrm) := by
  unfold parseMovSreg
  cases dataSegOfBits (regField modrm) with
  | some sreg => exact stable_parseRegMem _ _
  | none => exact stable_refused _

/-- What a byte sequence has decided, more bytes after it do not change. -/
theorem stable_decode : Stable decode := by
  refine stable_andThen stable_takeByte fun op => ?_
  unfold parseOpcode
  refine stable_ite (stable_andThen stable_takeByte fun b => stable_parseTwoByte b)
    (stable_ite (stable_andThen stable_takeByte fun b => stable_parseMovSreg b)
      (stable_ite ?_ (stable_ite ?_ (stable_ite ?_ (stable_ite ?_ (stable_refused _))))))
  · exact stable_andThen stable_takeDword fun d => stable_done _
  · exact stable_andThen stable_takeDword fun d => stable_done _
  · exact stable_andThen stable_takeDword fun d => stable_done _
  · exact stable_andThen stable_takeDword fun d => stable_done _

/-! ### How many bytes decide -/

/-- `n` bytes decide. -/
def Decides {α : Type} (n : Nat) (p : List Byte → Parsed α) : Prop := ∀ bs, n ≤ bs.length → p bs ≠ .incomplete

theorem decides_mono {α : Type} {n k : Nat} {p : List Byte → Parsed α} (h : Decides n p) (hk : n ≤ k) : Decides k p :=
  fun bs hb => h bs (by omega)

theorem decides_done {α : Type} (n : Nat) (a : α) : Decides n fun bs => .done a bs := fun _ _ h => by cases h

theorem decides_refused {α : Type} (n : Nat) (why : DecodeError) : Decides n fun _ => (.refused why : Parsed α) :=
  fun _ _ h => by cases h

theorem decides_ite {α : Type} {n : Nat} {c : Prop} [Decidable c] {p q : List Byte → Parsed α} (hp : Decides n p)
    (hq : Decides n q) : Decides n fun bs => if c then p bs else q bs := by
  by_cases h : c
  · simpa only [if_pos h] using hp
  · simpa only [if_neg h] using hq

theorem decides_takeByte {α : Type} {n : Nat} {f : Byte → List Byte → Parsed α} (hf : ∀ b, Decides n (f b)) :
    Decides (n + 1) fun bs => (takeByte bs).andThen f := by
  intro bs hb
  match bs, hb with
  | b :: rest, hb => exact hf b rest (by simpa using hb)

theorem decides_takeDword {α : Type} {n : Nat} {f : Word32 → List Byte → Parsed α} (hf : ∀ d, Decides n (f d)) :
    Decides (n + 4) fun bs => (takeDword bs).andThen f := by
  intro bs hb
  match bs, hb with
  | b0 :: b1 :: b2 :: b3 :: rest, hb => exact hf _ rest (by simpa using hb)
  | [], hb => simp at hb
  | [_], hb => simp at hb
  | [_, _], hb => simp at hb
  | [_, _, _], hb => simp at hb

theorem decides_andThen_done {α β : Type} {n : Nat} {p : List Byte → Parsed α} (hp : Decides n p) (f : α → β) :
    Decides n fun bs => (p bs).andThen fun a rest => .done (f a) rest := by
  intro bs hb h
  rcases hd : p bs with ⟨a, r⟩ | _ | why
  · simp [hd, Parsed.andThen] at h
  · exact hp bs hb hd
  · simp [hd, Parsed.andThen] at h

theorem decides_parseMem (modrm : Byte) : Decides 5 (parseMem modrm) := by
  unfold parseMem parseSib
  refine decides_ite (decides_takeByte (n := 4) fun sib => ?_) ?_
  · exact decides_ite (decides_ite (decides_takeDword (n := 0) fun _ => decides_done _ _) (decides_done _ _))
      (decides_ite (decides_mono (decides_takeByte (n := 0) fun _ => decides_done _ _) (by omega))
        (decides_takeDword (n := 0) fun _ => decides_done _ _))
  · exact decides_ite
      (decides_ite (decides_mono (decides_takeDword (n := 0) fun _ => decides_done _ _) (by omega)) (decides_done _ _))
      (decides_ite (decides_mono (decides_takeByte (n := 0) fun _ => decides_done _ _) (by omega))
        (decides_mono (decides_takeDword (n := 0) fun _ => decides_done _ _) (by omega)))

theorem decides_parseMemOnly (modrm : Byte) (f : Mem → Instr) : Decides 5 fun bs => parseMemOnly modrm bs f :=
  decides_ite (decides_refused _ _) (decides_andThen_done (decides_parseMem modrm) f)

theorem decides_parseRegMem (modrm : Byte) (f : RegMem → Instr) : Decides 5 fun bs => parseRegMem modrm bs f :=
  decides_ite (decides_done _ _) (decides_andThen_done (decides_parseMem modrm) fun m => f (.mem m))

theorem decides_parseRegOnly (n : Nat) (modrm : Byte) (f : Reg → Instr) : Decides n fun bs => parseRegOnly modrm bs f :=
  decides_ite (decides_done _ _) (decides_refused _ _)

theorem decides_parseTwoByte (op : Byte) : Decides 6 (parseTwoByte op) := by
  refine decides_ite (decides_takeByte (n := 5) fun b => ?_)
    (decides_ite (decides_takeByte (n := 5) fun b => ?_)
      (decides_ite (decides_takeByte (n := 5) fun b => ?_)
        (decides_ite (decides_takeByte (n := 5) fun b => ?_) (decides_ite (decides_done _ _) (decides_refused _ _)))))
  · exact decides_ite (decides_parseRegMem _ _) (decides_ite (decides_parseRegMem _ _) (decides_refused _ _))
  · exact decides_ite (decides_parseMemOnly _ _)
      (decides_ite (decides_parseMemOnly _ _) (decides_ite (decides_parseMemOnly _ _) (decides_refused _ _)))
  · exact decides_ite (decides_parseRegOnly _ _ _)
      (decides_ite (decides_parseRegOnly _ _ _) (decides_ite (decides_parseRegOnly _ _ _) (decides_refused _ _)))
  · exact decides_ite (decides_parseRegOnly _ _ _)
      (decides_ite (decides_parseRegOnly _ _ _) (decides_ite (decides_parseRegOnly _ _ _) (decides_refused _ _)))

theorem decides_parseMovSreg (modrm : Byte) : Decides 5 (parseMovSreg modrm) := by
  unfold parseMovSreg
  cases dataSegOfBits (regField modrm) with
  | some sreg => exact decides_parseRegMem _ _
  | none => exact decides_refused _ _

/-- As many bytes as the longest instruction has decide. -/
theorem decides_decode : Decides maxInstrLength decode := by
  refine decides_takeByte (n := 7) fun op => ?_
  unfold parseOpcode
  refine decides_ite (decides_takeByte (n := 6) fun b => decides_parseTwoByte b)
    (decides_ite (decides_mono (decides_takeByte (n := 5) fun b => decides_parseMovSreg b) (by omega))
      (decides_ite ?_ (decides_ite ?_ (decides_ite ?_ (decides_ite ?_ (decides_refused _ _)))))) <;>
    exact decides_mono (decides_takeDword (n := 0) fun _ => decides_done _ _) (by omega)

end Sys2Proof
end

