-- ==== Sys2Proof/Laws/Operands.lean ====
section
/-! SUPPORT. What an operand, a stored selector and a stored pseudo-descriptor can do, said once (spec/30_encoding.md R85,
spec/40_descriptor_tables.md R109, R110, spec/41_pseudo_descriptor.md R122 to R130). -/

namespace Sys2Proof.Machine

/-! ### Segments -/

/-- When a segment translation answers (R109). -/
theorem segTranslate_eq_next {seg : Seg} {off : Word32} {n : Nat} {acc : SegAccess} {s t : State}
    {la : Word32} :
    segTranslate seg off n acc s = .next (la, t) ↔ SegmentAddress s seg off n acc la ∧ t = s := by
  unfold segTranslate
  constructor
  · intro h
    split at h
    · rename_i hu
      split at h
      · rename_i ho
        simp only [Host.Outcome.next.injEq, Prod.mk.injEq] at h
        exact ⟨⟨hu, h.1 ▸ ho⟩, h.2.symm⟩
      · exact absurd h (by simp [raise])
    · exact absurd h (by simp [raise])
  · rintro ⟨⟨hu, ho⟩, rfl⟩
    rw [if_pos hu, ho]

theorem segTranslate_answered {seg : Seg} {off : Word32} {n : Nat} {acc : SegAccess} {s : State} {la : Word32}
    (h : SegmentAddress s seg off n acc la) : segTranslate seg off n acc s = .next (la, s) :=
  segTranslate_eq_next.mpr ⟨h, rfl⟩

/-- The segment translation through an unusable register, in every instance (R110). -/
theorem segTranslate_unusable {seg : Seg} {s : State} (h : segUsable s seg = false) (off : Word32) (n : Nat)
    (acc : SegAccess) : segTranslate seg off n acc s = raise (.generalProtection 0#16) s := by
  unfold segTranslate
  rw [if_neg (by simp [h])]

/-- The segment translation that an instance denies (R109). -/
theorem segTranslate_denied {seg : Seg} {off : Word32} {n : Nat} {acc : SegAccess} {s : State} {code : Word16}
    (h : segUsable s seg = true) (hd : segOutcome s.cfg seg off n acc = .protection code) :
    segTranslate seg off n acc s = raise (.generalProtection code) s := by
  unfold segTranslate
  rw [if_pos h, hd]

/-- The flat instance gives the offset (R109). -/
theorem segmentAddress_flat {s : State} (hf : s.cfg.segRule = .flat) {seg : Seg} {off : Word32} {n : Nat} {acc : SegAccess}
    {la : Word32} : SegmentAddress s seg off n acc la ↔ segUsable s seg = true ∧ la = off := by
  have ho : segOutcome s.cfg seg off n acc = .linear off := by unfold segOutcome; rw [hf]
  constructor
  · rintro ⟨hu, h⟩
    rw [ho] at h
    injection h with h
    exact ⟨hu, h.symm⟩
  · rintro ⟨hu, rfl⟩
    exact ⟨hu, ho⟩

theorem memOperand_answered {m : Mem} {n : Nat} {acc : SegAccess} {s : State} {la : Word32}
    (h : OperandAddress s m n acc la) : memOperand m n acc s = .next (la, s) := segTranslate_answered h

theorem memOperand_eq_next {m : Mem} {n : Nat} {acc : SegAccess} {s t : State} {la : Word32} :
    memOperand m n acc s = .next (la, t) ↔ OperandAddress s m n acc la ∧ t = s := segTranslate_eq_next

theorem ensures_segTranslate {R : State → Prop} {seg : Seg} {off : Word32} {n : Nat} {acc : SegAccess} {s : State}
    (h : R s) : Ensures Prod.snd R (segTranslate seg off n acc s) := by
  unfold segTranslate
  split
  · split
    · exact h
    · exact h
  · exact h

theorem ensures_memOperand {R : State → Prop} {m : Mem} {n : Nat} {acc : SegAccess} {s : State} (h : R s) :
    Ensures Prod.snd R (memOperand m n acc s) := ensures_segTranslate h

/-- What reading a 16-bit source leaves, whatever its outcome. -/
theorem ensures_readRegMem16 (src : RegMem) (s : State) :
    Ensures Prod.snd (WalkKeeps .read s) (readRegMem16 src s) := by
  unfold readRegMem16
  cases src with
  | reg r => exact WalkKeeps.refl _ s
  | mem m =>
    refine ensures_andThen (ensures_memOperand (WalkKeeps.refl .read s)) fun la t ht _ => ?_
    obtain ⟨_, rfl⟩ := memOperand_eq_next.mp ht
    exact ensures_andThen (ensures_memRead _ 2 t) fun bs u _ hu => hu

/-! ### Stored selectors -/

/-- What a stored selector leaves, whatever its outcome: the invariant. -/
theorem ensures_storeSelector (sel : Word16) (dst : RegMem) (s : State) :
    Ensures id (fun t => Inv s → Inv t) (storeSelector sel dst s) := by
  unfold storeSelector
  cases dst with
  | reg r => exact fun h => (h.useChoices 1).writeReg r _
  | mem m =>
    refine ensures_andThen (ensures_memOperand (R := fun t => Inv s → Inv t) id) fun la t ht _ => ?_
    obtain ⟨_, rfl⟩ := memOperand_eq_next.mp ht
    exact ensures_andThen ((ensures_memWrite _ _ t).mono fun u hu => hu.2) fun p u _ hu => hu

/-- A stored selector, when it answers and the operand is in memory, changes no register. -/
theorem storeSelector_mem_same {sel : Word16} {m : Mem} {s t : State}
    (h : storeSelector sel (.mem m) s = .next t) : SameRegisters s t := by
  unfold storeSelector at h
  obtain ⟨la, u, hu, h1⟩ := andThen_eq_next.mp h
  obtain ⟨_, rfl⟩ := memOperand_eq_next.mp hu
  obtain ⟨p, v, hv, h2⟩ := andThen_eq_next.mp h1
  injection h2 with h3
  subst h3
  exact ((ensures_memWrite _ _ u).next hv).1

/-! ### Stored pseudo-descriptors -/

theorem restorePlaces_wf (before : Memory) (places : List (Nat × Nat)) (m : Memory) (h : Memory.wf m) :
    Memory.wf (restorePlaces before places m) := by
  induction places generalizing m with
  | nil => exact h
  | cons p ps ih => exact ih _ (writeBytes_wf _ _ _ h)

theorem mem_restorePlaces {before : Memory} {places : List (Nat × Nat)} {m : Memory} {c : Host.Cell}
    (h : c ∈ restorePlaces before places m) : InPlaces places c.1 ∨ c ∈ m := by
  induction places generalizing m with
  | nil => exact .inr h
  | cons p ps ih =>
    rcases ih h with ⟨q, hq, hr⟩ | h
    · exact .inl ⟨q, List.mem_cons_of_mem _ hq, hr⟩
    · rcases mem_writeBytes h with h | h
      · exact .inl ⟨p, List.mem_cons_self, by simpa using h⟩
      · exact .inr h

theorem mapped_of_places {c : Config} {places : List (Nat × Nat)} {a : Nat} (h : placesMapped c places = true)
    (ha : InPlaces places a) : mapped c a = true := by
  obtain ⟨p, hp, h1, h2⟩ := ha
  unfold placesMapped at h
  exact mapped_of_range (List.all_eq_true.mp h p hp) h1 h2

theorem Inv.restore {left : State} (h : Inv left) {before : State} (hb : Inv before)
    (hc : left.cfg = before.cfg) (places : List (Nat × Nat)) (hm : placesMapped left.cfg places = true) (n : Nat) :
    Inv { left with mem := restorePlaces before.mem places left.mem, written := before.written, choices := n } := by
  refine ⟨h.cfgWf, restorePlaces_wf _ _ _ h.memWf, fun c hx => ?_, h.tlbNodup, h.tlbOk, h.features,
    h.noPaePaging, h.unusableIsNull, hb.writtenNodup, fun a ha => ?_⟩
  · rcases mem_restorePlaces hx with hx | hx
    · exact mapped_of_places hm hx
    · exact h.memMapped c hx
  · exact hc ▸ hb.writtenMapped a ha

theorem Inv.choices {s : State} (h : Inv s) (n : Nat) : Inv { s with choices := n } :=
  ⟨h.cfgWf, h.memWf, h.memMapped, h.tlbNodup, h.tlbOk, h.features, h.noPaePaging, h.unusableIsNull,
    h.writtenNodup, h.writtenMapped⟩

/-- What a pseudo-descriptor store whose second part raises leaves (R124). -/
theorem keeps_afterSecondStoreFault {s left : State} {places : List (Nat × Nat)} (h : Keeps s left)
    (hm : placesMapped s.cfg places = true) : Keeps s (afterSecondStoreFault s places left) := by
  unfold afterSecondStoreFault
  have h1 : Keeps s (Machine.useChoices 2 left) := h.trans ⟨rfl, fun hi => hi.useChoices 2⟩
  have h2 : Keeps s (Machine.useChoices 2
      { left with mem := restorePlaces s.mem places left.mem, written := s.written }) := by
    refine ⟨?_, fun hi => (h.2 hi).restore hi h.1.cfg places (h.1.cfg ▸ hm) (left.choices + 2)⟩
    have := h.1
    unfold SameRegisters at this ⊢
    rw [this]
    rfl
  have h3 : Keeps s { s with choices := left.choices + 2 } := ⟨rfl, fun hi => hi.choices _⟩
  cases Config.freeBool left.choices
  · cases Config.freeBool (left.choices + 1)
    · exact h3
    · exact h2
  · exact h1

/-- What a pseudo-descriptor store leaves, whatever its outcome. -/
theorem ensures_storePseudoDescriptor (d : TableReg) (a : Nat) (s : State) :
    Ensures id (Keeps s) (storePseudoDescriptor d a s) := by
  unfold storePseudoDescriptor
  refine ensures_andThen (ensures_memWrite a _ s) fun places s1 h1 hk1 => ?_
  have h2 := ensures_memWrite (a + 2) (leBytes 4 d.base) s1
  obtain ⟨u, hacc, _⟩ := memWrite_eq_next.mp h1
  have hm := hacc.inMemory
  rcases hw : memWrite (a + 2) (leBytes 4 d.base) s1 with ⟨p, t⟩ | e | why
  · rw [hw] at h2
    exact hk1.trans h2
  · rw [hw] at h2
    cases e with
    | exception e left => exact keeps_afterSecondStoreFault (hk1.trans h2) hm
    | aliasingDeadlock left => exact hk1.trans h2
  · trivial

/-- When a pseudo-descriptor store answers. -/
theorem storePseudoDescriptor_eq_next {d : TableReg} {a : Nat} {s t : State} :
    storePseudoDescriptor d a s = .next t ↔
      ∃ p1 s1 p2 s3, TranslatedAccess s a 2 .write p1 s1 ∧
        TranslatedAccess (storePlaces p1 (leBytes 2 d.limit) s1) (a + 2) 4 .write p2 s3 ∧
        t = storePlaces p2 (leBytes 4 d.base) s3 := by
  unfold storePseudoDescriptor
  rw [andThen_eq_next]
  constructor
  · rintro ⟨p1, s2, h1, h⟩
    obtain ⟨s1, ha, rfl⟩ := memWrite_eq_next.mp h1
    rcases hw : memWrite (a + 2) (leBytes 4 d.base) (storePlaces p1 (leBytes 2 d.limit) s1) with ⟨p, u⟩ | e | why
    · rw [hw] at h
      simp only [Host.Outcome.next.injEq] at h
      subst h
      obtain ⟨s3, hb, rfl⟩ := memWrite_eq_next.mp hw
      exact ⟨p1, s1, p, s3, by simpa using ha, by simpa using hb, rfl⟩
    · rw [hw] at h
      cases e <;> exact absurd h (by simp)
    · rw [hw] at h
      exact absurd h (by simp)
  · rintro ⟨p1, s1, p2, s3, ha, hb, rfl⟩
    refine ⟨p1, _, memWrite_eq_next.mpr ⟨s1, by simpa using ha, rfl⟩, ?_⟩
    rw [show memWrite (a + 2) (leBytes 4 d.base) (storePlaces p1 (leBytes 2 d.limit) s1) = _ from
      memWrite_eq_next.mpr ⟨s3, by simpa using hb, rfl⟩]

/-- A pseudo-descriptor stored with paging off (R122). -/
theorem storePseudoDescriptor_plain {d : TableReg} {a : Nat} {s : State} (h1 : PlainAccess s a 2)
    (h2 : PlainAccess s (a + 2) 4) :
    storePseudoDescriptor d a s =
      .next (storeData (a + 2) (leBytes 4 d.base) (storeData a (leBytes 2 d.limit) s)) := by
  unfold storePseudoDescriptor
  have h2' : PlainAccess (storeData a (leBytes 2 d.limit) s) (a + 2) (leBytes 4 d.base).length := by
    simp only [length_leBytes]
    exact ⟨h2.pagingOff, h2.noWrap, h2.inMemory, h2.aligned⟩
  rw [memWrite_plain (bs := leBytes 2 d.limit) (by simpa using h1) (by simp), andThen_next,
    memWrite_plain h2' (by simp)]

/-! ### Data-segment registers -/

/-- What a loaded data-segment register leaves, whatever its outcome. -/
theorem ensures_loadDataSeg (r : DataSeg) (sel : Word16) (s : State) :
    Ensures id (fun t => Inv s → Inv t) (loadDataSeg r sel s) := by
  unfold loadDataSeg
  split
  · rename_i hn
    intro h
    have hk : ∀ r', (readDataSeg (writeDataSeg r { selector := sel, usable := false } s) r').usable = false →
        isNullSelector (readDataSeg (writeDataSeg r { selector := sel, usable := false } s) r').selector = true := by
      intro r'
      cases r <;> cases r' <;>
        first
        | exact fun _ => hn
        | exact h.unusableIsNull .es
        | exact h.unusableIsNull .ds
        | exact h.unusableIsNull .fs
        | exact h.unusableIsNull .gs
    cases r <;>
      exact ⟨h.cfgWf, h.memWf, h.memMapped, h.tlbNodup, h.tlbOk, h.features, h.noPaePaging, hk, h.writtenNodup,
        h.writtenMapped⟩
  · trivial

/-! ### Descriptors -/

/-- What the processor's read of a descriptor leaves, whatever its outcome (40_descriptor_tables.md R115). -/
theorem ensures_readDescriptor (sel : Word16) (s : State) :
    Ensures Prod.snd (WalkKeeps .read s) (readDescriptor sel s) := by
  have hat : ∀ base n, Ensures Prod.snd (WalkKeeps .read s) (readDescriptorAt base n s) := by
    intro base n
    unfold readDescriptorAt
    refine ensures_andThen (ensures_translateRange _ 8 .read .supervisor s) fun places t _ ht => ?_
    rw [readPlaces_eq]
    split
    · exact ht
    · trivial
  unfold readDescriptor
  split
  · exact WalkKeeps.refl _ s
  split
  · split
    · exact hat _ _
    · exact WalkKeeps.refl _ s
  split
  · trivial
  split
  · exact hat _ _
  · exact WalkKeeps.refl _ s

end Sys2Proof.Machine
end

