-- ==== Sys2Proof/Laws/Exec.lean ====
section
/-! SUPPORT. What each instruction leaves, said once: the invariant, and the registers no instruction writes. -/

namespace Sys2Proof.Machine

/-! ### Control registers -/

/-- Control registers written, the invariant's clauses about them given. -/
theorem Inv.setControl {s : State} (h : Inv s) (cr0 cr3 cr4 : Word32) (w : List Nat) (hw : w.Sublist s.written)
    (hf : cr4FeatureMissing s.cfg cr4 = false) (hp : (pgFlag cr0 && paeFlag cr4) = false) :
    Inv { s with cr0 := cr0, cr3 := cr3, cr4 := cr4, written := w } :=
  ⟨h.cfgWf, h.memWf, h.memMapped, h.tlbNodup, h.tlbOk, hf, hp, h.unusableIsNull, h.writtenNodup.sublist hw,
    fun a ha => h.writtenMapped a (hw.subset ha)⟩

theorem Inv.loadCr3 {s : State} (h : Inv s) (v : Word32) : Inv (loadCr3 v s) := by
  have h1 : Inv { s with cr3 := v, written := [] } :=
    h.setControl s.cr0 v s.cr4 [] (List.nil_sublist _) h.features h.noPaePaging
  exact (h1.subTlb _ List.filter_sublist s.choices).dropAny

/-- CR0 written: when it answers, and what it then leaves. -/
theorem writeCr0_eq_next {v : Word32} {s t : State} :
    writeCr0 v s = .next t ↔
      (pgFlag v && paeFlag s.cr4) = false ∧
        t = (if pgFlag v != pgFlag s.cr0 then dropAny { s with cr0 := v } else { s with cr0 := v }) := by
  unfold writeCr0
  split
  · rename_i h
    simp [h]
  · rename_i h
    have h' : (pgFlag v && paeFlag s.cr4) = false := by simpa using h
    simp only [h', true_and]
    split <;> simp [eq_comm]

/-- CR4 written: when it answers, and what it then leaves. -/
theorem writeCr4_eq_next {v : Word32} {s t : State} :
    writeCr4 v s = .next t ↔
      cr4FeatureMissing s.cfg v = false ∧ (pgFlag s.cr0 && paeFlag v) = false ∧
        t = tlbAfterCr4 s.cr4 { s with cr4 := v } := by
  unfold writeCr4
  split
  · rename_i h
    simp [h]
  · rename_i h
    have h1 : cr4FeatureMissing s.cfg v = false := by simpa using h
    split
    · rename_i h'
      simp [h']
    · rename_i h'
      have h2 : (pgFlag s.cr0 && paeFlag v) = false := by simpa using h'
      simp [h1, h2, eq_comm]

theorem tlbAfterCr4_cases (old : Word32) (s : State) : tlbAfterCr4 old s = s ∨ tlbAfterCr4 old s = dropAny s := by
  unfold tlbAfterCr4
  split
  · exact .inr rfl
  split
  · exact .inr rfl
  · exact .inl rfl

theorem ensures_requireLevel0 {R : State → Prop} {s : State} {k : Host.Outcome State Fault Refusal} (h : R s)
    (hk : Ensures id R k) : Ensures id R (requireLevel0 s k) := by
  unfold requireLevel0
  split
  · exact hk
  · exact h

theorem requireLevel0_eq_next {s t : State} {k : Host.Outcome State Fault Refusal} :
    requireLevel0 s k = .next t ↔ s.cpl = 0 ∧ k = .next t := by
  unfold requireLevel0
  split
  · rename_i h
    simp [h]
  · rename_i h
    simp [h]

theorem ensures_writeCr0 (v : Word32) (s : State) :
    Ensures id (fun t => Inv s → Inv t) (writeCr0 v s) := by
  rcases hw : writeCr0 v s with t | e | why
  · intro h
    obtain ⟨hp, rfl⟩ := writeCr0_eq_next.mp hw
    have h1 : Inv { s with cr0 := v } :=
      h.setControl v s.cr3 s.cr4 s.written (List.Sublist.refl _) h.features hp
    simp only [id]
    split
    · exact h1.dropAny
    · exact h1
  · unfold writeCr0 at hw
    split at hw
    · exact absurd hw (by simp)
    · split at hw <;> exact absurd hw (by simp)
  · trivial

theorem ensures_writeCr4 (v : Word32) (s : State) :
    Ensures id (fun t => Inv s → Inv t) (writeCr4 v s) := by
  rcases hw : writeCr4 v s with t | e | why
  · intro h
    obtain ⟨hf, hp, rfl⟩ := writeCr4_eq_next.mp hw
    have h1 : Inv { s with cr4 := v } :=
      h.setControl s.cr0 s.cr3 v s.written (List.Sublist.refl _) hf hp
    simp only [id]
    rcases tlbAfterCr4_cases s.cr4 { s with cr4 := v } with hc | hc
    · rw [hc]; exact h1
    · rw [hc]; exact h1.dropAny
  · unfold writeCr4 at hw
    split at hw
    · exact absurd hw (by simp)
    · split at hw <;> exact absurd hw (by simp)
  · trivial

/-! ### The invariant, instruction by instruction -/

/-- Every state an instruction leaves has the invariant when the state before it has. -/
theorem ensures_exec_inv (i : Instr) (s : State) : Ensures id (fun t => Inv s → Inv t) (exec i s) := by
  cases i with
  | sgdt m =>
    show Ensures id _ (execSgdt m s)
    unfold execSgdt
    refine ensures_andThen (ensures_memOperand (R := fun t => Inv s → Inv t) id) fun la t ht _ => ?_
    obtain ⟨_, rfl⟩ := memOperand_eq_next.mp ht
    exact (ensures_storePseudoDescriptor _ _ t).mono fun u hu => hu.2
  | sidt m =>
    show Ensures id _ (execSidt m s)
    unfold execSidt
    refine ensures_andThen (ensures_memOperand (R := fun t => Inv s → Inv t) id) fun la t ht _ => ?_
    obtain ⟨_, rfl⟩ := memOperand_eq_next.mp ht
    exact (ensures_storePseudoDescriptor _ _ t).mono fun u hu => hu.2
  | invlpg m =>
    refine ensures_requireLevel0 (fun h => h) (ensures_andThen (ensures_memOperand (R := fun t => Inv s → Inv t) id)
      fun la t ht _ => ?_)
    obtain ⟨_, rfl⟩ := memOperand_eq_next.mp ht
    exact fun h => h.flushPage la
  | sldt dst => exact ensures_storeSelector _ dst s
  | str dst => exact ensures_storeSelector _ dst s
  | movCr0FromReg r => exact ensures_requireLevel0 (fun h => h) (ensures_writeCr0 _ s)
  | movRegFromCr0 r => exact ensures_requireLevel0 (fun h => h) (fun h => h.writeReg r _)
  | movCr3FromReg r => exact ensures_requireLevel0 (fun h => h) (fun h => h.loadCr3 _)
  | movRegFromCr3 r => exact ensures_requireLevel0 (fun h => h) (fun h => h.writeReg r _)
  | movCr4FromReg r => exact ensures_requireLevel0 (fun h => h) (ensures_writeCr4 _ s)
  | movRegFromCr4 r => exact ensures_requireLevel0 (fun h => h) (fun h => h.writeReg r _)
  | cpuid =>
    exact fun h => ⟨h.cfgWf, h.memWf, h.memMapped, h.tlbNodup, h.tlbOk, h.features, h.noPaePaging,
      h.unusableIsNull, h.writtenNodup, h.writtenMapped⟩
  | movSreg r src =>
    refine ensures_andThen ((ensures_readRegMem16 src s).mono fun t ht => ht.2) fun sel t _ ht => ?_
    exact (ensures_loadDataSeg r sel t).mono fun u hu h => hu (ht h)
  | movRegImm32 r imm => exact fun h => h.writeReg r imm
  | movEaxMoffs32 off =>
    show Ensures id _ (execMovEaxMoffs32 off s)
    unfold execMovEaxMoffs32
    refine ensures_andThen (ensures_segTranslate (R := fun t => Inv s → Inv t) id) fun la t ht _ => ?_
    obtain ⟨_, rfl⟩ := segTranslate_eq_next.mp ht
    refine ensures_andThen ((ensures_memRead _ 4 t).mono fun u hu => hu.2) fun bs u _ hu => ?_
    exact fun h => (hu h).writeReg .eax _
  | movMoffs32Eax off =>
    show Ensures id _ (execMovMoffs32Eax off s)
    unfold execMovMoffs32Eax
    refine ensures_andThen (ensures_segTranslate (R := fun t => Inv s → Inv t) id) fun la t ht _ => ?_
    obtain ⟨_, rfl⟩ := segTranslate_eq_next.mp ht
    exact ensures_andThen ((ensures_memWrite _ _ t).mono fun u hu => hu.2) fun p u _ hu => hu
  | orEaxImm32 imm =>
    exact fun h => ⟨h.cfgWf, h.memWf, h.memMapped, h.tlbNodup, h.tlbOk, h.features, h.noPaePaging,
      h.unusableIsNull, h.writtenNodup, h.writtenMapped⟩

end Sys2Proof.Machine
end

