-- ==== Sys2Proof/Laws/Fetch.lean ====
section
/-! SUPPORT. What a fetch can do, said once (spec/20_memory.md R54, R73). -/

namespace Sys2Proof.Machine

theorem ensures_fetchPlace (prev : Option Nat) (la : Nat) (s : State) :
    Ensures Prod.snd (WalkKeeps .fetch s) (fetchPlace prev la s) := by
  have ht : Ensures Prod.snd (WalkKeeps .fetch s)
      (andThen (translate (BitVec.ofNat 32 la) .fetch (currentPriv s) s) fun pa s => (.next (pa.toNat, s) : Result Nat)) :=
    ensures_andThen (ensures_translate .fetch s _ _) fun pa t _ h => h
  unfold fetchPlace
  split
  · trivial
  · split
    · split
      · exact ht
      · exact WalkKeeps.refl _ s
    · exact ht

theorem fetchByte_eq_next {pa : Nat} {s t : State} {b : Byte} :
    fetchByte pa s = .next (b, t) ↔ pa ∉ s.written ∧ mapped s.cfg pa = true ∧ b = memByte s.mem pa ∧ t = s := by
  unfold fetchByte
  split
  · rename_i h
    simp [h]
  · rename_i h
    split
    · rename_i hm
      simp only [Host.Outcome.next.injEq, Prod.mk.injEq, h, hm, not_false_eq_true, true_and]
      constructor <;> rintro ⟨rfl, rfl⟩ <;> exact ⟨rfl, rfl⟩
    · rename_i hm
      simp [hm]

theorem ensures_fetchByte (pa : Nat) (s : State) :
    Ensures Prod.snd (WalkKeeps .fetch s) (fetchByte pa s) := by
  unfold fetchByte
  split
  · trivial
  · split
    · exact WalkKeeps.refl _ s
    · trivial

theorem ensures_fetchLoop (fuel : Nat) (prev : Option Nat) (got : List Byte) (s : State) :
    Ensures Prod.snd (WalkKeeps .fetch s) (fetchLoop fuel prev got s) := by
  induction fuel generalizing prev got s with
  | zero => trivial
  | succ fuel ih =>
    unfold fetchLoop
    split
    · exact WalkKeeps.refl _ s
    · trivial
    · refine ensures_andThen (ensures_fetchPlace prev _ s) fun pa t _ ht => ?_
      refine ensures_andThen ((ensures_fetchByte pa t).mono fun u hu => ht.trans hu) fun b u hu hu' => ?_
      exact (ih (some pa) (got ++ [b]) u).mono fun v hv => hu'.trans hv

/-- What a fetch leaves, whatever its outcome. -/
theorem ensures_fetchInstr (s : State) : Ensures Prod.snd (WalkKeeps .fetch s) (fetchInstr s) :=
  ensures_fetchLoop _ none [] s

/-- The environment's turn changes the TLB alone. -/
theorem walkKeeps_environment (s : State) : WalkKeeps .fetch s (environment s) :=
  ⟨⟨rfl, rfl, OnlyBitsSet.refl _ _⟩, fun h => h.dropAny⟩

/-- When a step answers: the fetched instruction, executed, and EIP past it. -/
theorem step_eq_next {s t : State} :
    step s = .next t ↔
      ∃ i u v, fetchInstr (environment s) = .next (i, u) ∧ exec i u = .next v ∧ t = advance i v := by
  unfold step
  rw [andThen_eq_next]
  constructor
  · rintro ⟨i, u, hf, h⟩
    rcases he : exec i u with v | e | why
    · rw [he] at h
      simp only [complete, Host.Outcome.next.injEq] at h
      exact ⟨i, u, v, hf, he, h.symm⟩
    · rw [he] at h; exact absurd h (by simp [complete])
    · rw [he] at h; exact absurd h (by simp [complete])
  · rintro ⟨i, u, v, hf, he, rfl⟩
    refine ⟨i, u, hf, ?_⟩
    rw [he]
    rfl

/-- A fetch that answers, followed by the environment's turn before it, keeps what translation keeps. -/
theorem walkKeeps_fetch {s u : State} {i : Instr} (h : fetchInstr (environment s) = .next (i, u)) :
    WalkKeeps .fetch s u :=
  (walkKeeps_environment s).trans ((ensures_fetchInstr (environment s)).next h)

/-! ### The canonical form of memory, where no other law says it -/

/-- Placing code keeps the canonical form. -/
theorem placeCode_wf (places : List Nat) (bs : List Byte) (s : State) (h : Memory.wf s.mem) :
    Memory.wf (placeCode places bs s).mem := by
  induction places generalizing bs s with
  | nil => exact h
  | cons pa pas ih =>
    cases bs with
    | nil => exact h
    | cons b bs => exact ih bs _ (setByte_wf s.mem pa b h)

/-- Memory after reset has the canonical form. -/
theorem reset_mem_wf : Memory.wf State.reset.mem := by decide

end Sys2Proof.Machine
end

