-- ==== Sys2Proof/Laws/PerInstr.lean ====
section
/-! SUPPORT. What holds of every instruction as syntax, one lemma for each: its encoding has the length the machine advances EIP
by (spec/10_state.md R23, spec/30_encoding.md R84). -/

namespace Sys2Proof.Laws

/-- The encoding of an instruction has its length, and none is empty or longer than the longest. -/
def EncodeLength.Statement (i : Instr) : Prop :=
  (encode i).length = instrLength i ∧ 1 ≤ instrLength i ∧ instrLength i ≤ maxInstrLength

theorem length_encodeMem (reg : BitVec 3) (m : Mem) : (encodeMem reg m).length = memLength m := by
  cases m <;> rfl

theorem length_encodeRegMem (reg : BitVec 3) (x : RegMem) : (encodeRegMem reg x).length = regMemLength x := by
  cases x with
  | reg r => rfl
  | mem m => exact length_encodeMem reg m

theorem memLength_bounds (m : Mem) : 1 ≤ memLength m ∧ memLength m ≤ 6 := by
  cases m <;> simp [memLength]

theorem regMemLength_bounds (x : RegMem) : 1 ≤ regMemLength x ∧ regMemLength x ≤ 6 := by
  cases x with
  | reg r => simp [regMemLength]
  | mem m => exact memLength_bounds m

theorem EncodeLength.two_and_mem (i : Instr) (reg : BitVec 3) (m : Mem) (b0 b1 : Byte)
    (he : encode i = b0 :: b1 :: encodeMem reg m) (hl : instrLength i = 2 + memLength m) :
    EncodeLength.Statement i := by
  have := memLength_bounds m
  unfold EncodeLength.Statement maxInstrLength
  rw [he, hl]
  simp only [List.length_cons, length_encodeMem]
  omega

theorem EncodeLength.two_and_regMem (i : Instr) (reg : BitVec 3) (x : RegMem) (b0 b1 : Byte)
    (he : encode i = b0 :: b1 :: encodeRegMem reg x) (hl : instrLength i = 2 + regMemLength x) :
    EncodeLength.Statement i := by
  have := regMemLength_bounds x
  unfold EncodeLength.Statement maxInstrLength
  rw [he, hl]
  simp only [List.length_cons, length_encodeRegMem]
  omega

theorem EncodeLength.sgdt (m : Mem) : EncodeLength.Statement (.sgdt m) :=
  EncodeLength.two_and_mem _ 0#3 m _ _ rfl rfl

theorem EncodeLength.sidt (m : Mem) : EncodeLength.Statement (.sidt m) :=
  EncodeLength.two_and_mem _ 1#3 m _ _ rfl rfl

theorem EncodeLength.invlpg (m : Mem) : EncodeLength.Statement (.invlpg m) :=
  EncodeLength.two_and_mem _ 7#3 m _ _ rfl rfl

theorem EncodeLength.sldt (dst : RegMem) : EncodeLength.Statement (.sldt dst) :=
  EncodeLength.two_and_regMem _ 0#3 dst _ _ rfl rfl

theorem EncodeLength.str (dst : RegMem) : EncodeLength.Statement (.str dst) :=
  EncodeLength.two_and_regMem _ 1#3 dst _ _ rfl rfl

theorem EncodeLength.movCr0FromReg (r : Reg) : EncodeLength.Statement (.movCr0FromReg r) := by
  exact ⟨rfl, (by decide : 1 ≤ 3), (by decide : 3 ≤ 8)⟩

theorem EncodeLength.movRegFromCr0 (r : Reg) : EncodeLength.Statement (.movRegFromCr0 r) :=
  ⟨rfl, (by decide : 1 ≤ 3), (by decide : 3 ≤ 8)⟩

theorem EncodeLength.movCr3FromReg (r : Reg) : EncodeLength.Statement (.movCr3FromReg r) :=
  ⟨rfl, (by decide : 1 ≤ 3), (by decide : 3 ≤ 8)⟩

theorem EncodeLength.movRegFromCr3 (r : Reg) : EncodeLength.Statement (.movRegFromCr3 r) :=
  ⟨rfl, (by decide : 1 ≤ 3), (by decide : 3 ≤ 8)⟩

theorem EncodeLength.movCr4FromReg (r : Reg) : EncodeLength.Statement (.movCr4FromReg r) :=
  ⟨rfl, (by decide : 1 ≤ 3), (by decide : 3 ≤ 8)⟩

theorem EncodeLength.movRegFromCr4 (r : Reg) : EncodeLength.Statement (.movRegFromCr4 r) :=
  ⟨rfl, (by decide : 1 ≤ 3), (by decide : 3 ≤ 8)⟩

theorem EncodeLength.cpuid : EncodeLength.Statement .cpuid :=
  ⟨rfl, (by decide : 1 ≤ 2), (by decide : 2 ≤ 8)⟩

theorem EncodeLength.movSreg (sreg : DataSeg) (src : RegMem) : EncodeLength.Statement (.movSreg sreg src) := by
  have := regMemLength_bounds src
  unfold EncodeLength.Statement maxInstrLength
  simp only [encode, instrLength, List.length_cons, length_encodeRegMem]
  omega

theorem EncodeLength.movRegImm32 (r : Reg) (imm : Word32) : EncodeLength.Statement (.movRegImm32 r imm) :=
  ⟨rfl, (by decide : 1 ≤ 5), (by decide : 5 ≤ 8)⟩

theorem EncodeLength.movEaxMoffs32 (off : Word32) : EncodeLength.Statement (.movEaxMoffs32 off) :=
  ⟨rfl, (by decide : 1 ≤ 5), (by decide : 5 ≤ 8)⟩

theorem EncodeLength.movMoffs32Eax (off : Word32) : EncodeLength.Statement (.movMoffs32Eax off) :=
  ⟨rfl, (by decide : 1 ≤ 5), (by decide : 5 ≤ 8)⟩

theorem EncodeLength.orEaxImm32 (imm : Word32) : EncodeLength.Statement (.orEaxImm32 imm) :=
  ⟨rfl, (by decide : 1 ≤ 5), (by decide : 5 ≤ 8)⟩

end Sys2Proof.Laws
end

