-- ==== Sys2Proof/Tests/Slice0.lean ====
section
/-! SUPPORT. Tests whose expected results are those of spec/95_test_vectors.md (ids VA1 to VN27, P1 to P5), and for every
statement with hypotheses a state that meets them together. -/

namespace Sys2Proof.Tests

open Sys2Proof Sys2Proof.Machine

/-! ### Small states -/

/-- A processor with PSE, PGE, PAE and PAT and without PSE-36, with 4 GBytes of memory and the default instances of the
three functions of R5. -/
def processor : Config where
  hasPse := true
  hasPae := true
  hasPse36 := false
  hasPge := true
  hasPat := true
  pentiumOnlyPseFlush := false
  physBits := .bits32
  ignoreShouldBeZero := false
  physMap := [⟨0, 2 ^ 32⟩]
  permitRule := .standard
  segRule := .flat
  alignRule := .standard

/-- The start of P1: paging off, flat segments, level 0, EIP 7000h, the four table registers of P1, `mem` in memory. -/
def start (mem : Memory) : State where
  cfg := processor
  gprs := { eax := 0x2000#32, ecx := 3#32, edx := 0#32, ebx := 0x1000#32
            esp := 0x1800#32, ebp := 0x1900#32, esi := 2#32, edi := 0xFFFF0001#32 }
  eip := 0x7000#32
  csBase := 0#32
  eflags := 2#32
  cr0 := 0x11#32
  cr3 := 0x2000#32
  cr4 := 0#32
  gdtr := { base := 0x10000#32, limit := 0x3F#16 }
  idtr := { base := 0x20000#32, limit := 0x7FF#16 }
  ldtr := { selector := 0x28#16, base := 0x30000#32, limit := 0xF#32, access := 0x82#8 }
  tr := { selector := 0x30#16 }
  es := { selector := 0x10#16, usable := true }
  ds := { selector := 0x10#16, usable := true }
  fs := { selector := 0x10#16, usable := true }
  gs := { selector := 0x10#16, usable := true }
  cpl := 0
  mem := mem
  tlb := []
  written := []
  choices := 0

/-- Memory that holds doublewords at physical addresses. -/
def dwords (l : List (Nat × Word32)) : Memory :=
  l.foldl (fun m p => writeBytes m p.1 (leBytes 4 p.2)) []

/-- User mode with alignment checking on (CR0.AM and EFLAGS.AC are 1). -/
def checked (s : State) : State := { s with cpl := 3, cr0 := s.cr0 ||| 0x40000#32, eflags := 0x40002#32 }

/-- Paging on. -/
def paged (s : State) : State := { s with cr0 := s.cr0 ||| 0x80000000#32 }

/-- The tables of VE1. -/
def ve1 (pde pte : Word32) : State := paged (start (dwords [(0x2004, pde), (0x300C, pte)]))

/-- The tables of VF1: CR4.PSE is 1 and the entry at 200Ch maps a 4-MByte page. -/
def vf1 (pde : Word32) : State :=
  { paged (start (dwords [(0x200C, pde)])) with cr4 := 0x10#32 }

/-- The tables of P4, with CPUID at 7000h and in the last two bytes of its page. -/
def p4 : State :=
  { paged (start (dwords [(0x2000, 0x87), (0x200C, 0x01000087), (0x7000, 0xA20F), (0x7FFC, 0xA20F0000)])) with
    cr4 := 0x10#32 }

/-! ### Reading an outcome -/

/-- The outcome is a next state for which `p` holds. -/
def nextWith {α : Type} (r : Host.Outcome α Fault Refusal) (p : α → Bool) : Bool :=
  match r with
  | .next t => p t
  | _ => false

/-- The outcome is a fault for which `p` holds. -/
def faultWith {α : Type} (r : Host.Outcome α Fault Refusal) (p : Fault → Bool) : Bool :=
  match r with
  | .fault e => p e
  | _ => false

/-- A computed next state, as an existential. -/
theorem exists_next {α : Type} {r : Host.Outcome α Fault Refusal} {p : α → Bool} (h : nextWith r p = true) :
    ∃ t, r = .next t ∧ p t = true := by
  cases r with
  | next t => exact ⟨t, rfl, h⟩
  | fault e => cases h
  | refused why => cases h

/-- A computed fault, as an existential. -/
theorem exists_fault {α : Type} {r : Host.Outcome α Fault Refusal} {p : Fault → Bool} (h : faultWith r p = true) :
    ∃ e, r = .fault e ∧ p e = true := by
  cases r with
  | next t => cases h
  | fault e => exact ⟨e, rfl, h⟩
  | refused why => cases h

/-- The outcome is this refusal. -/
def refuses {α : Type} (r : Host.Outcome α Fault Refusal) (why : Refusal) : Bool :=
  match r with
  | .refused why' => why == why'
  | _ => false

theorem eq_refused {α : Type} {r : Host.Outcome α Fault Refusal} {why : Refusal} (h : refuses r why = true) :
    r = .refused why := by
  cases r with
  | next t => cases h
  | fault e => cases h
  | refused why' => exact congrArg _ (of_decide_eq_true h).symm

theorem eq_fault {α : Type} {r : Host.Outcome α Fault Refusal} {e : Fault} (h : faultWith r (e == ·) = true) :
    r = .fault e := by
  obtain ⟨e', he, h'⟩ := exists_fault h
  rw [he, eq_of_beq h']

/-- The exception of a fault. -/
def raises (e : Exception) : Fault → Bool
  | .exception e' _ => e == e'
  | .aliasingDeadlock _ => false

/-- The answer of a translation, and two doublewords of memory after it. -/
def answers (pa : PhysAddr) (a : Nat) (v : Word32) (b : Nat) (w : Word32) (p : PhysAddr × State) : Bool :=
  p.1 == pa && entryAt p.2 a == v && entryAt p.2 b == w

/-! ### WellFormed: a term for each check -/

theorem test_wf_base_esp : (Instr.sgdt (.base .esp)).wf = false := by decide
theorem test_wf_base_ebp : (Instr.sidt (.base .ebp)).wf = false := by decide
theorem test_wf_disp8_esp : (Instr.invlpg (.baseDisp8 .esp 4#8)).wf = false := by decide
theorem test_wf_disp32_esp : (Instr.sldt (.mem (.baseDisp32 .esp 4#32))).wf = false := by decide
theorem test_wf_sib_ebp : (Instr.str (.mem (.sib .ebp .eax 0#2))).wf = false := by decide
theorem test_wf_movSreg : (Instr.movSreg .ds (.mem (.base .esp))).wf = false := by decide

/-! ### Decoding: words written out from 30_encoding.md R84 to R90 -/

/-- The bytes are the whole of one well-formed instruction, and its encoding. -/
def isCode (bs : List Byte) (i : Instr) : Bool :=
  decode bs == .done i [] && encode i == bs && i.wf && instrLength i == bs.length

/-- VN1, VN3, VN4, VN5. -/
theorem test_decode_sgdt :
    isCode [0x0F, 0x01, 0x05, 0x02, 0x10, 0x00, 0x00] (.sgdt (.disp 0x1002)) ∧
    isCode [0x0F, 0x01, 0x00] (.sgdt (.base .eax)) ∧ isCode [0x0F, 0x01, 0x43, 0x06] (.sgdt (.baseDisp8 .ebx 6)) ∧
    isCode [0x0F, 0x01, 0x04, 0x24] (.sgdt (.sib .esp .esp 0)) := by decide

/-- VN2. -/
theorem test_decode_sidt : isCode [0x0F, 0x01, 0x0D, 0x0A, 0x10, 0x00, 0x00] (.sidt (.disp 0x100A)) := by decide

/-- VN18. -/
theorem test_decode_invlpg : isCode [0x0F, 0x01, 0x38] (.invlpg (.base .eax)) := by decide

/-- VN7, VN9. -/
theorem test_decode_sldt :
    isCode [0x0F, 0x00, 0x05, 0x10, 0x10, 0x00, 0x00] (.sldt (.mem (.disp 0x1010))) ∧
    isCode [0x0F, 0x00, 0xC0] (.sldt (.reg .eax)) := by decide

/-- VN8, VN10. -/
theorem test_decode_str :
    isCode [0x0F, 0x00, 0x0D, 0x14, 0x10, 0x00, 0x00] (.str (.mem (.disp 0x1014))) ∧
    isCode [0x0F, 0x00, 0xC9] (.str (.reg .ecx)) := by decide

/-- VN14. -/
theorem test_decode_movCr0FromReg : isCode [0x0F, 0x22, 0xC0] (.movCr0FromReg .eax) := by decide
/-- VN14. -/
theorem test_decode_movRegFromCr0 : isCode [0x0F, 0x20, 0xC0] (.movRegFromCr0 .eax) := by decide

/-- VN11, VN12. -/
theorem test_decode_movCr3FromReg :
    isCode [0x0F, 0x22, 0xD8] (.movCr3FromReg .eax) ∧ isCode [0x0F, 0x22, 0xD9] (.movCr3FromReg .ecx) := by decide

/-- VN13. -/
theorem test_decode_movRegFromCr3 : isCode [0x0F, 0x20, 0xD8] (.movRegFromCr3 .eax) := by decide
/-- VN15. -/
theorem test_decode_movCr4FromReg : isCode [0x0F, 0x22, 0xE0] (.movCr4FromReg .eax) := by decide
/-- VN15. -/
theorem test_decode_movRegFromCr4 : isCode [0x0F, 0x20, 0xE0] (.movRegFromCr4 .eax) := by decide
/-- VN17. -/
theorem test_decode_cpuid : isCode [0x0F, 0xA2] .cpuid := by decide

/-- VN19, VN20; a memory source by R85 and R86. -/
theorem test_decode_movSreg :
    isCode [0x8E, 0xD8] (.movSreg .ds (.reg .eax)) ∧ isCode [0x8E, 0xC0] (.movSreg .es (.reg .eax)) ∧
    isCode [0x8E, 0xE0] (.movSreg .fs (.reg .eax)) ∧ isCode [0x8E, 0xE8] (.movSreg .gs (.reg .eax)) ∧
    isCode [0x8E, 0x1D, 0x10, 0x10, 0x00, 0x00] (.movSreg .ds (.mem (.disp 0x1010))) := by decide

/-- VN22, VN23. -/
theorem test_decode_movRegImm32 :
    isCode [0xB8, 0x00, 0x20, 0x00, 0x00] (.movRegImm32 .eax 0x2000) ∧
    isCode [0xB9, 0x78, 0x56, 0x34, 0x12] (.movRegImm32 .ecx 0x12345678) := by decide

/-- VN24. -/
theorem test_decode_movEaxMoffs32 :
    isCode [0xA1, 0x04, 0x30, 0x40, 0x00] (.movEaxMoffs32 0x403004) := by decide
/-- VN25. -/
theorem test_decode_movMoffs32Eax :
    isCode [0xA3, 0x08, 0x30, 0x40, 0x00] (.movMoffs32Eax 0x403008) := by decide
/-- VN26. -/
theorem test_decode_orEaxImm32 : isCode [0x0D, 0x00, 0x00, 0x00, 0x80] (.orEaxImm32 0x80000000) := by decide

/-- VN6, VN16, VN21, VN27. -/
theorem test_decode_refusals :
    decode [0x0F, 0x01, 0xC0] = .refused .registerForm ∧ decode [0x0F, 0x22, 0xC8] = .refused .noRow ∧
    decode [0x8E, 0xC8] = .refused .notDataSegment ∧ decode [0x8E, 0xD0] = .refused .notDataSegment ∧
    decode [0x66, 0x0F, 0x01, 0x05] = .refused .noRow := by decide

/-- The forms with SIB byte of R85: ModR/M 44h, 84h and 04h, and SIB B3h (scale 10, index ESI, base EBX) and 75h
(scale 01, index ESI, no base). -/
theorem test_decode_sib :
    isCode [0x0F, 0x01, 0x44, 0xB3, 0xFE] (.sgdt (.sibDisp8 .ebx .esi 2 0xFE)) ∧
    isCode [0x0F, 0x01, 0x84, 0xB3, 0x01, 0x02, 0x03, 0x04] (.sgdt (.sibDisp32 .ebx .esi 2 0x04030201)) ∧
    isCode [0x0F, 0x01, 0x04, 0x75, 0x01, 0x02, 0x03, 0x04] (.sgdt (.sibNoBase .esi 1 0x04030201)) ∧
    isCode [0x0F, 0x01, 0x80, 0x01, 0x02, 0x03, 0x04] (.sgdt (.baseDisp32 .eax 0x04030201)) := by decide

/-- The table's own words: the `match` numbers of SGDT, MOV CR3 and MOV r32, imm32. -/
theorem test_table_words :
    decodeTableWord 24 0x0F0105 = some (.sgdt (.disp 0)) ∧ decodeTableWord 24 0x0F22D8 = some (.movCr3FromReg .eax) ∧
    decodeTableWord 8 0xB9 = some (.movRegImm32 .ecx 0) := by decide

/-! ### Operands (R85) -/

/-- Base, scaled index, sign-extended and wrapping sums. -/
theorem test_effective_addresses :
    effectiveAddress (start []) (.sibDisp8 .ebx .esi 2 0xFE) = 0x1006#32 ∧
    effectiveAddress (start []) (.sib .esp .esp 0) = 0x1800#32 ∧
    effectiveAddress (start []) (.baseDisp32 .edi 0xFFFF) = 0#32 := by decide

/-! ### One instruction, paging off -/

/-- VC1. -/
theorem test_sgdt_bytes :
    nextWith (exec (.sgdt (.disp 0x1002)) (start [])) fun t =>
      readBytes t.mem 0x1001 8 == [0x00, 0x3F, 0x00, 0x00, 0x00, 0x01, 0x00, 0x00] := by decide

/-- VC10: the doubleword would end past FFFFFFFFh. -/
theorem test_sgdt_wrap : refuses (exec (.sgdt (.disp 0xFFFFFFFC)) (start [])) .linearAddressWrap := by decide

/-- VC5. -/
theorem test_sidt_bytes :
    nextWith (exec (.sidt (.disp 0x100A)) (start [])) fun t =>
      readBytes t.mem 0x100A 6 == [0xFF, 0x07, 0x00, 0x00, 0x02, 0x00] := by decide

/-- VC12: an odd address in user mode with the check on. -/
theorem test_sidt_odd :
    faultWith (exec (.sidt (.disp 0x1001)) (checked (start [])))
      ((.exception (.alignmentCheck 0) (checked (start []))) == ·) := by decide

/-- VC6: two bytes, and the two after them unchanged. -/
theorem test_sldt_memory :
    nextWith (exec (.sldt (.mem (.disp 0x1010))) (start (dwords [(0x1010, 0xAABBCCDD)]))) fun t =>
      readBytes t.mem 0x1010 4 == [0x28, 0x00, 0xBB, 0xAA] := by decide

/-- VC8: the low half of EAX. -/
theorem test_sldt_register :
    nextWith (exec (.sldt (.reg .eax)) (start [])) fun t =>
      t.gprs.ecx == 3 && t.ldtr.selector == 0x28 := by decide

/-- VC7. -/
theorem test_str_memory :
    nextWith (exec (.str (.mem (.disp 0x1014))) (start [])) fun t =>
      readBytes t.mem 0x1014 2 == [0x30, 0x00] := by decide

/-- VC19, for STR. -/
theorem test_str_odd :
    faultWith (exec (.str (.mem (.disp 0x1011))) (checked (start [])))
      ((.exception (.alignmentCheck 0) (checked (start []))) == ·) := by decide

/-- VK5. -/
theorem test_movCr0FromReg :
    nextWith (exec (.movCr0FromReg .eax) { start [] with gprs := { (start []).gprs with eax := 0x80000011 } })
      fun t => t.cr0 == 0x80000011 && pgFlag t.cr0 := by decide

/-- VK8: with PAE already 1, PG is refused. -/
theorem test_movCr0FromReg_pae :
    refuses (exec (.movCr0FromReg .eax) { start [] with cr4 := 0x20, gprs := { (start []).gprs with eax := 0x80000011 } })
      .paeTranslation := by decide

/-- R153, on P2's CR0. -/
theorem test_movRegFromCr0 :
    nextWith (exec (.movRegFromCr0 .eax) (start [])) fun t => t.gprs.eax == 0x11 := by decide

/-- VK2, and VK1 for the TLB. -/
theorem test_movCr3FromReg :
    nextWith (exec (.movCr3FromReg .eax)
      { start [] with
        tlb := [.page4K 0x403 0x3027 0x5027], gprs := { (start []).gprs with eax := 0x2FFF } })
      fun t => t.cr3 == 0x2FFF && t.tlb == [] && pageDirectoryBase t.cr3 == 0x2000 := by decide

/-- VK3. -/
theorem test_movCr3FromReg_user :
    faultWith (exec (.movCr3FromReg .eax) { start [] with cpl := 3 })
      ((.exception (.generalProtection 0) { start [] with cpl := 3 }) == ·) := by decide

/-- VK4. -/
theorem test_movRegFromCr3 :
    nextWith (exec (.movRegFromCr3 .ecx) { start [] with cr3 := 0x12345018 }) fun t =>
      t.gprs.ecx == 0x12345018 && t.gprs.eax == 0x2000 := by decide

/-- VK6. -/
theorem test_movCr4FromReg_absent :
    refuses (exec (.movCr4FromReg .ecx)
      { start [] with cfg := { processor with hasPse := false }, gprs := { (start []).gprs with ecx := 0x10 } })
      .cr4FeatureAbsent := by decide

/-- VK8. -/
theorem test_movCr4FromReg_pae :
    nextWith (exec (.movCr4FromReg .eax) { start [] with gprs := { (start []).gprs with eax := 0x20 } }) fun t =>
      t.cr4 == 0x20 := by decide

/-- R153. -/
theorem test_movRegFromCr4 :
    nextWith (exec (.movRegFromCr4 .edi) { start [] with cr4 := 0x90 }) fun t => t.gprs.edi == 0x90 := by
  decide

/-- VK10: both kinds of entry of the page leave, a global one too; another page's stays. -/
theorem test_invlpg :
    nextWith (exec (.invlpg (.base .eax))
      { start [] with
        tlb := [.page4K 0x403 0x3027 0x5127, .page4M 1 0x010000A7, .page4K 0x404 0x3027 0x5027]
        gprs := { (start []).gprs with eax := 0x403000 } })
      fun t => t.tlb == [.page4K 0x404 0x3027 0x5027] := by decide

/-- VK3's rule for INVLPG. -/
theorem test_invlpg_user :
    faultWith (exec (.invlpg (.base .eax)) { start [] with cpl := 3 })
      ((.exception (.generalProtection 0) { start [] with cpl := 3 }) == ·) := by decide

/-- VJ2 and VJ5: the two feature flags, in user mode. -/
theorem test_cpuid :
    (featureWord processor 0xFFFFFFFF).getLsbD 17 = false ∧ (featureWord processor 0).getLsbD 6 = true ∧
    nextWith (exec .cpuid { start [] with cpl := 3 }) (fun t => t.gprs.esp == 0x1800) := by decide

/-- VB1. -/
theorem test_movSreg_null :
    nextWith (exec (.movSreg .ds (.reg .edx)) (start [])) fun t =>
      t.ds == { selector := 0, usable := false } && t.es == (start []).es := by decide

/-- VB3: bit 2 is set, the selector is not null. -/
theorem test_movSreg_notNull :
    refuses (exec (.movSreg .fs (.reg .eax)) { start [] with gprs := { (start []).gprs with eax := 4 } })
      .nonNullSelectorLoad := by decide

/-- VN23's instruction. -/
theorem test_movRegImm32 :
    nextWith (exec (.movRegImm32 .ecx 0x12345678) (start [])) fun t =>
      t.gprs == { (start []).gprs with ecx := 0x12345678 } := by decide

/-- P2's data, read with paging off. -/
theorem test_movEaxMoffs32 :
    nextWith (exec (.movEaxMoffs32 0x5004) (start [(0x5004, 0xEF), (0x5005, 0xBE), (0x5006, 0xAD), (0x5007, 0xDE)]))
      fun t => t.gprs.eax == 0xDEADBEEF := by decide

/-- P3: through a null DS. -/
theorem test_movEaxMoffs32_null :
    faultWith (exec (.movEaxMoffs32 0x1000) { start [] with ds := { selector := 0, usable := false } })
      (raises (.generalProtection 0)) := by decide

/-- P2's store, with paging off. -/
theorem test_movMoffs32Eax :
    nextWith (exec (.movMoffs32Eax 0x5008) { start [] with gprs := { (start []).gprs with eax := 0xDEADBEEF } })
      fun t => readBytes t.mem 0x5008 4 == [0xEF, 0xBE, 0xAD, 0xDE] && t.written.length == 4 := by decide

/-- P2: 11h or 80000000h. -/
theorem test_orEaxImm32 :
    nextWith (exec (.orEaxImm32 0x80000000) { start [] with gprs := { (start []).gprs with eax := 0x11 } }) fun t =>
      t.gprs.eax == 0x80000011 && t.gprs.ecx == 3 := by decide

/-! ### Page directories with few entries

A walk to a 4-KByte page looks at all 1024 entries of its directory for a doubled one (43_translation_32bit.md R189); in
these states it is enough to look at the entries that memory lists. -/

/-- The numbers of the directory entries that memory lists a first byte of. -/
def directoryCells (s : State) : List Nat :=
  (s.mem.filter fun c => decide (directorySlot s 0 ≤ c.1) && decide (c.1 < directorySlot s 0 + 4096) &&
    decide ((c.1 - directorySlot s 0) % 4 = 0)).map fun c => (c.1 - directorySlot s 0) / 4

theorem exists_cell {m : Memory} {a : Nat} (h : memByte m a ≠ blankByte) : ∃ c ∈ m, c.1 = a := by
  induction m with
  | nil => exact absurd rfl h
  | cons c m ih =>
    unfold memByte at h
    split at h
    · rename_i hc; exact ⟨c, List.mem_cons_self, hc⟩
    · obtain ⟨d, hd, hda⟩ := ih h; exact ⟨d, List.mem_cons_of_mem _ hd, hda⟩

/-- An entry that points to a page table is one that memory lists. -/
theorem mem_directoryCells {s : State} {j : Nat} (hj : j < 1024) (hp : pointsToTable s j = true) :
    j ∈ directoryCells s := by
  have hb : memByte s.mem (directorySlot s j) ≠ blankByte := by
    intro hb
    unfold pointsToTable at hp
    rw [hb] at hp
    simp [blankByte] at hp
  obtain ⟨c, hc, hca⟩ := exists_cell hb
  have h0 : directorySlot s j = directorySlot s 0 + 4 * j := by simp [directorySlot]
  refine List.mem_map.mpr ⟨c, List.mem_filter.mpr ⟨hc, ?_⟩, ?_⟩
  · simp only [Bool.and_eq_true, decide_eq_true_eq]
    omega
  · omega

/-- Entry `j` is a double of entry `i` (R188). -/
def doubleOf (s : State) (i j : Nat) : Bool :=
  j != i && pointsToTable s j &&
    (entryAt s (directorySlot s j)).extractLsb' 12 20 == (entryAt s (directorySlot s i)).extractLsb' 12 20

theorem noDoubledEntry_of {s : State} {i : Nat} (h : (directoryCells s).any (doubleOf s i) = false) :
    NoDoubledEntry s i := by
  intro j hj hne hp he
  have := List.any_eq_false.mp h j (mem_directoryCells hj hp)
  simp [doubleOf, hne, hp, he] at this

/-- Entry `j` is a double of entry `i` and differs from it in A or D (R189). -/
def differs (s : State) (i j : Nat) : Bool :=
  doubleOf s i j && (entryAt s (directorySlot s j)).extractLsb' 5 2 != (entryAt s (directorySlot s i)).extractLsb' 5 2

/-- No doubled entry differs (R189), by the listed entries. -/
def agree (s : State) (i : Nat) : Bool := !(directoryCells s).any (differs s i)

theorem doublesAgree_of {s : State} {i : Nat} (h : agree s i = true) : DoublesAgree s i := by
  intro j hj hne hp he
  have h' := List.any_eq_false.mp (by simpa [agree] using h) j (mem_directoryCells hj hp)
  simpa [differs, doubleOf, hne, hp, he] using h'

theorem not_doublesAgree_of {s : State} {i j : Nat} (h : (differs s i j && decide (j < 1024)) = true) : ¬ DoublesAgree s i := by
  simp only [differs, doubleOf, Bool.and_eq_true, bne_iff_ne, beq_iff_eq, decide_eq_true_eq] at h
  exact fun ha => h.1.2 (ha j h.2 h.1.1.1.1 h.1.1.1.2 h.1.1.2)

theorem doublesAgreeIn_of {s : State} {la : Word32} {moments : List Memory}
    (h : (moments.all fun m => agree { s with mem := m } (directoryIndex la).toNat) = true) : DoublesAgreeIn s la moments :=
  fun m hm => doublesAgree_of (List.all_eq_true.mp h m hm)

/-- The states after the write-backs of a walk to a 4-KByte page. -/
def afterPde (la : Word32) (s : State) : State :=
  writeBack (pdeAddress s.cr3 la) (entryAt s (pdeAddress s.cr3 la).toNat)
    (setA (entryAt s (pdeAddress s.cr3 la).toNat)) s

/-- The page-table entry a walk reads. -/
def pteOf (la : Word32) (s : State) : Word32 :=
  entryAt s (pteAddress (entryAt s (pdeAddress s.cr3 la).toNat) la).toNat

/-- The state after both write-backs. -/
def afterPte (la : Word32) (acc : AccessKind) (s : State) : State :=
  writeBack (pteAddress (entryAt s (pdeAddress s.cr3 la).toNat) la) (pteOf la s)
    (setDOnWrite acc (setA (pteOf la s))) (afterPde la s)

/-- `ReadsPageTable`, as one Boolean. -/
def reads (s : State) (la pde pte : Word32) : Bool :=
  mappedRange s.cfg (pdeAddress s.cr3 la).toNat 4 && pde == entryAt s (pdeAddress s.cr3 la).toNat && pFlag pde &&
    !mapsLargePage s pde && reservedOk s.cfg .pdePT pde && mappedRange s.cfg (pteAddress pde la).toNat 4 &&
    pte == entryAt s (pteAddress pde la).toNat

theorem readsPageTable_of {s : State} {la pde pte : Word32} (h : reads s la pde pte = true) : ReadsPageTable s la pde pte := by
  simp only [reads, Bool.and_eq_true, Bool.not_eq_true', beq_iff_eq] at h
  obtain ⟨⟨⟨⟨⟨⟨h1, h2⟩, h3⟩, h4⟩, h5⟩, h6⟩, h7⟩ := h
  exact ⟨h1, h2, h3, h4, h5, h6, h7⟩

/-- `ChecksPageTable`, as one Boolean. -/
def checks (s : State) (acc : AccessKind) (priv : Priv) (pde pte : Word32) (permitted : Bool) : Bool :=
  pFlag pte && reservedOk s.cfg .pte4K pte &&
    pagePermits s.cfg priv acc (wpFlag s.cr0) (usFlag pde) (rwFlag pde) (some (usFlag pte, rwFlag pte)) == permitted

theorem checksPageTable_of {s : State} {acc : AccessKind} {priv : Priv} {pde pte : Word32} {permitted : Bool}
    (h : checks s acc priv pde pte permitted = true) : ChecksPageTable s acc priv pde pte permitted := by
  simp only [checks, Bool.and_eq_true, beq_iff_eq] at h
  exact ⟨h.1.1, h.1.2, h.2⟩

/-- What a walk to a 4-KByte page checks (R190). -/
def permitted (la : Word32) (acc : AccessKind) (priv : Priv) (s : State) : Bool :=
  let pde := entryAt s (pdeAddress s.cr3 la).toNat
  reads s la pde (pteOf la s) && checks s acc priv pde (pteOf la s) true

/-- The premises of a walk through a page table, from their Booleans. -/
theorem walks_of {s : State} {la pde pte : Word32} {acc : AccessKind} {priv : Priv} {permitted : Bool}
    (h : (reads s la pde pte && checks s acc priv pde pte permitted) = true) :
    ReadsPageTable s la pde pte ∧ ChecksPageTable s acc priv pde pte permitted :=
  have h' := Bool.and_eq_true_iff.mp h
  ⟨readsPageTable_of h'.1, checksPageTable_of h'.2⟩

/-- A permitted walk with no doubled entry answers, with what its two write-backs leave. -/
theorem nextWith_walk {la : Word32} {acc : AccessKind} {priv : Priv} {s : State} {p : PhysAddr × State → Bool}
    (h : permitted la acc priv s = true)
    (ha : (agree s (directoryIndex la).toNat && agree (afterPde la s) (directoryIndex la).toNat &&
      agree (afterPte la acc s) (directoryIndex la).toNat) = true)
    (hp : p (smallPageAddress (pteOf la s) la,
      maybeFill (.page4K (la.extractLsb' 12 20) (setA (entryAt s (pdeAddress s.cr3 la).toNat))
        (setDOnWrite acc (setA (pteOf la s)))) (afterPte la acc s)) = true) :
    nextWith (walk la acc priv s) p = true := by
  simp only [Bool.and_eq_true] at ha
  have hf := finishTableWalk_plain (la := la) (acc := acc) (pteAddr := pteAddress _ la) (pte := pteOf la s)
    (doubledEntryDiffers_of_doublesAgree (doublesAgree_of ha.1.1)) (doubledEntryDiffers_of_doublesAgree (doublesAgree_of ha.1.2))
    (doubledEntryDiffers_of_doublesAgree (doublesAgree_of ha.2))
  obtain ⟨hr, hc⟩ := walks_of h
  rw [walk_eq_finish hr hc]
  exact (congrArg (nextWith · p) hf).trans hp

/-! ### Translation -/

/-- VE2. -/
theorem test_walk_write :
    nextWith (walk 0x403004 .write .supervisor (ve1 0x3007 0x5007))
      (answers 0x5004 0x2004 0x3027 0x300C 0x5067) :=
  nextWith_walk (by decide) (by decide) (by decide)

/-- VE3: the flags are set already. -/
theorem test_walk_flagsSet :
    nextWith (walk 0x403004 .write .supervisor (ve1 0x3027 0x5067))
      (fun p => p.1 == 0x5004 && p.2.mem == (ve1 0x3027 0x5067).mem) :=
  nextWith_walk (by decide) (by decide) (by decide)

/-- VE4. -/
theorem test_walk_notPresent :
    faultWith (translate 0x403004 .read .supervisor (ve1 0x3006 0x5007))
      ((.exception (.pageFault 0x403004 .read .supervisor .notPresent) (ve1 0x3006 0x5007)) == ·) := by decide

/-- VE9 (b): an entry that is its own page directory's and a page-table entry at once gets D. -/
theorem test_walk_selfMapped :
    nextWith (walk 0xFFC00010 .write .supervisor
      (paged (start (dwords [(0x2FFC, 0x2027), (0x2000, 0x3007)]))))
      (answers 0x3010 0x2000 0x3067 0x2FFC 0x2027) :=
  nextWith_walk (by decide) (by decide) (by decide)

/-- VE10. -/
theorem test_walk_reserved :
    refuses (translate 0x403004 .read .supervisor (ve1 0x3047 0x5007)) .reservedBitInPagingEntry := by decide

/-- VE26 and VE27, the check alone; VF8. -/
theorem test_walk_protection :
    pagePermits processor .supervisor .write false false true (some (false, false)) = true ∧
    pagePermits processor .supervisor .write true false true (some (false, false)) = false ∧
    faultWith (translate 0xC12345 .read .user (vf1 0x01000083))
      (raises (.pageFault 0xC12345 .read .user .protection)) := by decide

/-- VF2. -/
theorem test_walk_large :
    nextWith (translate 0xC12345 .write .supervisor (vf1 0x01000087))
      (answers 0x01012345 0x200C 0x010000E7 0x2008 0) := by decide

/-- VF3: with PSE = 0 bit 7 is ignored. -/
theorem test_walk_noPse :
    nextWith (walk 0xC12345 .read .supervisor
      (paged (start (dwords [(0x200C, 0x01000087), (0x01000048, 0x7003)]))))
      (answers 0x7345 0x200C 0x010000A7 0x01000048 0x7023) :=
  nextWith_walk (by decide) (by decide) (by decide)

/-- The tables of family L: entries 1 and 2 of the directory with one page table. -/
def doubled (p q : Word32) : State := paged (start (dwords [(0x2004, p), (0x2008, q), (0x300C, 0x5007)]))

/-- VL1: both A = 1, at every moment; VL2: one A = 1 before the walk; VL3: both 0, and one 1 just after it; VL4. -/
theorem test_doubled_entries :
    (walkMoments .read (doubled 0x3027 0x3027) 0x403004 0x3027 0x5007).map
      (fun m => agree { doubled 0x3027 0x3027 with mem := m } 1) = [true, true, true] ∧
    agree (doubled 0x3027 0x3007) 1 = false ∧
    (walkMoments .read (doubled 0x3007 0x3007) 0x403004 0x3007 0x5007).map
      (fun m => agree { doubled 0x3007 0x3007 with mem := m } 1) = [true, false, false] ∧
    agree (doubled 0x3027 0x3023) 1 = true := by decide

/-- The directory at 2000h, its entries 1 and 2 pointing to itself, so that entry 2 is the page-table entry that entry 1 leads
to. -/
def selfDoubled : State := paged (start (dwords [(0x2004, 0x2007), (0x2008, 0x2007)]))

/-- R189, "at any moment of the walk": with both A flags set by the walk the entries agree before and after, and differ
between. -/
theorem test_doubled_between :
    (pteAddress 0x2007 0x402000 = 0x2008#32 ∧ directoryIndex 0x402000 = 1#10) ∧
    (walkMoments .read selfDoubled 0x402000 0x2007 0x2007).map (fun m => agree { selfDoubled with mem := m } 1) =
      [true, false, true] ∧
    (faultMoments selfDoubled 0x402000 0x2007 0x2007).map (fun m => agree { selfDoubled with mem := m } 1) =
      [true, false, false, true] := by decide

/-- VH2, VH3, VH5, VH8, VH9. -/
theorem test_reserved_bits :
    reservedOk processor .pdePT 0x3047 = false ∧ reservedOk { processor with ignoreShouldBeZero := true } .pdePT 0x3047 ∧
    reservedOk { processor with hasPge := false } .pdePT 0x3107 = false ∧
    reservedOk { processor with hasPat := false } .pte4K 0x5087 = false ∧
    reservedOk processor .pde4M 0x013FE087 = false ∧
    reservedOk { processor with hasPat := false, ignoreShouldBeZero := true } .pde4M 0x01001087 = false := by
  decide

/-- VA4 and VM2. -/
theorem test_tables :
    descriptorInside 0x40 7 = true ∧ descriptorInside 0x40 8 = false ∧ pdptAddress 0x2FFF = 0x2FE0 := by decide

/-- VM1 and 45_pae_intro.md R242, R243: 4 entries of 64 bits at 2FE0h to 2FFFh, 512 entries in 4 KBytes; the last entry of each
table, the last of a directory at 2FE00000h. -/
theorem test_pae_tables :
    pdptBytes = 32 ∧ pdptEntryAddress 0x2FE0 0xFFFFFFFF + paeEntryBytes = 0x3000 ∧ paeTableEntries = 512 ∧
    pdptEntryAddress 0x2FE0 0x40000000 = 0x2FE8 ∧ paePdeAddress 0x2FE00000 0x3FE00000 = 0x2FE00FF8 ∧
    paePteAddress 0x2FE00000 0x001FF000 = 0x2FE00FF8 ∧
    paeEntryAt (start (dwords [(0x2FF8, 0x89ABCDEF), (0x2FFC, 0x01234567)])) 0x2FF8 = 0x0123456789ABCDEF := by decide

/-- VG1: the stale copy, memory as it was; VG6: for a write a copy with D = 0 is not used. -/
theorem test_tlb_hit :
    nextWith (translateByTlb (.page4K 0x403 0x3027 0x5027) 0x403004 .read .supervisor (ve1 0x3027 0x6007))
      (answers 0x5004 0x2004 0x3027 0x300C 0x6007) ∧
    tlbCandidates 0x403004 .write [.page4K 0x403 0x3027 0x5027] = [] := by decide

/-! ### Other instances of the functions of R5 -/

/-- Rows for one offset of DS: every use of it answers `o`. -/
def everyUse (off : Word32) (o : SegOutcome) : List (SegCase × SegOutcome) :=
  [(4, .read), (4, .write), (6, .write), (2, .write), (2, .read), (1, .none)].map fun q => (⟨.ds, off, q.1, q.2⟩, o)

/-- The start of P1 with an instance of `cfg.SegTranslate`. -/
def segmented (rows : List (SegCase × SegOutcome)) (mem : Memory) : State :=
  { start mem with cfg := { processor with segRule := .table rows } }

/-- 40_descriptor_tables.md R109, R110: the instance's address, its exception, and #GP(0) through a null selector before it. -/
theorem test_segTranslate_instance :
    nextWith (exec (.movEaxMoffs32 0x10) (segmented (everyUse 0x10 (.linear 0x5004)) (dwords [(0x5004, 0xDEADBEEF)])))
      (fun t => t.gprs.eax == 0xDEADBEEF) ∧
    faultWith (exec (.movMoffs32Eax 0x10) (segmented (everyUse 0x10 (.protection 0x18)) []))
      (raises (.generalProtection 0x18)) ∧
    faultWith (exec (.movEaxMoffs32 0x10)
      { segmented (everyUse 0x10 (.linear 0x5004)) [] with ds := { selector := 0, usable := false } })
      (raises (.generalProtection 0)) := by decide

/-- 44_paging_entries.md R205, 60_exceptions.md R256: instances that permit nothing, and that check whatever AC is. -/
theorem test_other_instances :
    pagePermits { processor with permitRule := .table [] } .supervisor .read false true true none = false ∧
    alignCheckOn { start [] with cfg := { processor with alignRule := .table [⟨0x11, 0, 2⟩] } } = true ∧
    alignCheckOn (start []) = false := by decide

/-! ### One step -/

/-- P1's first instruction: EIP goes past its seven bytes. -/
theorem test_step_sgdt :
    nextWith (step (start [(0x7000, 0x0F), (0x7001, 0x01), (0x7002, 0x05), (0x7003, 0x02), (0x7004, 0x10)]))
      fun t => t.eip == 0x7007 && readBytes t.mem 0x1002 6 == [0x3F, 0x00, 0x00, 0x00, 0x01, 0x00] := by
  decide

/-- Right after reset nothing is placed, and the first bytes are no instruction (log 32). -/
theorem test_step_reset : refuses (step State.reset) .encodingNotAdmitted := by decide

/-- A placed instruction is the next step's, right after reset. -/
theorem test_step_placed :
    nextWith (step (State.reset.withFetchWord 8 0xB9)) fun t => t.gprs.ecx == 0 && t.eip == 0xFFF5 := by
  decide

/-! ### The hypotheses of every statement can be met

One theorem for each statement of Certificates/Slice0/Obligations.lean that has hypotheses: concrete states and operands
that meet them together, clause by clause, at boundary values where a clause has a range. -/

/-- Code bytes at the address of EIP, paging off. -/
def codeAt (eip : Word32) (bs : List Byte) : State := { start (writeBytes [] eip.toNat bs) with eip := eip }

/-- Code bytes that end with the linear address space: CPUID at FFFFFFFEh. -/
def lastCode : State := codeAt 0xFFFFFFFE [0x0F, 0xA2]

/-- MOV CR3, EAX at 7000h in user mode. -/
def userCr3 : State := { codeAt 0x7000 [0x0F, 0x22, 0xD8] with cpl := 3 }

/-- MOV CR4, EDI at 7000h, where EDI sets PSE and the processor has no PSE. -/
def absentPse : State :=
  { codeAt 0x7000 [0x0F, 0x22, 0xE7] with
    cfg := { processor with hasPse := false }
    gprs := { (start []).gprs with edi := 0x10 } }

/-- VE1's state with the copies that VG puts in the TLB. -/
def cached : State := { ve1 0x3007 0x5007 with tlb := [.page4K 0x403 0x3027 0x5027] }

theorem test_witness_DecodeInvertsEncode : (Instr.sgdt (.sibDisp32 .ebp .esp 3 0xFFFFFFFF)).wf = true := by decide

theorem test_witness_DecodedBytesAreTheEncoding : decode [0x0F, 0xA2, 0x90] = .done .cpuid [0x90] := by decide

theorem test_witness_UnadmittedFormsRefused :
    (0x65 : Byte) ∈ ([0x66, 0x67, 0xF0, 0xF2, 0xF3, 0x26, 0x2E, 0x36, 0x3E, 0x64, 0x65] : List Byte) ∧
    (modField 0xF8 = 3#2 ∧ regField 0xF8 ∈ [0#3, 1#3, 7#3]) ∧ (modField 0xA3 ≠ 3#2 ∧ regField 0xA3 ∈ [0#3, 3#3, 4#3]) ∧
    regField 0xC8 ∈ [1#3, 2#3, 6#3, 7#3] := by decide

/-- The premises of a step with paging off, as one Boolean. -/
def fetchable (s : State) (i : Instr) : Bool :=
  i.wf && !pgFlag s.cr0 && decide (fetchAddress s + instrLength i ≤ 2 ^ 32) &&
    readBytes s.mem (fetchAddress s) (instrLength i) == encode i &&
    mappedRange s.cfg (fetchAddress s) (instrLength i) &&
    (List.range (instrLength i)).all fun k => decide (fetchAddress s + k ∉ s.written)

theorem fetchable_premises {s : State} {i : Instr} (h : fetchable s i = true) :
    i.wf = true ∧ pgFlag s.cr0 = false ∧ fetchAddress s + instrLength i ≤ 2 ^ 32 ∧
    readBytes s.mem (fetchAddress s) (instrLength i) = encode i ∧
    mappedRange s.cfg (fetchAddress s) (instrLength i) = true ∧
    (∀ k, k < instrLength i → fetchAddress s + k ∉ s.written) := by
  simpa [fetchable, and_assoc] using h

/-- The three ends of the instruction: CPUID at the last two addresses, MOV CR3 in user mode, MOV CR4 of an absent
feature. -/
theorem test_witness_StepRunsInstructionPagingOff :
    (fetchable lastCode .cpuid ∧ ∃ t, exec .cpuid (environment lastCode) = .next t) ∧
    (fetchable userCr3 (.movCr3FromReg .eax) ∧ ∃ e, exec (.movCr3FromReg .eax) (environment userCr3) = .fault e) ∧
    (fetchable absentPse (.movCr4FromReg .edi) ∧
      exec (.movCr4FromReg .edi) (environment absentPse) = .refused .cr4FeatureAbsent) :=
  ⟨⟨by decide, _, rfl⟩,
    ⟨by decide, (exists_fault (p := raises (.generalProtection 0)) (by decide)).imp fun _ h => h.1⟩,
    by decide, eq_refused (by decide)⟩

/-- The premises of a step on one page, but for the translation, as one Boolean. -/
def fetchableAt (s : State) (i : Instr) (p : PhysAddr × State) : Bool :=
  i.wf && decide (fetchAddress s + instrLength i ≤ 2 ^ 32) &&
    decide (fetchAddress s % 4096 + instrLength i ≤ 4096) &&
    readBytes p.2.mem p.1.toNat (instrLength i) == encode i && mappedRange s.cfg p.1.toNat (instrLength i) &&
    (List.range (instrLength i)).all fun k => decide (p.1.toNat + k ∉ s.written)

/-- CPUID in the last two bytes of page 7000h, paging on. -/
theorem test_witness_StepRunsInstructionOnOnePage :
    ∃ p, translate (BitVec.ofNat 32 (fetchAddress { p4 with eip := 0x7FFE })) .fetch .supervisor
      (environment { p4 with eip := 0x7FFE }) = .next p ∧
      fetchableAt { p4 with eip := 0x7FFE } .cpuid p = true :=
  exists_next (by decide)

/-- CPUID at the last two addresses, its first byte stored to, or its second; FFFFFFFFh alone, fetched after one byte that
decides nothing and after none; and the last byte of page 7000h, paging on. -/
theorem test_witness_FetchOfStoredByteRefused :
    (fun s : State => Instr.cpuid.wf = true ∧ pgFlag s.cr0 = false ∧ fetchAddress s + instrLength .cpuid ≤ 2 ^ 32 ∧
      readBytes s.mem (fetchAddress s) (instrLength .cpuid) = encode .cpuid ∧
      mappedRange s.cfg (fetchAddress s) (instrLength .cpuid) = true ∧
      ∀ k < instrLength .cpuid, fetchAddress s + k ∈ s.written)
      { lastCode with written := [0xFFFFFFFE, 0xFFFFFFFF] } ∧
    (fun s : State => pgFlag s.cr0 = false ∧ fetchAddress s + 1 < 2 ^ 32 ∧
      decode (readBytes s.mem (fetchAddress s) 1) = .incomplete ∧ mappedRange s.cfg (fetchAddress s) 1 = true ∧
      fetchAddress s + 1 ∈ s.written) { lastCode with written := [0xFFFFFFFF] } ∧
    (fun s : State => pgFlag s.cr0 = false ∧ fetchAddress s + 0 < 2 ^ 32 ∧
      decode (readBytes s.mem (fetchAddress s) 0) = .incomplete ∧ mappedRange s.cfg (fetchAddress s) 0 = true ∧
      fetchAddress s + 0 ∈ s.written) { start [] with eip := 0xFFFFFFFF, written := [0xFFFFFFFF] } ∧
    ∃ p, translate (BitVec.ofNat 32 (fetchAddress { p4 with eip := 0x7FFE })) .fetch .supervisor
      (environment { p4 with eip := 0x7FFE, written := [0x7FFF] }) = .next p ∧
      (fetchableAt { p4 with eip := 0x7FFE } .cpuid p && decide (p.1.toNat + 1 ∈ [0x7FFF])) = true :=
  ⟨by decide, by decide, by decide, exists_next (by decide)⟩

/-- For StepAdvancesEip, StepRunsInstructionPagingOff's first case and TableRegistersNeverChange; paging off and on. -/
theorem test_witness_StepAdvancesEip :
    (∃ t, step lastCode = .next t ∧ (t.eip == 0) = true) ∧
    (∃ t, step p4 = .next t ∧ (t.eip == 0x7002) = true) :=
  ⟨exists_next (by decide), exists_next (by decide)⟩

theorem test_witness_TableRegistersNeverChange : ∃ t, step p4 = .next t :=
  test_witness_StepAdvancesEip.2.imp fun _ h => h.1

/-- A user-mode program that tries to load CR3, and a fetch from a page that is not present. -/
theorem test_witness_FaultKeepsEveryRegister :
    (∃ e, step userCr3 = .fault e) ∧ ∃ e, step { p4 with eip := 0x800000 } = .fault e :=
  ⟨(exists_fault (p := raises (.generalProtection 0)) (by decide)).imp fun _ h => h.1,
    (exists_fault (p := raises (.pageFault 0x800000 .fetch .supervisor .notPresent)) (by decide)).imp
      fun _ h => h.1⟩

/-- A state with a TLB entry has the invariant. -/
theorem inv_cached : Inv cached :=
  ⟨by decide, by decide, by decide, by decide,
    (by simp only [cached, List.mem_singleton, forall_eq, tlbEntryOk]; decide), by decide, by decide,
    (by intro r h; cases r <;> exact absurd h (by decide)),
    by decide, by decide⟩

theorem inv_userCr3 : Inv userCr3 :=
  ⟨by decide, by decide, by decide, by decide, (by intro e he; cases he), by decide, by decide,
    (by intro r h; cases r <;> exact absurd h (by decide)), by decide, by decide⟩

theorem inv_p4 : Inv p4 :=
  ⟨by decide, by decide, by decide, by decide, (by intro e he; cases he), by decide, by decide,
    (by intro r h; cases r <;> exact absurd h (by decide)), by decide, by decide⟩

theorem test_witness_StepKeepsInvariant :
    Inv cached ∧ Inv p4 ∧ ∃ t, step p4 = .next t :=
  ⟨inv_cached, inv_p4, test_witness_TableRegistersNeverChange⟩

theorem test_witness_FaultKeepsInvariant :
    Inv userCr3 ∧ ∃ e left, step userCr3 = .fault e ∧ stateLeft (step userCr3) = some left := by
  refine ⟨inv_userCr3, ?_⟩
  obtain ⟨e, he, -⟩ := exists_fault (r := step userCr3) (p := raises (.generalProtection 0)) (by decide)
  cases e with
  | exception x left => exact ⟨_, left, he, by rw [he]; rfl⟩
  | aliasingDeadlock left => exact ⟨_, left, he, by rw [he]; rfl⟩

theorem test_witness_ConfigurationNeverChanges :
    (∃ t, stateLeft (step lastCode) = some t) ∧ ∃ t, stateLeft (step userCr3) = some t :=
  ⟨(test_witness_StepAdvancesEip.1).imp fun t h => by rw [h.1]; rfl,
    let ⟨_, _, left, _, h⟩ := test_witness_FaultKeepsInvariant; ⟨left, h⟩⟩

/-- CPUID at privilege level 3. -/
theorem test_witness_ControlRegistersNeedLevelZero :
    { lastCode with cpl := 3 }.cpl ≠ 0 ∧ ∃ t, step { lastCode with cpl := 3 } = .next t :=
  ⟨by decide, (exists_next (p := fun _ => true) (by decide)).imp fun _ h => h.1⟩

/-- For ReadControlRegisterResult and LoadCr3Result: level 0, with entries in the TLB. -/
theorem test_witness_ReadControlRegisterResult : cached.cpl = 0 := by decide

theorem test_witness_LoadCr3Result : cached.cpl = 0 := by decide

/-- PG with PAE, PG without PAE, and PG not changed. -/
theorem test_witness_LoadCr0Result :
    (fun (s : State) (r : Reg) => s.cpl = 0 ∧ pgFlag (readReg s r) = true ∧ paeFlag s.cr4 = true)
      { start [] with cr4 := 0x20 } .edi ∧
    (fun (s : State) (r : Reg) => s.cpl = 0 ∧ (pgFlag (readReg s r) = false ∨ paeFlag s.cr4 = false) ∧
      pgFlag (readReg s r) = pgFlag s.cr0) cached .edi := by decide

/-- An absent feature, PAE with PG, and a value that completes and changes no flag, or PSE alone. -/
theorem test_witness_LoadCr4Result :
    (fun (s : State) (r : Reg) => s.cpl = 0 ∧ cr4FeatureMissing s.cfg (readReg s r) = true) absentPse .edi ∧
    (fun (s : State) (r : Reg) => s.cpl = 0 ∧ cr4FeatureMissing s.cfg (readReg s r) = false ∧ pgFlag s.cr0 = true ∧
      paeFlag (readReg s r) = true) { cached with gprs := { (start []).gprs with ecx := 0x20 } } .ecx ∧
    (fun (s : State) (r : Reg) => s.cpl = 0 ∧ cr4FeatureMissing s.cfg (readReg s r) = false ∧
      paeFlag (readReg s r) = false ∧ paeFlag (readReg s r) = paeFlag s.cr4 ∧
      pgeFlag (readReg s r) = pgeFlag s.cr4 ∧ pseFlag (readReg s r) = pseFlag s.cr4) cached .edx ∧
    (fun (s : State) (r : Reg) => s.cpl = 0 ∧ cr4FeatureMissing s.cfg (readReg s r) = false ∧
      paeFlag (readReg s r) = false ∧ pseFlag (readReg s r) ≠ pseFlag s.cr4 ∧ s.cfg.pentiumOnlyPseFlush = true)
      { cached with
        cfg := { processor with pentiumOnlyPseFlush := true }, gprs := { (start []).gprs with ecx := 0x10 } } .ecx := by
  decide

theorem test_witness_PrivilegedInstructionsFault :
    { start [] with cpl := 1 }.cpl ≠ 0 ∧ { start [] with cpl := 3 }.cpl ≠ 0 := by decide

/-- The linear address of an offset in DS, in the flat instance. -/
theorem flatAddress {s : State} (h : (s.ds.usable && decide (s.cfg.segRule = .flat)) = true) (off : Word32) (n : Nat)
    (acc : SegAccess) : SegmentAddress s .ds off n acc off := by
  simp only [Bool.and_eq_true, decide_eq_true_eq] at h
  exact (segmentAddress_flat h.2).mpr ⟨h.1, rfl⟩

/-- The flat instance, and one that moves the operand. -/
theorem test_witness_InvlpgResult :
    cached.cpl = 0 ∧ OperandAddress cached (.disp 0x403000) 1 .none 0x403000 ∧
    OperandAddress (segmented (everyUse 0x10 (.linear 0x403000)) []) (.disp 0x10) 1 .none 0x403000 :=
  ⟨by decide, flatAddress (by decide) _ _ _, by decide, by decide⟩

/-- Two states with the same EAX, of which one is in user mode. -/
theorem test_witness_CpuidResult :
    { start [] with gprs := { (start []).gprs with eax := 1 } }.gprs.eax = 1#32 ∧
    ∃ t, exec .cpuid { userCr3 with gprs := { (start []).gprs with eax := 1, ecx := 0 } } = .next t :=
  ⟨by decide, _, rfl⟩

/-- The last null selector, and the first that is not. -/
theorem test_witness_LoadSegmentFromRegister :
    (readReg (start []) .ecx).extractLsb' 0 16 ∈ [0#16, 1#16, 2#16, 3#16] ∧
    (readReg { start [] with gprs := { (start []).gprs with ecx := 4 } } .ecx).extractLsb' 0 16 ∉
      [0#16, 1#16, 2#16, 3#16] := by decide

theorem test_witness_NullSelectorAlwaysFaults :
    isNullSelector ((readReg (start []) .ecx).extractLsb' 0 16) = true := by decide

/-- A null DS; an instance that denies every use of an offset; the flat instance. -/
theorem test_witness_NullSegmentOperandsFault :
    (fun s : State => s.ds.usable = false ∧ defaultSeg (.disp 0x1002) = .ds ∧ s.cpl = 0)
      { start [] with ds := { selector := 0, usable := false } } ∧
    (fun s : State => s.cpl = 0 ∧ segUsable s (defaultSeg (.disp 0x1002)) = true ∧
      ∀ q ∈ [(4, SegAccess.read), (4, .write), (6, .write), (2, .write), (2, .read), (1, .none)],
        segOutcome s.cfg .ds 0x1002 q.1 q.2 = .protection 0x18) (segmented (everyUse 0x1002 (.protection 0x18)) []) ∧
    (start []).cfg.segRule = .flat := by decide

theorem plainAccess_of {s : State} {addr n : Nat}
    (h : (!pgFlag s.cr0 && decide (addr + n ≤ 2 ^ 32) && mappedRange s.cfg addr n && !alignmentFaults addr n s) = true) :
    PlainAccess s addr n := by
  simp only [Bool.and_eq_true, Bool.not_eq_true', decide_eq_true_eq] at h
  exact ⟨h.1.1.1, h.1.1.2, h.1.2, h.2⟩

/-- VC9: six bytes that end with the linear address space; and VC13, the check on, address MOD 4 = 2. -/
theorem test_witness_StorePseudoDescriptorResult :
    (OperandAddress (start []) (.disp 0xFFFFFFFA) 6 .write 0xFFFFFFFA ∧
      PlainAccess (start []) (0xFFFFFFFA : Word32).toNat 2 ∧ PlainAccess (start []) ((0xFFFFFFFA : Word32).toNat + 2) 4) ∧
    (OperandAddress (checked (start [])) (.disp 0x1002) 6 .write 0x1002 ∧
      PlainAccess (checked (start [])) (0x1002 : Word32).toNat 2 ∧
      PlainAccess (checked (start [])) ((0x1002 : Word32).toNat + 2) 4) :=
  ⟨⟨flatAddress (by decide) _ _ _, plainAccess_of (by decide), plainAccess_of (by decide)⟩,
    flatAddress (by decide) _ _ _, plainAccess_of (by decide), plainAccess_of (by decide)⟩

/-- VC18, and the last two bytes of the linear address space. -/
theorem test_witness_StoreSelectorToMemory :
    (OperandAddress (start []) (.disp 0xFFFFFFFE) 2 .write 0xFFFFFFFE ∧
      PlainAccess (start []) (0xFFFFFFFE : Word32).toNat 2) ∧
    (OperandAddress (checked (start [])) (.disp 0x1012) 2 .write 0x1012 ∧
      PlainAccess (checked (start [])) (0x1012 : Word32).toNat 2) :=
  ⟨⟨flatAddress (by decide) _ _ _, plainAccess_of (by decide)⟩, flatAddress (by decide) _ _ _,
    plainAccess_of (by decide)⟩

/-- The last doubleword, for a load and a store. -/
theorem lastDoubleword (acc : SegAccess) :
    SegmentAddress (start []) .ds 0xFFFFFFFC 4 acc 0xFFFFFFFC ∧ PlainAccess (start []) (0xFFFFFFFC : Word32).toNat 4 :=
  ⟨flatAddress (by decide) _ _ _, plainAccess_of (by decide)⟩

theorem test_witness_StoreEaxResult :
    SegmentAddress (start []) .ds 0xFFFFFFFC 4 .write 0xFFFFFFFC ∧ PlainAccess (start []) (0xFFFFFFFC : Word32).toNat 4 :=
  lastDoubleword .write

theorem test_witness_LoadEaxResult :
    SegmentAddress (start []) .ds 0xFFFFFFFC 4 .read 0xFFFFFFFC ∧ PlainAccess (start []) (0xFFFFFFFC : Word32).toNat 4 :=
  lastDoubleword .read

theorem test_witness_StoredValueIsReadBack :
    SegmentAddress (start []) .ds 0xFFFFFFFC 4 .write 0xFFFFFFFC ∧ SegmentAddress (start []) .ds 0xFFFFFFFC 4 .read 0xFFFFFFFC ∧
    PlainAccess (start []) (0xFFFFFFFC : Word32).toNat 4 :=
  ⟨(lastDoubleword .write).1, lastDoubleword .read⟩

/-- The selector 0003h in memory, and 0004h. -/
theorem test_witness_LoadSegmentFromMemory :
    (OperandAddress (start [(0x1010, 3)]) (.disp 0x1010) 2 .read 0x1010 ∧
      PlainAccess (start [(0x1010, 3)]) (0x1010 : Word32).toNat 2 ∧
      isNullSelector (leWord16 (readBytes [(0x1010, 3)] (0x1010 : Word32).toNat 2)) = true) ∧
    (OperandAddress (start [(0x1010, 4)]) (.disp 0x1010) 2 .read 0x1010 ∧
      PlainAccess (start [(0x1010, 4)]) (0x1010 : Word32).toNat 2 ∧
      isNullSelector (leWord16 (readBytes [(0x1010, 4)] (0x1010 : Word32).toNat 2)) = false) :=
  ⟨⟨flatAddress (by decide) _ _ _, plainAccess_of (by decide), by decide⟩,
    flatAddress (by decide) _ _ _, plainAccess_of (by decide), by decide⟩

/-- An access that translates, from a computed answer. -/
theorem translatedAccess_of {s : State} {addr n : Nat} {acc : AccessKind}
    (h : nextWith (translateRange addr n acc (currentPriv s) s)
      (fun p => placesMapped s.cfg p.1 && !alignmentFaults addr n s) = true) :
    ∃ places u, TranslatedAccess s addr n acc places u := by
  obtain ⟨⟨places, u⟩, ht, hp⟩ := exists_next h
  simp only [Bool.and_eq_true, Bool.not_eq_true'] at hp
  exact ⟨places, u, ht, hp.1, hp.2⟩

/-- The same, with what holds of the places and the state after. -/
theorem translatedAccess_then {s : State} {addr n : Nat} {acc : AccessKind} {q : List (Nat × Nat) → State → Bool}
    (h : nextWith (translateRange addr n acc (currentPriv s) s)
      (fun p => placesMapped s.cfg p.1 && !alignmentFaults addr n s && q p.1 p.2) = true) :
    ∃ places u, TranslatedAccess s addr n acc places u ∧ q places u = true := by
  obtain ⟨⟨places, u⟩, ht, hp⟩ := exists_next h
  simp only [Bool.and_eq_true, Bool.not_eq_true'] at hp
  exact ⟨places, u, ⟨ht, hp.1.1, hp.1.2⟩, hp.2⟩

/-- 32 KBytes of memory, which hold P4's tables. -/
def smallMemory : State := { start [] with cfg := { processor with physMap := [⟨0, 0x8000⟩] } }

/-- The first addresses whose access wraps, and VC10, where the second store does; the first accesses past the end of memory,
paging off and on, the second store of SGDT among them. -/
theorem test_witness_AccessRefusals :
    (∀ la n acc, OperandAddress (start []) (.disp la) n acc la ∧ OperandAddress smallMemory (.disp la) n acc la ∧
      OperandAddress { p4 with cfg := smallMemory.cfg } (.disp la) n acc la) ∧
    ((0xFFFFFFFD : Word32).toNat + 4 > 2 ^ 32 ∧ (0xFFFFFFFF : Word32).toNat + 2 > 2 ^ 32) ∧
    (∀ q ∈ [((0x7FFD : Word32), 4), (0x7FFF, 2)], pgFlag smallMemory.cr0 = false ∧ q.1.toNat + q.2 ≤ 2 ^ 32 ∧
      alignmentFaults q.1.toNat q.2 smallMemory = false ∧ mappedRange smallMemory.cfg q.1.toNat q.2 = false) ∧
    (∃ p, translateRange 0xC12344 4 .read .supervisor { p4 with cfg := smallMemory.cfg } = .next p ∧
      (!alignmentFaults 0xC12344 4 { p4 with cfg := smallMemory.cfg } && !placesMapped smallMemory.cfg p.1) = true) ∧
    ((∃ places1 s1, TranslatedAccess (start []) (0xFFFFFFFC : Word32).toNat 2 .write places1 s1) ∧
      (0xFFFFFFFC : Word32).toNat + 6 > 2 ^ 32) ∧
    ∃ p, translateRange 0x7FFC 2 .write .supervisor smallMemory = .next p ∧
      (placesMapped smallMemory.cfg p.1 && !alignmentFaults 0x7FFC 2 smallMemory && !alignmentFaults 0x7FFE 4 smallMemory &&
        nextWith (translateRange 0x7FFE 4 .write .supervisor (storePlaces p.1 (leBytes 2 smallMemory.gdtr.limit) p.2))
          fun q => !placesMapped smallMemory.cfg q.1) = true :=
  ⟨fun _ _ _ => ⟨flatAddress (by decide) _ _ _, flatAddress (by decide) _ _ _, flatAddress (by decide) _ _ _⟩,
    by decide, by decide, exists_next (by decide), ⟨translatedAccess_of (by decide), by decide⟩, exists_next (by decide)⟩

/-- VC11 to VC14: the four residues, the highest addresses that do not wrap among them. -/
theorem test_witness_PseudoDescriptorAlignment :
    (∀ la, OperandAddress (checked (start [])) (.disp la) 6 .write la) ∧
    ∀ a ∈ [0xFFFFFFF7, 0xFFFFFFF8, 0xFFFFFFF9, 0xFFFFFFFA],
      (BitVec.ofNat 32 a).toNat = a ∧
      pgFlag (checked (start [])).cr0 = false ∧ a + 6 ≤ 2 ^ 32 ∧ mappedRange (checked (start [])).cfg a 6 = true ∧
      alignCheckOn (checked (start [])) = true ∧ (checked (start [])).cpl = 3 :=
  ⟨fun _ => flatAddress (by decide) _ _ _, by decide⟩

/-- P4's data segment is flat. -/
theorem p4_address (n : Nat) (acc : SegAccess) : OperandAddress p4 (.disp 0xC12344) n acc 0xC12344 :=
  flatAddress (by decide) _ _ _

/-- Paging on: the stores complete through P4's tables, so both sides of the equivalences are met. -/
theorem test_witness_StoresCompleteExactly :
    (SegmentAddress p4 .ds 0xC12344 4 .write 0xC12344 ∧
      ∃ places u, TranslatedAccess p4 (0xC12344 : Word32).toNat 4 .write places u) ∧
    (OperandAddress p4 (.disp 0xC12344) 2 .write 0xC12344 ∧
      ∃ places u, TranslatedAccess p4 (0xC12344 : Word32).toNat 2 .write places u) :=
  ⟨⟨p4_address 4 .write, translatedAccess_of (by decide)⟩, p4_address 2 .write, translatedAccess_of (by decide)⟩

theorem test_witness_StoresFrame :
    (∃ t, exec (.movMoffs32Eax 0xC12344) p4 = .next t) ∧
    (∃ t, exec (.sldt (.mem (.disp 0xC12344))) p4 = .next t) ∧
    (∃ t, exec (.str (.mem (.disp 0xC12344))) p4 = .next t) ∧
    (∃ p, translateRange (0xC12344 : Word32).toNat 4 .write (currentPriv p4) p4 = .next p) ∧
    (∃ p, translateRange (0xC12344 : Word32).toNat 2 .write (currentPriv p4) p4 = .next p) ∧
    SegmentAddress p4 .ds 0xC12344 4 .write 0xC12344 ∧ OperandAddress p4 (.disp 0xC12344) 2 .write 0xC12344 := by
  refine ⟨?_, ?_, ?_, ?_, ?_, p4_address 4 .write, p4_address 2 .write⟩ <;>
    exact (exists_next (p := fun _ => true) (by decide)).imp fun _ h => h.1

/-- P1's two stores of pseudo-descriptors, and the two accesses of the first. -/
theorem test_witness_PseudoDescriptorFrame :
    ((∃ t, exec (.sgdt (.disp 0x1002)) (start []) = .next t) ∧
      ∃ t, exec (.sidt (.disp 0x1002)) (start []) = .next t) ∧
    OperandAddress (start []) (.disp 0x1002) 6 .write 0x1002 ∧
    ∃ places1 s1 places2 s2, TranslatedAccess (start []) 0x1002 2 .write places1 s1 ∧
      TranslatedAccess (storePlaces places1 (leBytes 2 (start []).gdtr.limit) s1) (0x1002 + 2) 4 .write places2 s2 := by
  refine ⟨⟨?_, ?_⟩, flatAddress (by decide) _ _ _, ?_⟩
  · exact (exists_next (p := fun _ => true) (by decide)).imp fun _ h => h.1
  · exact (exists_next (p := fun _ => true) (by decide)).imp fun _ h => h.1
  · obtain ⟨t, h, -⟩ := exists_next (r := storePseudoDescriptor (start []).gdtr 0x1002 (start [])) (p := fun _ => true)
      (by decide)
    obtain ⟨p1, s1, p2, s2, h1, h2, -⟩ := storePseudoDescriptor_eq_next.mp h
    exact ⟨p1, s1, p2, s2, h1, h2⟩

theorem test_witness_LoadsResult :
    (SegmentAddress p4 .ds 0xC12344 4 .read 0xC12344 ∧
      ∃ places u, TranslatedAccess p4 (0xC12344 : Word32).toNat 4 .read places u) ∧
    (OperandAddress p4 (.disp 0xC12344) 2 .read 0xC12344 ∧
      ∃ places u, TranslatedAccess p4 (0xC12344 : Word32).toNat 2 .read places u) ∧
    nextWith (translateRange 0xC12344 2 .read (currentPriv p4) p4)
      (fun p => isNullSelector (leWord16 (placesBytes p.2.mem p.1))) = true :=
  ⟨⟨p4_address 4 .read, translatedAccess_of (by decide)⟩, ⟨p4_address 2 .read, translatedAccess_of (by decide)⟩,
    by decide⟩

/-- An odd address for a word, one that is 2 MOD 4 for a doubleword; level 0 for the last clause. -/
theorem test_witness_MisalignedAccessFaults :
    (∀ la n acc, OperandAddress (checked (start [])) (.disp la) n acc la) ∧
    (∀ q ∈ [((0x1002 : Word32), 4), (0x1001, 2)], alignmentFaults q.1.toNat q.2 (checked (start [])) = true ∧
      ∀ acc ∈ [AccessKind.read, .write],
        nextWith (translateRange q.1.toNat q.2 acc .user (checked (start []))) (fun _ => true)) ∧
    (start []).cpl ≠ 3 :=
  ⟨fun _ _ _ => flatAddress (by decide) _ _ _, by decide, by decide⟩

/-- P4's directory after the first store of VC20: page 0 has been written through, and may be in the TLB. -/
def p4Stored (filled : Bool) : State :=
  { p4 with
    mem := writeBytes (writeBytes p4.mem 0x2000 (leBytes 4 (0xE7 : Word32))) 0x3FFFFE (leBytes 2 (0x3F : Word16))
    tlb := bif filled then [.page4M 0 0xE7] else []
    written := [0x3FFFFF, 0x3FFFFE]
    choices := 1 }

/-- The first store of VC20 with 4-MByte pages, the first mapped and the second not, the limit in the last two bytes of the
first. -/
theorem vc20_first :
    ∃ places s1, TranslatedAccess p4 (0x3FFFFE : Word32).toNat 2 .write places s1 ∧
      p4Stored (Config.freeBool 0) = storePlaces places (leBytes 2 (0x3F : Word16)) s1 :=
  ⟨[(0x3FFFFE, 2)],
    { p4 with
      mem := writeBytes p4.mem 0x2000 (leBytes 4 (0xE7 : Word32))
      tlb := bif Config.freeBool 0 then [.page4M 0 0xE7] else [], choices := 1 },
    ⟨rfl, by decide, by decide⟩, rfl⟩

/-- Its second store, whatever the first left in the TLB. -/
theorem vc20_second : ∀ filled : Bool,
    faultWith (translateRange ((0x3FFFFE : Word32).toNat + 2) 4 .write (currentPriv p4) (p4Stored filled))
      (raises (.pageFault 0x400000 .write .supervisor .notPresent)) = true := by decide

/-- VE4: a directory entry that is not present; VC20; VC11. -/
theorem test_witness_TranslationFaultEndsInstruction :
    ((∀ n acc, OperandAddress (ve1 0x3006 0x5007) (.disp 0x403004) n acc 0x403004) ∧
      ∀ acc ∈ [AccessKind.read, .write], ∀ n ∈ [2, 4],
        faultWith (translateRange (0x403004 : Word32).toNat n acc (currentPriv (ve1 0x3006 0x5007)) (ve1 0x3006 0x5007))
          (fun _ => true)) ∧
    (OperandAddress p4 (.disp 0x3FFFFE) 6 .write 0x3FFFFE ∧ p4.gdtr.limit = 0x3F ∧
      ∃ places s1, TranslatedAccess p4 (0x3FFFFE : Word32).toNat 2 .write places s1 ∧
        ∃ e, translateRange ((0x3FFFFE : Word32).toNat + 2) 4 .write (currentPriv p4)
          (storePlaces places (leBytes 2 (0x3F : Word16)) s1) = .fault e) ∧
    (OperandAddress (checked (start [])) (.disp 0x1000) 6 .write 0x1000 ∧ (checked (start [])).gdtr.limit = 0x3F ∧
      ∃ places s1, TranslatedAccess (checked (start [])) (0x1000 : Word32).toNat 2 .write places s1 ∧
        nextWith (translateRange ((0x1000 : Word32).toNat + 2) 4 .write (currentPriv (checked (start [])))
          (storePlaces places (leBytes 2 (0x3F : Word16)) s1))
          (fun _ => alignmentFaults ((0x1000 : Word32).toNat + 2) 4 (checked (start []))) = true) := by
  refine ⟨⟨fun _ _ => flatAddress (by decide) _ _ _, by decide⟩, ⟨flatAddress (by decide) _ _ _, rfl, ?_⟩,
    flatAddress (by decide) _ _ _, rfl, translatedAccess_then (by decide)⟩
  obtain ⟨places, s1, h1, h2⟩ := vc20_first
  exact ⟨places, s1, h1, h2 ▸ (exists_fault (vc20_second _)).imp fun _ h => h.1⟩

theorem test_witness_PagingOffIsIdentity : pgFlag (start []).cr0 = false := by decide

/-- VE4. -/
theorem test_witness_NotPresentDirectoryEntryFaults :
    (fun s : State => pgFlag s.cr0 = true ∧ paeFlag s.cr4 = false ∧ tlbCandidates 0x403004 .read s.tlb = [] ∧
      mappedRange s.cfg (pdeAddress s.cr3 0x403004).toNat 4 = true ∧
      (entryAt s (pdeAddress s.cr3 0x403004).toNat).getLsbD 0 = false) (ve1 0x3006 0x5007) := by decide

/-- VE5; and with a doubled entry that agrees, as in VL1. -/
theorem test_witness_NotPresentTableEntryFaults :
    (ReadsPageTable (ve1 0x3007 0x5006) 0x403004 0x3007 0x5006 ∧ pFlag 0x5006 = false ∧
      DoublesAgreeIn (ve1 0x3007 0x5006) 0x403004
        [(ve1 0x3007 0x5006).mem, withPdeAccessed (ve1 0x3007 0x5006) 0x403004 0x3007 (ve1 0x3007 0x5006).mem]) ∧
    (ReadsPageTable (doubled 0x3027 0x3027) 0x404004 0x3027 0 ∧ pFlag 0 = false ∧
      DoublesAgreeIn (doubled 0x3027 0x3027) 0x404004
        [(doubled 0x3027 0x3027).mem, withPdeAccessed (doubled 0x3027 0x3027) 0x404004 0x3027 (doubled 0x3027 0x3027).mem]) :=
  ⟨⟨readsPageTable_of (by decide), by decide, doublesAgreeIn_of (by decide)⟩, readsPageTable_of (by decide), by decide,
    doublesAgreeIn_of (by decide)⟩

/-- VE2; VL1; and VE9 (a), where the two entries are one. -/
theorem test_witness_SmallPageWalk :
    ((ReadsPageTable (ve1 0x3007 0x5007) 0x403004 0x3007 0x5007 ∧
      ChecksPageTable (ve1 0x3007 0x5007) .write .user 0x3007 0x5007 true) ∧
      DoublesAgreeIn (ve1 0x3007 0x5007) 0x403004 (walkMoments .write (ve1 0x3007 0x5007) 0x403004 0x3007 0x5007) ∧
      pteAddress 0x3007 0x403004 ≠ pdeAddress (ve1 0x3007 0x5007).cr3 0x403004) ∧
    ((ReadsPageTable (doubled 0x3027 0x3027) 0x403004 0x3027 0x5007 ∧
      ChecksPageTable (doubled 0x3027 0x3027) .read .user 0x3027 0x5007 true) ∧
      DoublesAgreeIn (doubled 0x3027 0x3027) 0x403004
        (walkMoments .read (doubled 0x3027 0x3027) 0x403004 0x3027 0x5007)) ∧
    (fun s : State => (ReadsPageTable s 0xFFFFF123 0x2007 0x2007 ∧ ChecksPageTable s .write .user 0x2007 0x2007 true) ∧
      DoublesAgreeIn s 0xFFFFF123 (walkMoments .write s 0xFFFFF123 0x2007 0x2007) ∧
      pteAddress 0x2007 0xFFFFF123 = pdeAddress s.cr3 0xFFFFF123) (paged (start (dwords [(0x2FFC, 0x2007)]))) :=
  ⟨⟨walks_of (by decide), doublesAgreeIn_of (by decide), by decide⟩,
    ⟨walks_of (by decide), doublesAgreeIn_of (by decide)⟩,
    walks_of (by decide), doublesAgreeIn_of (by decide), by decide⟩

/-- VF2. -/
theorem test_witness_LargePageWalk :
    (fun (s : State) (pde : Word32) => pde = entryAt s (pdeAddress s.cr3 0xC12345).toNat ∧
      mappedRange s.cfg (pdeAddress s.cr3 0xC12345).toNat 4 = true ∧ pFlag pde = true ∧ mapsLargePage s pde = true ∧
      reservedOk s.cfg .pde4M pde = true ∧
      pagePermits s.cfg .user .write (wpFlag s.cr0) (usFlag pde) (rwFlag pde) none = true) (vf1 0x01000087) 0x01000087 := by
  decide

/-- VF8; VE25, where the directory entry denies, alone and with a doubled entry that agrees; the same copies in the TLB; the
default instance. -/
theorem test_witness_DeniedLargePageFaults :
    (fun (s : State) (pde : Word32) => pde = entryAt s (pdeAddress s.cr3 0xC12345).toNat ∧
      mappedRange s.cfg (pdeAddress s.cr3 0xC12345).toNat 4 = true ∧ pFlag pde = true ∧ mapsLargePage s pde = true ∧
      reservedOk s.cfg .pde4M pde = true ∧
      pagePermits s.cfg .user .read (wpFlag s.cr0) (usFlag pde) (rwFlag pde) none = false) (vf1 0x01000083) 0x01000083 ∧
    ((ReadsPageTable (ve1 0x3003 0x5007) 0x403004 0x3003 0x5007 ∧
      ChecksPageTable (ve1 0x3003 0x5007) .read .user 0x3003 0x5007 false) ∧
      DoublesAgreeIn (ve1 0x3003 0x5007) 0x403004 (faultMoments (ve1 0x3003 0x5007) 0x403004 0x3003 0x5007)) ∧
    ((ReadsPageTable (doubled 0x3023 0x3023) 0x403004 0x3023 0x5007 ∧
      ChecksPageTable (doubled 0x3023 0x3023) .read .user 0x3023 0x5007 false) ∧
      DoublesAgreeIn (doubled 0x3023 0x3023) 0x403004 (faultMoments (doubled 0x3023 0x3023) 0x403004 0x3023 0x5007)) ∧
    (fun s : State => pgFlag s.cr0 = true ∧ paeFlag s.cr4 = false ∧ tlbCandidates 0x403004 .read s.tlb ≠ [] ∧
      ∀ e ∈ s.tlb, tlbMatches 0x403004 e = true ∧ tlbPermits s.cfg .user .read (wpFlag s.cr0) e = false)
      { ve1 0x3003 0x5007 with tlb := [.page4K 0x403 0x3023 0x5027, .page4M 1 0x010000A3] } ∧
    processor.permitRule = .standard :=
  ⟨by decide, ⟨walks_of (by decide), doublesAgreeIn_of (by decide)⟩, ⟨walks_of (by decide), doublesAgreeIn_of (by decide)⟩,
    by decide, rfl⟩

/-- VF1, and VF3, where PSE is 0. -/
theorem test_witness_PageSizeSelection :
    (∃ p, walk 0xC12345 .read .supervisor (vf1 0x01000087) = .next p) ∧
    (pseFlag (vf1 0x01000087).cr4 = true ∧ (0x01000087 : Word32).getLsbD 7 = true) ∧
    (∃ p, walk 0xC12345 .read .supervisor (paged (start (dwords [(0x200C, 0x01000087), (0x01000048, 0x7003)]))) = .next p) ∧
    pseFlag (paged (start [])).cr4 = false :=
  ⟨(exists_next (p := fun _ => true) (by decide)).imp fun _ h => h.1, by decide,
    (exists_next test_walk_noPse).imp fun _ h => h.1, by decide⟩

/-- Walks that complete: VE2, and VE3 and VF2's last state, where the flags are set already. -/
theorem test_witness_AccessedAndDirtyFlags :
    (∃ p, walk 0xC12345 .write .supervisor (vf1 0x010000E7) = .next p) ∧
    (0x010000E7#32 = entryAt (vf1 0x010000E7) 0x200C ∧ pdeAddress (vf1 0x010000E7).cr3 0xC12345 = 0x200C#32 ∧
      mapsLargePage (vf1 0x010000E7) 0x010000E7 = true) ∧
    (∃ p, walk 0x403004 .write .supervisor (ve1 0x3007 0x5007) = .next p) ∧
    (∃ p, walk 0x403004 .write .supervisor (ve1 0x3027 0x5067) = .next p) ∧
    (mapsLargePage (ve1 0x3027 0x5067) 0x3027 = false ∧
      pteAddress 0x3027 0x403004 ≠ pdeAddress (ve1 0x3027 0x5067).cr3 0x403004) ∧
    (aFlag 0x3027 = true ∧ aFlag 0x5067 = true ∧ dFlag 0x5067 = true) :=
  ⟨(exists_next (p := fun _ => true) (by decide)).imp fun _ h => h.1, by decide,
    (exists_next test_walk_write).imp fun _ h => h.1, (exists_next test_walk_flagsSet).imp fun _ h => h.1,
    by decide, by decide⟩

theorem test_witness_TranslationRaisesPageFaultsOnly :
    ∃ e, translate 0x403004 .read .supervisor (ve1 0x3006 0x5007) = .fault e :=
  (exists_fault (p := fun _ => true) (by decide)).imp fun _ h => h.1

/-- Another data doubleword at 5004h, another EAX and another EIP. -/
def elsewhere (s : State) : State :=
  { s with eip := 0, gprs := { s.gprs with eax := 0 }, mem := writeBytes s.mem 0x5004 (leBytes 4 0xDEADBEEF#32) }

/-- The directory at 2000h and the page-table entry at 300Ch are as they were. -/
theorem elsewhere_agrees (s : State) :
    (∀ k, k < 4096 → memByte (elsewhere s).mem (0x2000 + k) = memByte s.mem (0x2000 + k)) ∧
    entryAt (elsewhere s) 0x300C = entryAt s 0x300C :=
  ⟨fun _ _ => memByte_writeBytes_other _ _ _ _ (.inl (by omega)),
    congrArg leWord32 (readBytes_congr _ _ _ _ fun _ _ => memByte_writeBytes_other _ _ _ _ (.inl (by omega)))⟩

/-- Two states that differ elsewhere: VE1's walk and VE4's fault. -/
theorem test_witness_TranslationInputs :
    (∀ s ∈ [ve1 0x3007 0x5007, ve1 0x3006 0x5007], (elsewhere s).cfg = s.cfg ∧ (elsewhere s).cr0 = s.cr0 ∧
      (elsewhere s).cr3 = s.cr3 ∧ (elsewhere s).cr4 = s.cr4 ∧ (elsewhere s).tlb = s.tlb ∧
      (elsewhere s).choices = s.choices) ∧
    (0x3007 = entryAt (ve1 0x3007 0x5007) (pdeAddress (ve1 0x3007 0x5007).cr3 0x403004).toNat ∧
      (pageDirectoryBase (ve1 0x3007 0x5007).cr3).toNat = 0x2000 ∧ (pteAddress 0x3007 0x403004).toNat = 0x300C) ∧
    (∃ p, walk 0x403004 .write .supervisor (ve1 0x3007 0x5007) = .next p) ∧
    ∃ e, translate 0x403004 .read .supervisor (ve1 0x3006 0x5007) = .fault e :=
  ⟨fun _ _ => ⟨rfl, rfl, rfl, rfl, rfl, rfl⟩, by decide, (exists_next test_walk_write).imp fun _ h => h.1,
    (exists_fault (p := fun _ => true) (by decide)).imp fun _ h => h.1⟩

/-- VE1, without doubled entries; VL1; VL2 and VL3 for a walk that completes, and VL2 for a walk that faults, through a page-table
entry that is not present or by a denied access. -/
theorem test_witness_DeadlockNeedsDoubledEntry :
    NoDoubledEntry (ve1 0x3007 0x5007) (directoryIndex 0x403004).toNat ∧
    (fun s : State => 0x3027#32 = entryAt s (pdeAddress s.cr3 0x403004).toNat ∧
      0x5007#32 = entryAt s (pteAddress 0x3027 0x403004).toNat ∧
      DoublesAgreeIn s 0x403004 (walkMoments .read s 0x403004 0x3027 0x5007 ++ faultMoments s 0x403004 0x3027 0x5007))
      (doubled 0x3027 0x3027) ∧
    ((ReadsPageTable (doubled 0x3027 0x3007) 0x403004 0x3027 0x5007 ∧
      ChecksPageTable (doubled 0x3027 0x3007) .read .user 0x3027 0x5007 true) ∧
      ¬ DoublesAgreeIn (doubled 0x3027 0x3007) 0x403004
        (walkMoments .read (doubled 0x3027 0x3007) 0x403004 0x3027 0x5007)) ∧
    ((ReadsPageTable (doubled 0x3007 0x3007) 0x403004 0x3007 0x5007 ∧
      ChecksPageTable (doubled 0x3007 0x3007) .read .user 0x3007 0x5007 true) ∧
      ¬ DoublesAgreeIn (doubled 0x3007 0x3007) 0x403004
        (walkMoments .read (doubled 0x3007 0x3007) 0x403004 0x3007 0x5007)) ∧
    (ReadsPageTable (doubled 0x3027 0x3007) 0x404004 0x3027 0 ∧ pFlag 0 = false ∧
      ¬ DoublesAgreeIn (doubled 0x3027 0x3007) 0x404004 ((faultPath (doubled 0x3027 0x3007) 0x404004 0x3027 0).take (1 + 1))) ∧
    ((ReadsPageTable (doubled 0x3023 0x3007) 0x403004 0x3023 0x5007 ∧
      ChecksPageTable (doubled 0x3023 0x3007) .read .user 0x3023 0x5007 false) ∧
      ¬ DoublesAgreeIn (doubled 0x3023 0x3007) 0x403004
        ((faultPath (doubled 0x3023 0x3007) 0x403004 0x3023 0x5007).take (2 + 1))) :=
  ⟨noDoubledEntry_of (by decide), ⟨by decide, by decide, doublesAgreeIn_of (by decide)⟩,
    ⟨walks_of (by decide), fun h => not_doublesAgree_of (j := 2) (by decide) (h _ List.mem_cons_self)⟩,
    ⟨walks_of (by decide),
      fun h => not_doublesAgree_of (j := 2) (by decide) (h _ (List.mem_cons_of_mem _ List.mem_cons_self))⟩,
    ⟨readsPageTable_of (by decide), by decide,
      fun h => not_doublesAgree_of (j := 2) (by decide) (h _ List.mem_cons_self)⟩,
    walks_of (by decide), fun h => not_doublesAgree_of (j := 2) (by decide) (h _ List.mem_cons_self)⟩

/-- A state with a copy of the page in the TLB: the one entry a read may use, and none for a write, whose D is 0. -/
theorem test_witness_InvalidatedPageIsWalked :
    (pgFlag cached.cr0 = true ∧ paeFlag cached.cr4 = false ∧
      tlbCandidates 0x403004 .read cached.tlb = [.page4K 0x403 0x3027 0x5027] ∧
      tlbCandidates 0x403004 .write cached.tlb = []) ∧
    OperandAddress cached (.disp 0x403004) 1 .none 0x403004 ∧
    (∃ t, exec (.invlpg (.disp 0x403004)) cached = .next t) ∧ pgeFlag cached.cr4 = false ∧
    ∃ t, exec (.movCr3FromReg .eax) cached = .next t := by
  refine ⟨by decide, flatAddress (by decide) _ _ _, ?_, by decide, ?_⟩ <;>
    exact (exists_next (p := fun _ => true) (by decide)).imp fun _ h => h.1

theorem test_witness_ReservedBitMasks : processor.ignoreShouldBeZero = false := by decide

/-- VE10, VF5 and VE11, and paging with PAE = 1; 32 KBytes of memory, with the directory or the page table right after them. -/
theorem test_witness_ReservedBitsAndPaeRefused :
    (pgFlag (paged (start [])).cr0 = true ∧ paeFlag { paged (start []) with cr4 := 0x20 }.cr4 = true) ∧
    (fun (s : State) (pde : Word32) => pde = entryAt s (pdeAddress s.cr3 0x403004).toNat ∧ paeFlag s.cr4 = false ∧
      mappedRange s.cfg (pdeAddress s.cr3 0x403004).toNat 4 = true ∧ pFlag pde = true ∧
      reservedOk s.cfg (if mapsLargePage s pde then .pde4M else .pdePT) pde = false) (ve1 0x3047 0x5007) 0x3047 ∧
    (fun (s : State) (pde : Word32) => pde = entryAt s (pdeAddress s.cr3 0xC12345).toNat ∧ paeFlag s.cr4 = false ∧
      mappedRange s.cfg (pdeAddress s.cr3 0xC12345).toNat 4 = true ∧ pFlag pde = true ∧
      reservedOk s.cfg (if mapsLargePage s pde then .pde4M else .pdePT) pde = false) (vf1 0x01002087) 0x01002087 ∧
    (fun (s : State) (pde : Word32) => pde = entryAt s (pdeAddress s.cr3 0x403004).toNat ∧ paeFlag s.cr4 = false ∧
      mappedRange s.cfg (pdeAddress s.cr3 0x403004).toNat 4 = true ∧ pFlag pde = true ∧ mapsLargePage s pde = false ∧
      reservedOk s.cfg .pdePT pde = true ∧ mappedRange s.cfg (pteAddress pde 0x403004).toNat 4 = true ∧
      pFlag (entryAt s (pteAddress pde 0x403004).toNat) = true ∧
      reservedOk s.cfg .pte4K (entryAt s (pteAddress pde 0x403004).toNat) = false)
      { ve1 0x3007 0x5087 with cfg := { processor with hasPat := false } } 0x3007 ∧
    mappedRange smallMemory.cfg (pdeAddress 0x8000 0x403004).toNat 4 = false ∧
    (fun (s : State) (pde : Word32) => pde = entryAt s (pdeAddress s.cr3 0x403004).toNat ∧
      mappedRange s.cfg (pdeAddress s.cr3 0x403004).toNat 4 = true ∧ pFlag pde = true ∧ mapsLargePage s pde = false ∧
      reservedOk s.cfg .pdePT pde = true ∧ mappedRange s.cfg (pteAddress pde 0x403004).toNat 4 = false)
      { ve1 0x8007 0x5007 with cfg := smallMemory.cfg } 0x8007 := by
  decide

/-- VA1, VA2 and VA5: limit 0, and 8N - 1 for N = 1 and N = 8192. -/
theorem test_witness_DescriptorTableLimits :
    (0#16).toNat = 0 ∧ (7#16).toNat + 1 = 8 * 1 ∧ (0xFFFF#16).toNat + 1 = 8 * 8192 := by decide

/-- VA7; the first descriptor beyond the limit of GDT and of LDT; the last inside an LDT. -/
theorem test_witness_DescriptorReadOutcomes :
    (isNullSelector 8#16 = false ∧ selectorInLdt 8#16 = false ∧ tableWraps ⟨0xFFFFFFF9, 7⟩ = true) ∧
    (isNullSelector 0x40#16 = false ∧ selectorInLdt 0x40#16 = false ∧ tableWraps (start []).gdtr = false ∧
      8 * selectorIndex 0x40#16 + 7 > (start []).gdtr.limit.toNat) ∧
    (isNullSelector 0x14#16 = false ∧ selectorInLdt 0x14#16 = true ∧
      8 * selectorIndex 0x14#16 + 7 > (start []).ldtr.limit.toNat) ∧
    (isNullSelector 0xC#16 = false ∧ selectorInLdt 0xC#16 = true ∧
      8 * selectorIndex 0xC#16 + 7 ≤ (start []).ldtr.limit.toNat ∧ pgFlag (start []).cr0 = false ∧
      (start []).ldtr.base.toNat + 8 * selectorIndex 0xC#16 + 8 ≤ 2 ^ 32 ∧
      mappedRange (start []).cfg ((start []).ldtr.base.toNat + 8 * selectorIndex 0xC#16) 8 = true) := by decide

end Sys2Proof.Tests
end

/-! ## Whole-machine rules of 10_state.md: what a step leaves, whichever way it ends -/

namespace Sys2Proof.Machine

/-! ### What an instruction leaves -/

/-- `t` has every field of `s` that no instruction writes: the configuration, EIP (which the step moves, not the
instruction, 10_state.md R23), the base of CS, the table registers and CPL. -/
def FixedFields (s t : State) : Prop :=
  t = { s with
    gprs := t.gprs, eflags := t.eflags, cr0 := t.cr0, cr3 := t.cr3, cr4 := t.cr4
    es := t.es, ds := t.ds, fs := t.fs, gs := t.gs
    mem := t.mem, tlb := t.tlb, written := t.written, choices := t.choices }

theorem FixedFields.trans {s t u : State} (h : FixedFields s t) (h' : FixedFields t u) : FixedFields s u := by
  unfold FixedFields at *
  rw [h] at h'
  exact h'

theorem FixedFields.cfg {s t : State} (h : FixedFields s t) : t.cfg = s.cfg := by rw [h]

theorem FixedFields.eip {s t : State} (h : FixedFields s t) : t.eip = s.eip := by rw [h]

theorem SameRegisters.fixedFields {s t : State} (h : SameRegisters s t) : FixedFields s t := by
  unfold FixedFields
  rw [h]

theorem fixedFields_writeReg (r : Reg) (v : Word32) (s : State) : FixedFields s (writeReg r v s) := rfl

theorem fixedFields_writeDataSeg (r : DataSeg) (v : SegReg) (s : State) : FixedFields s (writeDataSeg r v s) := by
  cases r <;> rfl

theorem fixedFields_loadCr3 (v : Word32) (s : State) : FixedFields s (loadCr3 v s) := rfl

theorem fixedFields_flushPage (la : Word32) (s : State) : FixedFields s (flushPage la s) := rfl

theorem fixedFields_dropAny (s : State) : FixedFields s (dropAny s) := rfl

/-- The state a fault leaves the processor in. -/
def faultState : Fault → State
  | .exception _ left => left
  | .aliasingDeadlock left => left

theorem stateLeft_fault (e : Fault) : stateLeft (.fault e) = some (faultState e) := by
  cases e <;> rfl

theorem ensures_fault {β : Type} {left : β → State} {R : State → Prop} (e : Fault) :
    Ensures left R (.fault e) ↔ R (faultState e) := by
  cases e <;> rfl

/-- How an instruction begun in `s` may end: completed, with the fixed fields kept; or in a fault, with every register
kept (10_state.md R22). -/
def ExecEnds (s : State) : Host.Outcome State Fault Refusal → Prop
  | .next t => FixedFields s t
  | .fault e => SameRegisters s (faultState e)
  | .refused _ => True

theorem Ensures.execEnds {s : State} {o : Host.Outcome State Fault Refusal} (h : Ensures id (SameRegisters s) o) :
    ExecEnds s o := by
  rcases o with t | e | why
  · exact h.fixedFields
  · exact (ensures_fault e).mp h
  · trivial

theorem ExecEnds.ensures_cfg {s : State} {o : Host.Outcome State Fault Refusal} (h : ExecEnds s o) :
    Ensures id (fun t => t.cfg = s.cfg) o := by
  rcases o with t | e | why
  · exact FixedFields.cfg h
  · exact (ensures_fault e).mpr (SameRegisters.cfg h)
  · trivial

/-- Operations before the first register is written keep every register, so the rest decides how the instruction ends. -/
theorem execEnds_andThen {α : Type} {s : State} {r : Result α} {f : α → State → Host.Outcome State Fault Refusal}
    (h : Ensures Prod.snd (SameRegisters s) r) (hf : ∀ a t, SameRegisters s t → ExecEnds s (f a t)) :
    ExecEnds s (andThen r f) := by
  rcases r with ⟨a, t⟩ | e | why
  · exact hf a t h
  · exact (ensures_fault e).mp h
  · trivial

theorem execEnds_requireLevel0 {s : State} {k : Host.Outcome State Fault Refusal} (h : ExecEnds s k) :
    ExecEnds s (requireLevel0 s k) := by
  unfold requireLevel0
  split
  · exact h
  · exact SameRegisters.refl s

theorem execEnds_writeCr0 (v : Word32) (s : State) : ExecEnds s (writeCr0 v s) := by
  unfold writeCr0
  split
  · trivial
  · split
    · exact fixedFields_dropAny { s with cr0 := v }
    · exact rfl

theorem execEnds_writeCr4 (v : Word32) (s : State) : ExecEnds s (writeCr4 v s) := by
  unfold writeCr4
  split
  · trivial
  · split
    · trivial
    · rcases tlbAfterCr4_cases s.cr4 { s with cr4 := v } with hc | hc <;> rw [hc]
      · exact rfl
      · exact fixedFields_dropAny { s with cr4 := v }

theorem execEnds_loadDataSeg {s t : State} (h : SameRegisters s t) (r : DataSeg) (sel : Word16) :
    ExecEnds s (loadDataSeg r sel t) := by
  unfold loadDataSeg
  split
  · exact h.fixedFields.trans (fixedFields_writeDataSeg r _ t)
  · trivial

/-- A store to memory keeps every register. -/
theorem execEnds_memWrite {s t : State} (h : SameRegisters s t) (addr : Nat) (bs : List Byte) :
    ExecEnds s (andThen (memWrite addr bs t) fun _ u => .next u) :=
  execEnds_andThen ((ensures_memWrite addr bs t).mono fun _ hu => h.trans hu.1) fun _ _ hu => hu.fixedFields

theorem execEnds_storeSelector (sel : Word16) (dst : RegMem) (s : State) : ExecEnds s (storeSelector sel dst s) := by
  cases dst with
  | reg r => exact fixedFields_writeReg r _ (useChoices 1 s)
  | mem m =>
    exact execEnds_andThen (ensures_memOperand (SameRegisters.refl s)) fun la _ ht => execEnds_memWrite ht la.toNat _

theorem execEnds_storePseudoDescriptor {s t : State} (h : SameRegisters s t) (d : TableReg) (a : Nat) :
    ExecEnds s (storePseudoDescriptor d a t) :=
  ((ensures_storePseudoDescriptor d a t).mono fun _ hu => h.trans hu.1).execEnds

/-- How an instruction ends, one case for each. -/
theorem execEnds_exec (i : Instr) (s : State) : ExecEnds s (exec i s) := by
  have h0 := SameRegisters.refl s
  cases i with
  | sgdt m =>
    show ExecEnds s (execSgdt m s)
    exact execEnds_andThen (ensures_memOperand h0) fun _ t ht => execEnds_storePseudoDescriptor ht t.gdtr _
  | sidt m =>
    show ExecEnds s (execSidt m s)
    exact execEnds_andThen (ensures_memOperand h0) fun _ t ht => execEnds_storePseudoDescriptor ht t.idtr _
  | invlpg m =>
    exact execEnds_requireLevel0 <| execEnds_andThen (ensures_memOperand h0) fun la t ht =>
      ht.fixedFields.trans (fixedFields_flushPage la t)
  | sldt dst => exact execEnds_storeSelector _ dst s
  | str dst => exact execEnds_storeSelector _ dst s
  | movCr0FromReg r => exact execEnds_requireLevel0 (execEnds_writeCr0 _ s)
  | movRegFromCr0 r => exact execEnds_requireLevel0 (fixedFields_writeReg r _ s)
  | movCr3FromReg r => exact execEnds_requireLevel0 (fixedFields_loadCr3 _ s)
  | movRegFromCr3 r => exact execEnds_requireLevel0 (fixedFields_writeReg r _ s)
  | movCr4FromReg r => exact execEnds_requireLevel0 (execEnds_writeCr4 _ s)
  | movRegFromCr4 r => exact execEnds_requireLevel0 (fixedFields_writeReg r _ s)
  | cpuid => exact rfl
  | movSreg r src =>
    exact execEnds_andThen ((ensures_readRegMem16 src s).mono fun _ ht => ht.1.same) fun sel _ ht =>
      execEnds_loadDataSeg ht r sel
  | movRegImm32 r imm => exact fixedFields_writeReg r imm s
  | movEaxMoffs32 off =>
    show ExecEnds s (execMovEaxMoffs32 off s)
    refine execEnds_andThen (ensures_segTranslate h0) fun la t ht => ?_
    refine execEnds_andThen ((ensures_memRead _ 4 t).mono fun _ hu => ht.trans hu.1.same) fun bs u hu => ?_
    exact hu.fixedFields.trans (fixedFields_writeReg .eax _ u)
  | movMoffs32Eax off =>
    show ExecEnds s (execMovMoffs32Eax off s)
    exact execEnds_andThen (ensures_segTranslate h0) fun la _ ht => execEnds_memWrite ht la.toNat _
  | orEaxImm32 imm => exact rfl

/-! ### What a step leaves -/

theorem Ensures.complete {R : State → Prop} {i : Instr} {o : Host.Outcome State Fault Refusal} (h : Ensures id R o)
    (ha : ∀ t, R t → R (advance i t)) : Ensures id R (complete i o) := by
  rcases o with t | e | why
  · exact ha t h
  · exact h
  · trivial

/-- A property that the fetch establishes, that every instruction keeps or establishes after the fetch, and that the
advance of EIP keeps, holds of whatever state the step leaves. -/
theorem ensures_step {R : State → Prop} {s : State} (hfetch : ∀ t, WalkKeeps .fetch s t → R t)
    (hexec : ∀ i u, WalkKeeps .fetch s u → Ensures id R (exec i u)) (hadvance : ∀ i t, R t → R (advance i t)) :
    Ensures id R (step s) := by
  have hw : Ensures Prod.snd (WalkKeeps .fetch s) (fetchInstr (environment s)) :=
    (ensures_fetchInstr _).mono fun _ ht => (walkKeeps_environment s).trans ht
  unfold step
  exact ensures_andThen (hw.mono hfetch) fun i u hu _ => (hexec i u (hw.next hu)).complete (hadvance i)

/-- Whatever state a step leaves, the invariant goes over to it. -/
theorem ensures_step_inv (s : State) : Ensures id (fun t => Inv s → Inv t) (step s) :=
  ensures_step (fun _ ht => ht.2) (fun i u hu => (ensures_exec_inv i u).mono fun _ ht hs => ht (hu.2 hs))
    fun i _ ht hs => (ht hs).advance i

theorem ensures_step_cfg (s : State) : Ensures id (fun t => t.cfg = s.cfg) (step s) :=
  ensures_step (fun _ ht => ht.1.same.cfg)
    (fun i u hu => (execEnds_exec i u).ensures_cfg.mono fun _ ht => ht.trans hu.1.same.cfg) fun _ _ ht => ht

/-- A step ends in a fault in its fetch, or in the instruction it fetched. -/
theorem step_eq_fault {s : State} {e : Fault} :
    step s = .fault e ↔ fetchInstr (environment s) = .fault e ∨
      ∃ i u, fetchInstr (environment s) = .next (i, u) ∧ exec i u = .fault e := by
  have hc : ∀ i u, complete i (exec i u) = .fault e ↔ exec i u = .fault e := fun i u => by
    rcases exec i u with t | e' | why <;> simp [complete]
  unfold step
  simp only [andThen_eq_fault, hc]

/-- A step that ends in a fault leaves every register as it was (10_state.md R22). -/
theorem sameRegisters_of_step_fault {s : State} {e : Fault} (h : step s = .fault e) :
    SameRegisters s (faultState e) := by
  rcases step_eq_fault.mp h with hf | ⟨i, u, hf, he⟩
  · have hw := ensures_fetchInstr (environment s)
    rw [hf, ensures_fault] at hw
    exact (walkKeeps_environment s).1.same.trans hw.1.same
  · have hx := execEnds_exec i u
    rw [he] at hx
    exact (walkKeeps_fetch hf).1.same.trans hx

/-! ### The obligations -/

/-- Settles O12: fetch, instruction and advance of EIP each keep the invariant. -/
theorem stepKeepsInvariant : Obligations.StepKeepsInvariant :=
  fun s _ hs h => (ensures_step_inv s).next h hs

/-- Settles O13: the same rule, of the state a fault leaves. -/
theorem faultKeepsInvariant : Obligations.FaultKeepsInvariant :=
  fun s _ _ hs _ hl => (ensures_step_inv s).stateLeft hl hs

/-- Settles O8: neither fetch nor instruction moves EIP, so the advance alone does. -/
theorem stepAdvancesEip : Obligations.StepAdvancesEip := by
  intro s t h
  obtain ⟨i, u, v, hf, he, rfl⟩ := step_eq_next.mp h
  have hx := execEnds_exec i u
  rw [he] at hx
  have heip : v.eip = s.eip := (FixedFields.eip hx).trans (walkKeeps_fetch hf).1.same.eip
  exact ⟨i, u, hf, congrArg (· + BitVec.ofNat 32 (instrLength i)) heip⟩

/-- Settles O9: registers are written only where an instruction can no longer fault. -/
theorem faultKeepsEveryRegister : Obligations.FaultKeepsEveryRegister := by
  intro s e h
  rw [h]
  exact ⟨faultState e, stateLeft_fault e, sameRegisters_of_step_fault h⟩

/-- Settles O14: no part of a step writes the configuration. -/
theorem configurationNeverChanges : Obligations.ConfigurationNeverChanges :=
  fun s _ h => (ensures_step_cfg s).stateLeft h

end Sys2Proof.Machine

/-! ## Memory accesses of 20_memory.md: what each instruction that accesses memory answers, paging on or off -/

namespace Sys2Proof.Machine

/-! ### Sequences -/

theorem andThen_assoc {α β γ : Type} (r : Result α) (f : α → State → Result β)
    (g : β → State → Host.Outcome γ Fault Refusal) :
    andThen (andThen r f) g = andThen r fun a t => andThen (f a t) g := by
  rcases r with p | e | why <;> rfl

/-- A segment translation changes no state: what follows it goes on in the state before it. -/
theorem andThen_segTranslate {β : Type} {seg : Seg} {off : Word32} {n : Nat} {acc : SegAccess} {s : State}
    (f : Word32 → State → Host.Outcome β Fault Refusal) :
    andThen (segTranslate seg off n acc s) f = andThen (segTranslate seg off n acc s) fun la _ => f la s := by
  rcases h : segTranslate seg off n acc s with ⟨la, t⟩ | e | why
  · obtain ⟨_, rfl⟩ := segTranslate_eq_next.mp h
    rfl
  · rfl
  · rfl

theorem andThen_segTranslate_eq_next {β : Type} {seg : Seg} {off : Word32} {n : Nat} {acc : SegAccess} {s : State}
    {f : Word32 → State → Host.Outcome β Fault Refusal} {b : β} :
    andThen (segTranslate seg off n acc s) f = .next b ↔
      ∃ la, SegmentAddress s seg off n acc la ∧ f la s = .next b := by
  rw [andThen_eq_next]
  constructor
  · rintro ⟨la, t, h, hf⟩
    obtain ⟨ha, rfl⟩ := segTranslate_eq_next.mp h
    exact ⟨la, ha, hf⟩
  · rintro ⟨la, ha, hf⟩
    exact ⟨la, s, segTranslate_answered ha, hf⟩

/-! ### What a translated access leaves -/

theorem currentPriv_of_same {s t : State} (h : SameRegisters s t) : currentPriv t = currentPriv s := by
  unfold currentPriv
  rw [h.cpl]

theorem walkKeeps_of_translateRange {addr n : Nat} {acc : AccessKind} {priv : Priv} {places : List (Nat × Nat)}
    {s u : State} (h : translateRange addr n acc priv s = .next (places, u)) : WalkKeeps acc s u :=
  (ensures_translateRange addr n acc priv s).next h

theorem TranslatedAccess.walkKeeps {s u : State} {addr n : Nat} {acc : AccessKind} {places : List (Nat × Nat)}
    (h : TranslatedAccess s addr n acc places u) : WalkKeeps acc s u := walkKeeps_of_translateRange h.translated

/-- A store at the places of a translated access: registers kept and, from a state with the invariant, the invariant. -/
theorem TranslatedAccess.keeps_store {s u : State} {addr n : Nat} {acc : AccessKind} {places : List (Nat × Nat)}
    (h : TranslatedAccess s addr n acc places u) (bs : List Byte) : Keeps s (storePlaces places bs u) :=
  h.walkKeeps.keeps.trans ⟨sameRegisters_storePlaces places bs u, fun hi =>
    hi.storePlaces places bs (h.walkKeeps.1.same.cfg ▸ h.inMemory)⟩

/-- Outside the places, a translated store changes the flags of paging entries at most. -/
theorem TranslatedAccess.bitsSet_store {s u : State} {addr n : Nat} {acc : AccessKind} {places : List (Nat × Nat)}
    (h : TranslatedAccess s addr n acc places u) (bs : List Byte) {a : Nat} (ha : ¬ InPlaces places a) :
    BitsSet (walkMask acc) (memByte s.mem a) (memByte (storePlaces places bs u).mem a) := by
  rw [memByte_storePlaces_other places bs u a ha]
  exact h.walkKeeps.1.bits a

/-! ### The instructions that access memory, segment translation first -/

theorem exec_movEaxMoffs32 (off : Word32) (s : State) :
    exec (.movEaxMoffs32 off) s = andThen (segTranslate .ds off 4 .read s) fun la _ =>
      andThen (memRead la.toNat 4 s) fun bs t => .next (writeReg .eax (leWord32 bs) t) := by
  show execMovEaxMoffs32 off s = _
  exact andThen_segTranslate _

theorem exec_movSreg_mem (r : DataSeg) (m : Mem) (s : State) :
    exec (.movSreg r (.mem m)) s = andThen (memOperand m 2 .read s) fun la _ =>
      andThen (memRead la.toNat 2 s) fun bs t => loadDataSeg r (leWord16 bs) t := by
  show andThen (readRegMem16 (.mem m) s) _ = _
  unfold readRegMem16
  rw [andThen_assoc]
  refine (andThen_segTranslate _).trans (congrArg (andThen _) ?_)
  funext la _
  rw [andThen_assoc]
  rfl

theorem exec_movMoffs32Eax (off : Word32) (s : State) :
    exec (.movMoffs32Eax off) s = andThen (segTranslate .ds off 4 .write s) fun la _ =>
      andThen (memWrite la.toNat (leBytes 4 s.gprs.eax) s) fun _ t => .next t := by
  show execMovMoffs32Eax off s = _
  exact andThen_segTranslate _

theorem storeSelector_mem (sel : Word16) (m : Mem) (s : State) :
    storeSelector sel (.mem m) s = andThen (memOperand m 2 .write s) fun la _ =>
      andThen (memWrite la.toNat (leBytes 2 sel) s) fun _ t => .next t := by
  unfold storeSelector
  exact andThen_segTranslate _

theorem exec_sldt_mem (m : Mem) (s : State) :
    exec (.sldt (.mem m)) s = andThen (memOperand m 2 .write s) fun la _ =>
      andThen (memWrite la.toNat (leBytes 2 s.ldtr.selector) s) fun _ t => .next t :=
  storeSelector_mem _ m s

theorem exec_str_mem (m : Mem) (s : State) :
    exec (.str (.mem m)) s = andThen (memOperand m 2 .write s) fun la _ =>
      andThen (memWrite la.toNat (leBytes 2 s.tr.selector) s) fun _ t => .next t :=
  storeSelector_mem _ m s

theorem exec_sgdt (m : Mem) (s : State) :
    exec (.sgdt m) s = andThen (memOperand m 6 .write s) fun la _ => storePseudoDescriptor s.gdtr la.toNat s := by
  show execSgdt m s = _
  exact andThen_segTranslate _

theorem exec_sidt (m : Mem) (s : State) :
    exec (.sidt m) s = andThen (memOperand m 6 .write s) fun la _ => storePseudoDescriptor s.idtr la.toNat s := by
  show execSidt m s = _
  exact andThen_segTranslate _

/-! ### How an instruction begins with an access -/

/-- `o` is an access to `n` bytes at `addr`, made in `s`, and what follows when it completes: the range is translated, the
alignment checked, and memory must be there (20_memory.md R52, R53; 60_exceptions.md R256). -/
def BeginsWithAccess {β : Type} (o : Host.Outcome β Fault Refusal) (s : State) (addr n : Nat) (acc : AccessKind) : Prop :=
  ∃ k : List (Nat × Nat) → State → Host.Outcome β Fault Refusal,
    o = andThen (translateRange addr n acc (currentPriv s) s) fun places t =>
      if alignmentFaults addr n t then raise (.alignmentCheck 0#16) t
      else if placesMapped t.cfg places then k places t
      else .refused .noMemoryAtPhysicalAddress

theorem beginsWithAccess_memRead (addr n : Nat) (s : State) : BeginsWithAccess (memRead addr n s) s addr n .read :=
  ⟨_, memRead_eq addr n s⟩

theorem beginsWithAccess_memWrite {addr n : Nat} {bs : List Byte} (s : State) (h : bs.length = n) :
    BeginsWithAccess (memWrite addr bs s) s addr n .write := by
  subst h
  exact ⟨_, memWrite_eq addr bs s⟩

section
variable {s : State} {addr n : Nat} {acc : AccessKind}

theorem BeginsWithAccess.andThen {α β : Type} {r : Result α} (h : BeginsWithAccess r s addr n acc)
    (f : α → State → Host.Outcome β Fault Refusal) : BeginsWithAccess (andThen r f) s addr n acc := by
  obtain ⟨k, rfl⟩ := h
  refine ⟨fun places t => Machine.andThen (k places t) f, ?_⟩
  rw [andThen_assoc]
  congr 1
  funext places t
  split
  · rfl
  · split <;> rfl

variable {β : Type} {o : Host.Outcome β Fault Refusal} (h : BeginsWithAccess o s addr n acc)
include h

theorem BeginsWithAccess.fault {e : Fault} (ht : translateRange addr n acc (currentPriv s) s = .fault e) :
    o = .fault e := by
  obtain ⟨k, rfl⟩ := h
  rw [ht, andThen_fault]

theorem BeginsWithAccess.wraps (hw : addr + n > 2 ^ 32) : o = .refused .linearAddressWrap := by
  obtain ⟨k, rfl⟩ := h
  unfold translateRange
  rw [if_pos hw, andThen_refused]

theorem BeginsWithAccess.misaligned {places : List (Nat × Nat)} {u : State}
    (ht : translateRange addr n acc (currentPriv s) s = .next (places, u)) (ha : alignmentFaults addr n s = true) :
    o = .fault (.exception (.alignmentCheck 0#16) u) := by
  obtain ⟨k, rfl⟩ := h
  rw [ht, andThen_next, alignmentFaults_of_same (walkKeeps_of_translateRange ht).1.same, if_pos ha]
  rfl

theorem BeginsWithAccess.unmapped {places : List (Nat × Nat)} {u : State}
    (ht : translateRange addr n acc (currentPriv s) s = .next (places, u)) (ha : alignmentFaults addr n s = false)
    (hm : placesMapped s.cfg places = false) : o = .refused .noMemoryAtPhysicalAddress := by
  have hs := (walkKeeps_of_translateRange ht).1.same
  obtain ⟨k, rfl⟩ := h
  rw [ht, andThen_next, alignmentFaults_of_same hs, hs.cfg, if_neg (by simp [ha]), if_neg (by simp [hm])]

/-- The same with paging off, said of the linear range (43_translation_32bit.md R170). -/
theorem BeginsWithAccess.unmapped_paging_off (hpg : pgFlag s.cr0 = false) (hr : addr + n ≤ 2 ^ 32)
    (ha : alignmentFaults addr n s = false) (hm : mappedRange s.cfg addr n = false) :
    o = .refused .noMemoryAtPhysicalAddress := by
  have hn : 0 < n := by
    rcases Nat.eq_zero_or_pos n with rfl | hn
    · exact absurd hm (by simp [mappedRange])
    · exact hn
  exact h.unmapped (translateRange_paging_off hpg hn hr acc _) ha (by rw [placesMapped_blocks]; exact hm)

end

/-! ### The first access of each instruction -/

theorem beginsWithAccess_storePseudoDescriptor (d : TableReg) (a : Nat) (s : State) :
    BeginsWithAccess (storePseudoDescriptor d a s) s a 2 .write :=
  (beginsWithAccess_memWrite s (by simp)).andThen _

/-- The instructions that access memory, with the premise that gives the linear address and the size and kind of the first
access. -/
def accessForms (m : Mem) (r : DataSeg) (off la : Word32) (s : State) : List (Instr × Prop × Nat × AccessKind) :=
  [(.movEaxMoffs32 off, SegmentAddress s .ds off 4 .read la, 4, .read),
    (.movMoffs32Eax off, SegmentAddress s .ds off 4 .write la, 4, .write),
    (.sldt (.mem m), OperandAddress s m 2 .write la, 2, .write),
    (.str (.mem m), OperandAddress s m 2 .write la, 2, .write),
    (.movSreg r (.mem m), OperandAddress s m 2 .read la, 2, .read),
    (.sgdt m, OperandAddress s m 6 .write la, 2, .write), (.sidt m, OperandAddress s m 6 .write la, 2, .write)]

/-- Once the segment has given the linear address, each of them is its first access and what follows. -/
theorem exec_beginsWithAccess {m : Mem} {r : DataSeg} {off la : Word32} {s : State}
    {p : Instr × Prop × Nat × AccessKind} (hp : p ∈ accessForms m r off la s) (h : p.2.1) :
    BeginsWithAccess (exec p.1 s) s la.toNat p.2.2.1 p.2.2.2 := by
  simp only [accessForms, List.mem_cons, List.not_mem_nil, or_false] at hp
  rcases hp with rfl | rfl | rfl | rfl | rfl | rfl | rfl
  · rw [exec_movEaxMoffs32, segTranslate_answered h, andThen_next]
    exact (beginsWithAccess_memRead _ 4 s).andThen _
  · rw [exec_movMoffs32Eax, segTranslate_answered h, andThen_next]
    exact (beginsWithAccess_memWrite s (by simp)).andThen _
  · rw [exec_sldt_mem, memOperand_answered h, andThen_next]
    exact (beginsWithAccess_memWrite s (by simp)).andThen _
  · rw [exec_str_mem, memOperand_answered h, andThen_next]
    exact (beginsWithAccess_memWrite s (by simp)).andThen _
  · rw [exec_movSreg_mem, memOperand_answered h, andThen_next]
    exact (beginsWithAccess_memRead _ 2 s).andThen _
  · rw [exec_sgdt, memOperand_answered h, andThen_next]
    exact beginsWithAccess_storePseudoDescriptor _ _ s
  · rw [exec_sidt, memOperand_answered h, andThen_next]
    exact beginsWithAccess_storePseudoDescriptor _ _ s

/-! ### The second store of SGDT and SIDT -/

/-- What a pseudo-descriptor store comes to when its first store completes and its second is `o` (R124). -/
def afterFirstStore (s : State) (places : List (Nat × Nat)) :
    Result (List (Nat × Nat)) → Host.Outcome State Fault Refusal
  | .next p => .next p.2
  | .fault (.exception e left) => raise e (afterSecondStoreFault s places left)
  | .fault (.aliasingDeadlock left) => .fault (.aliasingDeadlock left)
  | .refused why => .refused why

theorem storePseudoDescriptor_afterFirst {d : TableReg} {a : Nat} {s s1 : State} {places : List (Nat × Nat)}
    (h : TranslatedAccess s a 2 .write places s1) :
    storePseudoDescriptor d a s =
      afterFirstStore s places (memWrite (a + 2) (leBytes 4 d.base) (storePlaces places (leBytes 2 d.limit) s1)) := by
  have hw : memWrite a (leBytes 2 d.limit) s = .next (places, storePlaces places (leBytes 2 d.limit) s1) :=
    memWrite_eq_next.mpr ⟨s1, by simpa using h, rfl⟩
  unfold storePseudoDescriptor
  rw [hw, andThen_next]
  rcases memWrite (a + 2) (leBytes 4 d.base) (storePlaces places (leBytes 2 d.limit) s1) with p | e | why
  · rfl
  · cases e <;> rfl
  · rfl

/-- SGDT and SIDT once the segment has given the linear address, told apart by the limit they store. -/
theorem exec_storeTable {m : Mem} {la : Word32} {s : State} (h : OperandAddress s m 6 .write la) {p : Instr × Word16}
    (hp : p ∈ [(Instr.sgdt m, s.gdtr.limit), (.sidt m, s.idtr.limit)]) :
    ∃ d : TableReg, d.limit = p.2 ∧ exec p.1 s = storePseudoDescriptor d la.toNat s := by
  simp only [List.mem_cons, List.not_mem_nil, or_false] at hp
  rcases hp with rfl | rfl
  · exact ⟨s.gdtr, rfl, by rw [exec_sgdt, memOperand_answered h, andThen_next]⟩
  · exact ⟨s.idtr, rfl, by rw [exec_sidt, memOperand_answered h, andThen_next]⟩

/-- After a first store that completes, the instruction is decided by its second store, an access made in the state the
first one left. -/
theorem exec_storeTable_second {m : Mem} {la : Word32} {s s1 : State} {places : List (Nat × Nat)}
    (h : OperandAddress s m 6 .write la) {p : Instr × Word16}
    (hp : p ∈ [(Instr.sgdt m, s.gdtr.limit), (.sidt m, s.idtr.limit)])
    (h1 : TranslatedAccess s la.toNat 2 .write places s1) :
    ∃ o, exec p.1 s = afterFirstStore s places o ∧
      BeginsWithAccess o (storePlaces places (leBytes 2 p.2) s1) (la.toNat + 2) 4 .write := by
  obtain ⟨d, hd, he⟩ := exec_storeTable h hp
  rw [he, storePseudoDescriptor_afterFirst h1, hd]
  exact ⟨_, rfl, beginsWithAccess_memWrite _ (by simp)⟩

/-- Bytes put back read as before, the others are left alone. -/
theorem memByte_restorePlaces (before : Memory) (places : List (Nat × Nat)) (m : Memory) (a : Nat) :
    (InPlaces places a → memByte (restorePlaces before places m) a = memByte before a) ∧
    (¬ InPlaces places a → memByte (restorePlaces before places m) a = memByte m a) := by
  induction places generalizing m with
  | nil => exact ⟨fun ⟨p, hp, _⟩ => absurd hp (by simp), fun _ => rfl⟩
  | cons p ps ih =>
    obtain ⟨hin, hout⟩ := ih (writeBytes m p.1 (readBytes before p.1 p.2))
    have hrest : InPlaces (p :: ps) a ↔ (p.1 ≤ a ∧ a < p.1 + p.2) ∨ InPlaces ps a := by simp [InPlaces]
    rw [hrest]
    unfold restorePlaces
    by_cases hps : InPlaces ps a
    · exact ⟨fun _ => hin hps, fun hn => absurd (.inr hps) hn⟩
    · rw [hout hps, memByte_writeBytes, length_readBytes]
      refine ⟨fun hp => ?_, fun hn => if_neg fun hp => hn (.inl hp)⟩
      have hp := hp.resolve_right hps
      rw [if_pos hp, getD_readBytes _ _ _ _ (by omega), Nat.add_sub_cancel' hp.1]

/-- What is left when the second store raises in `u`, which its translation left (R124; log 18). -/
theorem secondStoreLeaves_afterSecondStoreFault {s s1 u : State} {a : Nat} {places : List (Nat × Nat)} {bs : List Byte}
    (h : TranslatedAccess s a 2 .write places s1) (hu : WalkKeeps .write (storePlaces places bs s1) u) :
    SecondStoreLeaves s places (storePlaces places bs s1) u (afterSecondStoreFault s places u) := by
  have hcfg := h.walkKeeps.1.same.cfg
  have hk : Keeps s u := (h.keeps_store bs).trans hu.keeps
  refine ⟨(keeps_afterSecondStoreFault hk h.inMemory).1, hu.1.bits, ?_⟩
  unfold afterSecondStoreFault
  cases Config.freeBool u.choices
  · cases Config.freeBool (u.choices + 1)
    · exact .inr (.inr ⟨rfl, rfl, rfl⟩)
    · exact .inr (.inl ⟨fun b => (memByte_restorePlaces s.mem places u.mem b).1,
        fun b => (memByte_restorePlaces s.mem places u.mem b).2, rfl, rfl⟩)
  · exact .inl ⟨rfl, rfl, hu.1.written⟩

/-! ### Stores that complete -/

/-- A store through a segment completes exactly when the segment gives a linear address and the access there is a
translated one. -/
theorem store_eq_next {seg : Seg} {off : Word32} {n : Nat} {bs : List Byte} {s t : State} (hn : bs.length = n) :
    (andThen (segTranslate seg off n .write s) fun la _ =>
        andThen (memWrite la.toNat bs s) fun _ t => .next t) = .next t ↔
      ∃ la places u, SegmentAddress s seg off n .write la ∧ TranslatedAccess s la.toNat n .write places u ∧
        t = storePlaces places bs u := by
  subst hn
  rw [andThen_segTranslate_eq_next]
  constructor
  · rintro ⟨la, ha, h⟩
    obtain ⟨places, v, hw, hv⟩ := andThen_eq_next.mp h
    injection hv with hv
    subst hv
    obtain ⟨u, hu, rfl⟩ := memWrite_eq_next.mp hw
    exact ⟨la, places, u, ha, hu, rfl⟩
  · rintro ⟨la, places, u, ha, hu, rfl⟩
    exact ⟨la, ha, by rw [memWrite_eq_next.mpr ⟨u, hu, rfl⟩, andThen_next]⟩

/-- The linear address and the places of a store that completes are the ones its segment and its translation answer. -/
theorem storePlaces_of_completed {seg : Seg} {off la : Word32} {n : Nat} {bs : List Byte} {s t u : State}
    {places : List (Nat × Nat)}
    (h : ∃ la places u, SegmentAddress s seg off n .write la ∧ TranslatedAccess s la.toNat n .write places u ∧
      t = storePlaces places bs u)
    (ha : SegmentAddress s seg off n .write la)
    (ht : translateRange la.toNat n .write (currentPriv s) s = .next (places, u)) :
    TranslatedAccess s la.toNat n .write places u ∧ t = storePlaces places bs u := by
  obtain ⟨la', places', u', ha', hacc, rfl⟩ := h
  obtain rfl : la = la' := by
    have := ha.answered.symm.trans ha'.answered
    injection this
  have := ht.symm.trans hacc.translated
  simp only [Host.Outcome.next.injEq, Prod.mk.injEq] at this
  obtain ⟨rfl, rfl⟩ := this
  exact ⟨hacc, rfl⟩

/-! ### The obligations -/

/-- Settles O38: each of the three is a store through a segment. -/
theorem storesCompleteExactly : Obligations.StoresCompleteExactly := by
  intro m off s t
  rw [exec_movMoffs32Eax, exec_sldt_mem, exec_str_mem]
  exact ⟨store_eq_next (by simp), store_eq_next (by simp), store_eq_next (by simp)⟩

/-- Settles O39: the places are the translation's, and the store writes nothing outside them. -/
theorem storesFrame : Obligations.StoresFrame := by
  intro m off la s t u places p hp ha ht htr
  obtain ⟨heax, hsldt, hstr⟩ := storesCompleteExactly m off s t
  have hframe : ∀ bs, TranslatedAccess s la.toNat p.2.2 .write places u ∧ t = storePlaces places bs u →
      SameRegisters s t ∧ (∀ a, ¬ InPlaces places a → memByte t.mem a = memByte u.mem a) ∧
        OnlyBitsSet 0x60#8 s.mem u.mem := by
    rintro bs ⟨hacc, rfl⟩
    exact ⟨(hacc.keeps_store bs).1, memByte_storePlaces_other places bs u, hacc.walkKeeps.1.bits⟩
  simp only [List.mem_cons, List.not_mem_nil, or_false] at hp
  rcases hp with rfl | rfl | rfl
  · exact hframe _ (storePlaces_of_completed (heax.mp ht) ha htr)
  · exact hframe _ (storePlaces_of_completed (hsldt.mp ht) ha htr)
  · exact hframe _ (storePlaces_of_completed (hstr.mp ht) ha htr)

/-- Settles O40: two translated stores, the second in the state the first leaves. -/
theorem pseudoDescriptorFrame : Obligations.PseudoDescriptorFrame := by
  intro m s t p hp
  have hexec : exec p.1 s = andThen (memOperand m 6 .write s) fun la _ => storePseudoDescriptor p.2 la.toNat s := by
    simp only [List.mem_cons, List.not_mem_nil, or_false] at hp
    rcases hp with rfl | rfl
    · exact exec_sgdt m s
    · exact exec_sidt m s
  refine ⟨?_, ?_⟩
  · rw [hexec]
    unfold memOperand
    rw [andThen_segTranslate_eq_next]
    simp only [storePseudoDescriptor_eq_next, exists_and_left]
  · rintro la places1 s1 places2 s2 h1 h2 rfl
    refine ⟨((h1.keeps_store _).trans (h2.keeps_store _)).1, fun a ha1 ha2 => ?_⟩
    exact (h1.bitsSet_store _ ha1).trans (h2.bitsSet_store _ ha2)

/-- Settles O41: a load answers the bytes at the places, and its translation reads. -/
theorem loadsResult : Obligations.LoadsResult := by
  intro m r off la s u places
  refine ⟨fun ha hacc => ?_, fun ha hacc hnull => ?_⟩
  · refine ⟨?_, hacc.walkKeeps.1.same, hacc.walkKeeps.1.bits⟩
    rw [exec_movEaxMoffs32, segTranslate_answered ha, andThen_next, memRead_eq_next.mpr ⟨places, hacc, rfl⟩,
      andThen_next]
  · refine ⟨?_, hacc.walkKeeps.1.same, hacc.walkKeeps.1.bits⟩
    rw [exec_movSreg_mem, memOperand_answered ha, andThen_next, memRead_eq_next.mpr ⟨places, hacc, rfl⟩, andThen_next]
    unfold loadDataSeg
    rw [if_pos hnull]

/-- Settles O43: the first access decides the instruction; what the second store leaves when it raises is
`secondStoreLeaves_afterSecondStoreFault`. -/
theorem translationFaultEndsInstruction : Obligations.TranslationFaultEndsInstruction := by
  refine ⟨fun m r off la s e p hp ha ht => (exec_beginsWithAccess hp ha).fault ht, ?_⟩
  rintro m la s stored ha p hp places s1 h1 rfl
  obtain ⟨o, he, ho⟩ := exec_storeTable_second ha hp h1
  have hsame : SameRegisters s (storePlaces places (leBytes 2 p.2) s1) := (h1.keeps_store _).1
  rw [← currentPriv_of_same hsame]
  refine ⟨fun e ht => ?_, fun places2 u ht hal => ?_⟩
  · have hw := ensures_translateRange (la.toNat + 2) 4 .write (currentPriv (storePlaces places (leBytes 2 p.2) s1))
      (storePlaces places (leBytes 2 p.2) s1)
    rw [ht, ensures_fault] at hw
    rw [he, ho.fault ht]
    cases e with
    | exception x u => exact ⟨_, rfl, secondStoreLeaves_afterSecondStoreFault h1 hw⟩
    | aliasingDeadlock u => rfl
  · rw [he, ho.misaligned ht (by rw [alignmentFaults_of_same hsame]; exact hal)]
    exact ⟨_, rfl, secondStoreLeaves_afterSecondStoreFault h1 (walkKeeps_of_translateRange ht)⟩

/-- Settles O36: an access that wraps or finds no memory is refused, the first of an instruction and the second store of
SGDT and SIDT alike. -/
theorem accessRefusals : Obligations.AccessRefusals := by
  intro m r off la s
  refine ⟨fun p hp ha => ?_, fun ha p hp places1 s1 h1 => ?_⟩
  · have hb := exec_beginsWithAccess hp ha
    exact ⟨hb.wraps, hb.unmapped_paging_off, fun places u => hb.unmapped⟩
  · obtain ⟨o, he, ho⟩ := exec_storeTable_second ha hp h1
    have hsame : SameRegisters s (storePlaces places1 (leBytes 2 p.2) s1) := (h1.keeps_store _).1
    rw [he]
    refine ⟨fun hwrap => ?_, fun places2 s2 ht hal hm => ?_⟩
    · rw [ho.wraps (by omega)]
      rfl
    · rw [← currentPriv_of_same hsame] at ht
      rw [ho.unmapped ht (by rw [alignmentFaults_of_same hsame]; exact hal) (by rw [hsame.cfg]; exact hm)]
      rfl

end Sys2Proof.Machine

/-! ## The TLB of 20_memory.md: what a translation with paging on answers -/

namespace Sys2Proof.Machine

/-- The entries an access may use (20_memory.md R63, R64). -/
theorem mem_tlbCandidates {la : Word32} {acc : AccessKind} {tlb : List TlbEntry} {e : TlbEntry} :
    e ∈ tlbCandidates la acc tlb ↔ e ∈ tlb ∧ tlbMatches la e = true ∧ (acc = .write → tlbDirty e = true) := by
  simp [tlbCandidates, List.mem_filter, imp_iff_not_or]

theorem translate_paging_on {la : Word32} {acc : AccessKind} {priv : Priv} {s : State} (hpg : pgFlag s.cr0 = true)
    (hpae : paeFlag s.cr4 = false) : translate la acc priv s = translatePaged la acc priv s := by
  unfold translate
  simp [hpg, hpae]

/-- Translation with paging on is a walk, or is computed from one entry the access may use. -/
theorem translatePaged_cases (la : Word32) (acc : AccessKind) (priv : Priv) (s : State) :
    ∃ n, translatePaged la acc priv s = walk la acc priv (useChoices n s) ∨
      ∃ e ∈ tlbCandidates la acc s.tlb,
        translatePaged la acc priv s = translateByTlb e la acc priv (useChoices n s) := by
  refine ⟨(tlbCandidates la acc s.tlb).length, ?_⟩
  rcases h : pickHit (tlbCandidates la acc s.tlb) s.choices with _ | e
  · left
    simp only [translatePaged, h]
  · right
    exact ⟨e, pickHit_mem h, by simp only [translatePaged, h]⟩

/-- Without an entry for the page a walk is made. -/
theorem translatePaged_miss {la : Word32} {acc : AccessKind} {s : State} (priv : Priv)
    (h : tlbCandidates la acc s.tlb = []) : translatePaged la acc priv s = walk la acc priv s := by
  simp [translatePaged, h, pickHit]

/-- With one such entry a free value chooses. -/
theorem translatePaged_single {la : Word32} {acc : AccessKind} {s : State} {e : TlbEntry} (priv : Priv)
    (h : tlbCandidates la acc s.tlb = [e]) :
    translatePaged la acc priv s =
      if Config.freeBool s.choices then translateByTlb e la acc priv (useChoices 1 s)
      else walk la acc priv (useChoices 1 s) := by
  cases hb : Config.freeBool s.choices
  · simp [translatePaged, h, pickHit, hb]
  · simp [translatePaged, h, pickHit, hb]

/-! ### TLB entries removed -/

theorem tlbCandidates_flushPage (la : Word32) (acc : AccessKind) (s : State) :
    tlbCandidates la acc (flushPage la s).tlb = [] := by
  refine List.eq_nil_iff_forall_not_mem.mpr fun e he => ?_
  obtain ⟨hmem, hmatch, _⟩ := mem_tlbCandidates.mp he
  simp [flushPage, hmatch] at hmem

/-- Without global pages a load of CR3 leaves no entry (R67). -/
theorem loadCr3_tlb_without_pge {s : State} (h : pgeFlag s.cr4 = false) (v : Word32) : (loadCr3 v s).tlb = [] := by
  rw [loadCr3_tlb, h]
  simp [anySubset]

/-- INVLPG that completes has removed the page of its linear address (42_paging_control.md R154). -/
theorem exec_invlpg_eq_next {m : Mem} {la : Word32} {s t : State} (ha : OperandAddress s m 1 .none la)
    (h : exec (.invlpg m) s = .next t) : t = flushPage la s := by
  obtain ⟨_, hk⟩ := requireLevel0_eq_next.mp h
  rw [memOperand_answered ha, andThen_next] at hk
  injection hk with hk
  exact hk.symm

/-- MOV CR3, r32 that completes has loaded CR3 (R150). -/
theorem exec_movCr3FromReg_eq_next {r : Reg} {s t : State} (h : exec (.movCr3FromReg r) s = .next t) :
    t = loadCr3 (readReg s r) s := by
  obtain ⟨_, hk⟩ := requireLevel0_eq_next.mp h
  injection hk with hk
  exact hk.symm

/-! ### The obligation -/

/-- Settles O55: a translation is a walk or a hit of a candidate entry, and both instructions leave no candidate. -/
theorem invalidatedPageIsWalked : Obligations.InvalidatedPageIsWalked := by
  refine ⟨fun la acc priv s hpg hpae => ?_, fun la acc priv s e hpg hpae he => ?_, fun la acc priv s t hpg hpae h => ?_⟩
  · rw [translate_paging_on hpg hpae]
    obtain ⟨n, hwalk | ⟨e, he, hhit⟩⟩ := translatePaged_cases la acc priv s
    · exact ⟨n, .inl hwalk⟩
    · obtain ⟨hmem, hmatch, hdirty⟩ := mem_tlbCandidates.mp he
      cases e with
      | page4K vpn pde pte =>
        obtain rfl : vpn = la.extractLsb' 12 20 := by simpa [tlbMatches] using hmatch
        exact ⟨n, .inr (.inl ⟨pde, pte, hmem, hdirty, hhit⟩)⟩
      | page4M vpn pde =>
        obtain rfl : vpn = la.extractLsb' 22 10 := by simpa [tlbMatches] using hmatch
        exact ⟨n, .inr (.inr ⟨pde, hmem, hdirty, hhit⟩)⟩
  · rw [translate_paging_on hpg hpae, translatePaged_single priv he]
  · rcases h with ⟨m, ha, hx⟩ | ⟨hpge, r, hx⟩
    · obtain rfl := exec_invlpg_eq_next ha hx
      exact (translate_paging_on (s := flushPage la s) hpg hpae).trans
        (translatePaged_miss priv (tlbCandidates_flushPage la acc s))
    · obtain rfl := exec_movCr3FromReg_eq_next hx
      refine (translate_paging_on (s := loadCr3 _ s) hpg hpae).trans (translatePaged_miss priv ?_)
      rw [loadCr3_tlb_without_pge hpge]
      rfl

end Sys2Proof.Machine

/-! ## The encoder read back by the decoder (30_encoding.md R84 to R90) -/

namespace Sys2Proof

/-! ### Fields -/

@[simp] theorem regOfBits_bitsOfReg (r : Reg) : regOfBits (bitsOfReg r) = r := by cases r <;> rfl

@[simp] theorem dataSegOfBits_bitsOfDataSeg (r : DataSeg) : dataSegOfBits (bitsOfDataSeg r) = some r := by
  cases r <;> rfl

@[simp] theorem modField_threeFields (hi : BitVec 2) (mid lo : BitVec 3) : modField (threeFields hi mid lo) = hi := by
  revert hi mid lo; decide

@[simp] theorem regField_threeFields (hi : BitVec 2) (mid lo : BitVec 3) : regField (threeFields hi mid lo) = mid := by
  revert hi mid lo; decide

@[simp] theorem rmField_threeFields (hi : BitVec 2) (mid lo : BitVec 3) : rmField (threeFields hi mid lo) = lo := by
  revert hi mid lo; decide

@[simp] theorem takeByte_cons (b : Byte) (bs : List Byte) : takeByte (b :: bs) = .done b bs := rfl

@[simp] theorem takeDword_dwordBytes (w : Word32) (rest : List Byte) :
    takeDword (dwordBytes w ++ rest) = .done w rest :=
  congrArg (Parsed.done · rest) ((Machine.leNat_four _ _ _ _).symm.trans (Machine.leWord32_leBytes w))

@[simp] theorem Parsed.andThen_done {α β : Type} (a : α) (bs : List Byte) (f : α → List Byte → Parsed β) :
    (Parsed.done a bs).andThen f = f a bs := rfl

theorem regOfBits_five : regOfBits 5#3 = .ebp := rfl

theorem regOfBits_four : regOfBits 4#3 = .esp := rfl

/-! ### Operands -/

/-- A memory operand is written as a ModR/M byte that is not the register form, and bytes from which it is read (R85). -/
theorem encodeMem_parses (reg : BitVec 3) {m : Mem} (h : m.wf = true) :
    ∃ modrm tail, encodeMem reg m = modrm :: tail ∧ modField modrm ≠ 3#2 ∧ regField modrm = reg ∧
      ∀ rest, parseMem modrm (tail ++ rest) = .done m rest := by
  cases m with
  | base r =>
    obtain ⟨hesp, hebp⟩ : r ≠ .esp ∧ r ≠ .ebp := by simpa [Mem.wf] using h
    exact ⟨_, _, rfl, by simp, by simp, fun rest => by simp [parseMem, hesp, hebp]⟩
  | disp d => exact ⟨_, _, rfl, by simp, by simp, fun rest => by simp [parseMem, regOfBits_five]⟩
  | baseDisp8 r d =>
    have hesp : r ≠ .esp := by simpa [Mem.wf] using h
    exact ⟨_, _, rfl, by simp, by simp, fun rest => by simp [parseMem, hesp]⟩
  | baseDisp32 r d =>
    have hesp : r ≠ .esp := by simpa [Mem.wf] using h
    exact ⟨_, _, rfl, by simp, by simp, fun rest => by simp [parseMem, hesp]⟩
  | sib b i scale =>
    have hebp : b ≠ .ebp := by simpa [Mem.wf] using h
    exact ⟨_, _, rfl, by simp, by simp, fun rest => by simp [parseMem, parseSib, regOfBits_four, hebp]⟩
  | sibNoBase i scale d =>
    exact ⟨_, _, rfl, by simp, by simp, fun rest => by simp [parseMem, parseSib, regOfBits_four, regOfBits_five]⟩
  | sibDisp8 b i scale d =>
    exact ⟨_, _, rfl, by simp, by simp, fun rest => by simp [parseMem, parseSib, regOfBits_four]⟩
  | sibDisp32 b i scale d =>
    exact ⟨_, _, rfl, by simp, by simp, fun rest => by simp [parseMem, parseSib, regOfBits_four]⟩

/-- A memory-only operand, ModR/M byte first. -/
theorem encodeMem_parsesOnly (reg : BitVec 3) {m : Mem} (h : m.wf = true) :
    ∃ modrm tail, encodeMem reg m = modrm :: tail ∧ regField modrm = reg ∧
      ∀ rest f, parseMemOnly modrm (tail ++ rest) f = .done (f m) rest := by
  obtain ⟨modrm, tail, he, hmod, hreg, hparse⟩ := encodeMem_parses reg h
  exact ⟨modrm, tail, he, hreg, fun rest f => by simp [parseMemOnly, hmod, hparse]⟩

/-- A register or memory operand, ModR/M byte first. -/
theorem encodeRegMem_parses (reg : BitVec 3) {x : RegMem} (h : x.wf = true) :
    ∃ modrm tail, encodeRegMem reg x = modrm :: tail ∧ regField modrm = reg ∧
      ∀ rest f, parseRegMem modrm (tail ++ rest) f = .done (f x) rest := by
  cases x with
  | reg r => exact ⟨_, _, rfl, by simp, fun rest f => by simp [parseRegMem]⟩
  | mem m =>
    obtain ⟨modrm, tail, he, hmod, hreg, hparse⟩ := encodeMem_parses reg h
    exact ⟨modrm, tail, he, hreg, fun rest f => by simp [parseRegMem, hmod, hparse]⟩

theorem parseRegOnly_registerForm (mid : BitVec 3) (r : Reg) (bs : List Byte) (f : Reg → Instr) :
    parseRegOnly (threeFields 3#2 mid (bitsOfReg r)) bs f = .done (f r) bs := by
  simp [parseRegOnly]

/-! ### Opcodes -/

theorem decode_0F00 (b : Byte) (bs : List Byte) : decode (0x0F#8 :: 0x00#8 :: b :: bs) = parse0F00 b bs := rfl

theorem decode_0F01 (b : Byte) (bs : List Byte) : decode (0x0F#8 :: 0x01#8 :: b :: bs) = parse0F01 b bs := rfl

theorem decode_0F20 (b : Byte) (bs : List Byte) : decode (0x0F#8 :: 0x20#8 :: b :: bs) = parse0F20 b bs := rfl

theorem decode_0F22 (b : Byte) (bs : List Byte) : decode (0x0F#8 :: 0x22#8 :: b :: bs) = parse0F22 b bs := rfl

theorem decode_8E (b : Byte) (bs : List Byte) : decode (0x8E#8 :: b :: bs) = parseMovSreg b bs := rfl

/-- The one-byte opcodes with a doubleword after them (R87 to R90). -/
theorem decode_withDword (op : Byte) (f : Word32 → Instr)
    (hf : ∀ bs, parseOpcode op bs = (takeDword bs).andThen fun w rest => .done (f w) rest) (w : Word32) (rest : List Byte) :
    decode (op :: dwordBytes w ++ rest) = .done (f w) rest := by
  show parseOpcode op (dwordBytes w ++ rest) = _
  rw [hf, takeDword_dwordBytes, Parsed.andThen_done]

/-- What the encoder writes of a well-formed instruction the decoder reads, whatever follows. -/
theorem decode_encode {i : Instr} (h : i.wf = true) (rest : List Byte) : decode (encode i ++ rest) = .done i rest := by
  cases i with
  | sgdt m =>
    obtain ⟨b, tail, he, hreg, hparse⟩ := encodeMem_parsesOnly 0#3 h
    simp only [encode, he, List.cons_append, decode_0F01, parse0F01, hreg, hparse, if_true]
  | sidt m =>
    obtain ⟨b, tail, he, hreg, hparse⟩ := encodeMem_parsesOnly 1#3 h
    simp only [encode, he, List.cons_append, decode_0F01, parse0F01, hreg, hparse]
    rfl
  | invlpg m =>
    obtain ⟨b, tail, he, hreg, hparse⟩ := encodeMem_parsesOnly 7#3 h
    simp only [encode, he, List.cons_append, decode_0F01, parse0F01, hreg, hparse]
    rfl
  | sldt dst =>
    obtain ⟨b, tail, he, hreg, hparse⟩ := encodeRegMem_parses 0#3 h
    simp only [encode, he, List.cons_append, decode_0F00, parse0F00, hreg, hparse, if_true]
  | str dst =>
    obtain ⟨b, tail, he, hreg, hparse⟩ := encodeRegMem_parses 1#3 h
    simp only [encode, he, List.cons_append, decode_0F00, parse0F00, hreg, hparse]
    rfl
  | movCr0FromReg r => simp [encode, decode_0F22, parse0F22, parseRegOnly_registerForm]
  | movRegFromCr0 r => simp [encode, decode_0F20, parse0F20, parseRegOnly_registerForm]
  | movCr3FromReg r => simp [encode, decode_0F22, parse0F22, parseRegOnly_registerForm]
  | movRegFromCr3 r => simp [encode, decode_0F20, parse0F20, parseRegOnly_registerForm]
  | movCr4FromReg r => simp [encode, decode_0F22, parse0F22, parseRegOnly_registerForm]
  | movRegFromCr4 r => simp [encode, decode_0F20, parse0F20, parseRegOnly_registerForm]
  | cpuid => rfl
  | movSreg sreg src =>
    obtain ⟨b, tail, he, hreg, hparse⟩ := encodeRegMem_parses (bitsOfDataSeg sreg) h
    simp only [encode, he, List.cons_append, decode_8E, parseMovSreg, hreg, dataSegOfBits_bitsOfDataSeg, hparse]
  | movRegImm32 r imm => exact decode_withDword _ (.movRegImm32 r) (by cases r <;> exact fun _ => rfl) imm rest
  | movEaxMoffs32 off => exact decode_withDword _ .movEaxMoffs32 (fun _ => rfl) off rest
  | movMoffs32Eax off => exact decode_withDword _ .movMoffs32Eax (fun _ => rfl) off rest
  | orEaxImm32 imm => exact decode_withDword _ .orEaxImm32 (fun _ => rfl) imm rest

/-! ### What has not been decided -/

theorem Stable.incomplete {α : Type} {p : List Byte → Parsed α} (hp : Stable p) {bs more : List Byte}
    (h : p (bs ++ more) = .incomplete) : p bs = .incomplete := by
  rcases hb : p bs with ⟨a, r⟩ | _ | why
  · rw [hp.done bs a r more hb] at h
    cases h
  · rfl
  · rw [hp.refused bs why more hb] at h
    cases h

/-- The decoder waits for the last byte of an encoding. -/
theorem decode_incomplete_of_encode {i : Instr} (h : i.wf = true) {bs more : List Byte} (he : bs ++ more = encode i)
    (hmore : more ≠ []) : decode bs = .incomplete := by
  have hd : decode (bs ++ more) = .done i [] := by
    rw [he]
    simpa using decode_encode h []
  rcases hb : decode bs with ⟨j, rest⟩ | _ | why
  · have hx := (stable_decode.done bs j rest more hb).symm.trans hd
    injection hx with _ hnil
    exact absurd (List.append_eq_nil_iff.mp hnil).2 hmore
  · rfl
  · have hx := (stable_decode.refused bs why more hb).symm.trans hd
    cases hx

/-- `EncodeLength.Statement` of every instruction. -/
theorem encodeLength_statement (i : Instr) : Laws.EncodeLength.Statement i := by
  cases i with
  | sgdt m => exact Laws.EncodeLength.sgdt m
  | sidt m => exact Laws.EncodeLength.sidt m
  | invlpg m => exact Laws.EncodeLength.invlpg m
  | sldt dst => exact Laws.EncodeLength.sldt dst
  | str dst => exact Laws.EncodeLength.str dst
  | movCr0FromReg r => exact Laws.EncodeLength.movCr0FromReg r
  | movRegFromCr0 r => exact Laws.EncodeLength.movRegFromCr0 r
  | movCr3FromReg r => exact Laws.EncodeLength.movCr3FromReg r
  | movRegFromCr3 r => exact Laws.EncodeLength.movRegFromCr3 r
  | movCr4FromReg r => exact Laws.EncodeLength.movCr4FromReg r
  | movRegFromCr4 r => exact Laws.EncodeLength.movRegFromCr4 r
  | cpuid => exact Laws.EncodeLength.cpuid
  | movSreg sreg src => exact Laws.EncodeLength.movSreg sreg src
  | movRegImm32 r imm => exact Laws.EncodeLength.movRegImm32 r imm
  | movEaxMoffs32 off => exact Laws.EncodeLength.movEaxMoffs32 off
  | movMoffs32Eax off => exact Laws.EncodeLength.movMoffs32Eax off
  | orEaxImm32 imm => exact Laws.EncodeLength.orEaxImm32 imm

end Sys2Proof

/-! ## The fetch of 20_memory.md R54 and R73: which instruction a step runs -/

namespace Sys2Proof.Machine

/-! ### Where bytes are fetched from -/

/-- The physical address of the byte before the one numbered `k` of an instruction at `pa`. -/
def placeBefore (pa : Nat) : Nat → Option Nat
  | 0 => none
  | k + 1 => some (pa + k)

/-- The state in which byte `k` of an instruction is fetched: the first byte's translation takes `s` to `u`. -/
def fetchState (s u : State) : Nat → State
  | 0 => s
  | _ + 1 => u

/-- A fetch begun in `s` finds the first `n` bytes at EIP at successive physical addresses from `pa` on, its one
translation leaving `u`. -/
structure FetchPath (s u : State) (pa n : Nat) : Prop where
  same : SameRegisters s u
  place : ∀ k, k < n → fetchPlace (placeBefore pa k) (fetchAddress s + k) (fetchState s u k) = .next (pa + k, u)

theorem fetchAddress_of_same {s u : State} (h : SameRegisters s u) : fetchAddress u = fetchAddress s := by
  unfold fetchAddress
  rw [h.csBase, h.eip]

theorem fetchPlace_first {la : Nat} {s u : State} {pa : PhysAddr} (hla : la < 2 ^ 32)
    (ht : translate (BitVec.ofNat 32 la) .fetch (currentPriv s) s = .next (pa, u)) :
    fetchPlace none la s = .next (pa.toNat, u) := by
  simp only [fetchPlace, ht, andThen_next]
  rw [if_neg (by omega)]

/-- Inside a page the next byte is at the next address (log 20). -/
theorem fetchPlace_inPage {la prev : Nat} (s : State) (hla : la < 2 ^ 32) (hpage : la % 4096 ≠ 0) :
    fetchPlace (some prev) la s = .next (prev + 1, s) := by
  simp only [fetchPlace]
  rw [if_neg (by omega), if_neg hpage]

theorem translate_fetch_paging_off {s : State} (h : pgFlag s.cr0 = false) {la : Nat} (hla : la < 2 ^ 32) :
    ∃ pa : PhysAddr, pa.toNat = la ∧
      translate (BitVec.ofNat 32 la) .fetch (currentPriv s) s = .next (pa, s) := by
  refine ⟨_, ?_, translate_paging_off h _ _ _⟩
  simp only [BitVec.toNat_setWidth, BitVec.toNat_ofNat]
  omega

/-- With paging off every byte is at its linear address (43_translation_32bit.md R170). -/
theorem fetchPlace_paging_off {s : State} (h : pgFlag s.cr0 = false) {la : Nat} (hla : la < 2 ^ 32) {prev : Option Nat}
    (hprev : ∀ p, prev = some p → p + 1 = la) : fetchPlace prev la s = .next (la, s) := by
  obtain ⟨pa, hpa, ht⟩ := translate_fetch_paging_off h hla
  cases prev with
  | none => rw [fetchPlace_first hla ht, hpa]
  | some p =>
    by_cases hpage : la % 4096 = 0
    · simp only [fetchPlace, ht, andThen_next, hpa]
      rw [if_neg (by omega), if_pos hpage]
    · rw [fetchPlace_inPage s hla hpage, hprev p rfl]

theorem fetchPath_paging_off {s : State} (h : pgFlag s.cr0 = false) {n : Nat} (hn : fetchAddress s + n ≤ 2 ^ 32) :
    FetchPath s s (fetchAddress s) n := by
  refine ⟨SameRegisters.refl s, fun k hk => ?_⟩
  have hstate : fetchState s s k = s := by cases k <;> rfl
  rw [hstate]
  refine fetchPlace_paging_off h (by omega) fun p hp => ?_
  cases k with
  | zero => cases hp
  | succ k =>
    cases hp
    rfl

theorem fetchPath_onePage {s u : State} {pa : PhysAddr} {n : Nat}
    (ht : translate (BitVec.ofNat 32 (fetchAddress s)) .fetch (currentPriv s) s = .next (pa, u))
    (hn : fetchAddress s + n ≤ 2 ^ 32) (hpage : fetchAddress s % 4096 + n ≤ 4096) : FetchPath s u pa.toNat n := by
  refine ⟨((ensures_translate .fetch s _ _).next ht).1.same, fun k hk => ?_⟩
  cases k with
  | zero => exact fetchPlace_first (by omega) ht
  | succ k => exact fetchPlace_inPage u (by omega) (by omega)

/-! ### The bytes of an instruction, one after the other -/

theorem mappedRange_mono {c : Config} {a j k : Nat} (h : mappedRange c a k = true) (hj : j ≤ k) :
    mappedRange c a j = true :=
  List.all_eq_true.mpr fun x hx => mapped_of_range h (by omega) (by
    have := List.mem_range.mp hx
    omega)

theorem readBytes_succ (m : Memory) (a n : Nat) : readBytes m a (n + 1) = readBytes m a n ++ [memByte m (a + n)] :=
  readBytes_append m a n 1

/-- Where the decoder waits for more, it waits after fewer bytes too. -/
theorem decode_readBytes_incomplete {m : Memory} {a j k : Nat} (h : decode (readBytes m a k) = .incomplete)
    (hj : j ≤ k) : decode (readBytes m a j) = .incomplete := by
  obtain ⟨d, rfl⟩ := Nat.exists_eq_add_of_le hj
  rw [readBytes_append] at h
  exact stable_decode.incomplete h

/-- The decoder waits for fewer bytes than the longest instruction has. -/
theorem lt_maxInstrLength_of_incomplete {bs : List Byte} (h : decode bs = .incomplete) :
    bs.length < maxInstrLength := by
  by_contra hlen
  exact decides_decode bs (by omega) h

section
variable {s u : State} {pa n : Nat} (hpath : FetchPath s u pa n)
include hpath

/-- One turn of the loop, the bytes so far undecided: the next byte is fetched. -/
theorem FetchPath.fetchLoop_succ {k : Nat} (hk : k < n) (hd : decode (readBytes u.mem pa k) = .incomplete)
    (fuel : Nat) :
    fetchLoop (fuel + 1) (placeBefore pa k) (readBytes u.mem pa k) (fetchState s u k) =
      andThen (fetchByte (pa + k) u) fun b t =>
        fetchLoop fuel (some (pa + k)) (readBytes u.mem pa k ++ [b]) t := by
  have haddr : fetchAddress (fetchState s u k) = fetchAddress s := by
    cases k with
    | zero => rfl
    | succ k => exact fetchAddress_of_same hpath.same
  simp only [fetchLoop, hd, haddr, length_readBytes, hpath.place k hk, andThen_next]

/-- The loop comes to byte `k` when the bytes before it are undecided, in memory and not stored to. -/
theorem FetchPath.fetchLoop_reaches {k : Nat} (hk : k ≤ n)
    (hd : ∀ j, j < k → decode (readBytes u.mem pa j) = .incomplete)
    (hb : ∀ j, j < k → pa + j ∉ u.written ∧ mapped u.cfg (pa + j) = true) (fuel : Nat) :
    fetchLoop (fuel + k) none [] s =
      fetchLoop fuel (placeBefore pa k) (readBytes u.mem pa k) (fetchState s u k) := by
  induction k generalizing fuel with
  | zero => rfl
  | succ k ih =>
    have hbyte : fetchByte (pa + k) u = .next (memByte u.mem (pa + k), u) := by
      obtain ⟨hw, hm⟩ := hb k (by omega)
      exact fetchByte_eq_next.mpr ⟨hw, hm, rfl, rfl⟩
    rw [show fuel + (k + 1) = fuel + 1 + k from by omega,
      ih (by omega) (fun j hj => hd j (by omega)) (fun j hj => hb j (by omega)),
      hpath.fetchLoop_succ (by omega) (hd k (by omega)), hbyte, andThen_next, ← readBytes_succ]
    rfl

/-- An encoding of a well-formed instruction, in memory and not stored to, is fetched (R54). -/
theorem FetchPath.fetchInstr_encoded {i : Instr} (hwf : i.wf = true) (hn : n = instrLength i)
    (hcode : readBytes u.mem pa n = encode i) (hm : mappedRange u.cfg pa n = true)
    (hw : ∀ k, k < n → pa + k ∉ u.written) : fetchInstr s = .next (i, u) := by
  obtain ⟨_, hpos, hmax⟩ := encodeLength_statement i
  have hwait : ∀ j, j < n → decode (readBytes u.mem pa j) = .incomplete := fun j hj => by
    obtain ⟨d, rfl⟩ := Nat.exists_eq_add_of_lt hj
    rw [show j + d + 1 = j + (d + 1) from by omega, readBytes_append] at hcode
    exact decode_incomplete_of_encode hwf hcode (by simp [readBytes])
  have hdone : decode (readBytes u.mem pa n) = .done i [] := by
    rw [hcode]
    simpa using decode_encode hwf []
  have hstate : fetchState s u n = u := by
    cases n with
    | zero => omega
    | succ n => rfl
  unfold fetchInstr
  rw [show maxInstrLength + 1 = maxInstrLength - n + 1 + n from by omega,
    hpath.fetchLoop_reaches (Nat.le_refl n) hwait (fun j hj => ⟨hw j hj, mapped_of_range hm (by omega) (by omega)⟩)]
  simp only [fetchLoop, hdone, hstate]

/-- The fetch of a byte stored to is refused, whichever byte it is (R73). -/
theorem FetchPath.fetchInstr_stored {k : Nat} (hk : k < n) (hd : decode (readBytes u.mem pa k) = .incomplete)
    (hm : mappedRange u.cfg pa k = true) (hw : pa + k ∈ u.written) : fetchInstr s = .refused .selfModifyingCode := by
  induction k using Nat.strong_induction_on with
  | _ k ih =>
    by_cases hearlier : ∃ j, j < k ∧ pa + j ∈ u.written
    · obtain ⟨j, hj, hwj⟩ := hearlier
      exact ih j hj (by omega) (decode_readBytes_incomplete hd (by omega)) (mappedRange_mono hm (by omega)) hwj
    · have hmax : k < maxInstrLength := by simpa using lt_maxInstrLength_of_incomplete hd
      unfold fetchInstr
      rw [show maxInstrLength + 1 = maxInstrLength - k + 1 + k from by omega,
        hpath.fetchLoop_reaches (by omega) (fun j hj => decode_readBytes_incomplete hd (by omega))
          (fun j hj => ⟨fun hwj => hearlier ⟨j, hj, hwj⟩, mapped_of_range hm (by omega) (by omega)⟩),
        hpath.fetchLoop_succ hk hd]
      simp only [fetchByte, hw, if_true, andThen_refused]

/-- The same for a byte of an encoding. -/
theorem FetchPath.fetchInstr_encodedStored {i : Instr} (hwf : i.wf = true)
    (hcode : readBytes u.mem pa n = encode i) (hm : mappedRange u.cfg pa n = true) {k : Nat} (hk : k < n)
    (hw : pa + k ∈ u.written) : fetchInstr s = .refused .selfModifyingCode := by
  obtain ⟨d, rfl⟩ := Nat.exists_eq_add_of_lt hk
  rw [show k + d + 1 = k + (d + 1) from by omega, readBytes_append] at hcode
  exact hpath.fetchInstr_stored hk (decode_incomplete_of_encode hwf hcode (by simp [readBytes]))
    (mappedRange_mono hm (by omega)) hw

end

/-! ### The step -/

theorem step_of_fetched {s u : State} {i : Instr} (h : fetchInstr (environment s) = .next (i, u)) :
    step s = complete i (exec i u) := by
  unfold step
  rw [h, andThen_next]

theorem step_of_refused {s : State} {why : Refusal} (h : fetchInstr (environment s) = .refused why) :
    step s = .refused why := by
  unfold step
  rw [h, andThen_refused]

/-- A step whose fetch answers is the instruction, EIP past it when it completes (10_state.md R22, R23). -/
theorem step_outcomes {s u : State} {i : Instr} (h : fetchInstr (environment s) = .next (i, u)) :
    (∀ t, exec i u = .next t → step s = .next { t with eip := t.eip + BitVec.ofNat 32 (instrLength i) }) ∧
    (∀ e, exec i u = .fault e → step s = .fault e) ∧ (∀ why, exec i u = .refused why → step s = .refused why) := by
  rw [step_of_fetched h]
  refine ⟨fun t ht => ?_, fun e he => ?_, fun why hw => ?_⟩
  · rw [ht]; rfl
  · rw [he]; rfl
  · rw [hw]; rfl

/-! ### The obligations -/

/-- Settles O6: the instruction's translation is its first byte's, and every later byte is on the same page. -/
theorem stepRunsInstructionOnOnePage : Obligations.StepRunsInstructionOnOnePage := by
  intro s u pa i hwf ht hn hpage hcode hm hw
  have hkeeps := ((ensures_translate .fetch (environment s) _ _).next ht).1
  have hpath : FetchPath (environment s) u pa.toNat (instrLength i) := fetchPath_onePage ht hn hpage
  refine step_outcomes (hpath.fetchInstr_encoded hwf rfl hcode ?_ ?_)
  · rw [hkeeps.same.cfg]; exact hm
  · rw [hkeeps.written]; exact hw

/-- Settles O5: with paging off each byte is at its linear address. -/
theorem stepRunsInstructionPagingOff : Obligations.StepRunsInstructionPagingOff := by
  intro s i hwf hpg hn hcode hm hw
  have hpath : FetchPath (environment s) (environment s) (fetchAddress s) (instrLength i) :=
    fetchPath_paging_off (s := environment s) hpg hn
  exact step_outcomes (hpath.fetchInstr_encoded hwf rfl hcode hm hw)

/-- Settles O7: the loop comes to the byte stored to, or to an earlier one, before anything is decided. -/
theorem fetchOfStoredByteRefused : Obligations.FetchOfStoredByteRefused := by
  refine ⟨fun s i k hwf hpg hn hcode hm hk hw => ?_, fun s k hpg hn hd hm hw => ?_,
    fun s u pa i k hwf ht hn hpage hcode hm hk hw => ?_⟩
  · have hpath : FetchPath (environment s) (environment s) (fetchAddress s) (instrLength i) :=
      fetchPath_paging_off (s := environment s) hpg hn
    exact step_of_refused (hpath.fetchInstr_encodedStored hwf hcode hm hk hw)
  · have hpath : FetchPath (environment s) (environment s) (fetchAddress s) (k + 1) :=
      fetchPath_paging_off (s := environment s) hpg hn
    exact step_of_refused (hpath.fetchInstr_stored (Nat.lt_succ_self k) hd hm hw)
  · have hkeeps := ((ensures_translate .fetch (environment s) _ _).next ht).1
    have hpath : FetchPath (environment s) u pa.toNat (instrLength i) := fetchPath_onePage ht hn hpage
    refine step_of_refused (hpath.fetchInstr_encodedStored hwf hcode ?_ hk ?_)
    · rw [hkeeps.same.cfg]; exact hm
    · rw [hkeeps.written]; exact hw

end Sys2Proof.Machine

/-! ## The bytes the decoder accepts are an encoding (30_encoding.md R83 to R92) -/

namespace Sys2Proof

/-! ### Fields, from bits to registers and back -/

@[simp] theorem bitsOfReg_regOfBits (b : BitVec 3) : bitsOfReg (regOfBits b) = b := by
  revert b; decide

theorem bitsOfDataSeg_of_dataSegOfBits {b : BitVec 3} {r : DataSeg} (h : dataSegOfBits b = some r) :
    bitsOfDataSeg r = b := by
  revert b r; decide

/-- Every ModR/M or SIB byte is made of its three fields, the last a register number (R84). -/
theorem exists_threeFields (b : Byte) : ∃ hi mid r, b = threeFields hi mid (bitsOfReg r) :=
  ⟨modField b, regField b, regOfBits (rmField b), by revert b; decide⟩

/-- A byte `B8 + r` (R87) from its opcode bits and its register number. -/
theorem eq_append_rmField {op : Byte} (h : op.extractLsb' 3 5 = 0x17#5) :
    op = 0x17#5 ++ bitsOfReg (regOfBits (rmField op)) := by
  revert op; decide

theorem dwordBytes_append (b0 b1 b2 b3 : Byte) : dwordBytes (b3 ++ b2 ++ b1 ++ b0) = [b0, b1, b2, b3] := by
  rw [← Machine.leNat_four]
  exact Machine.leBytes_leWord32 [b0, b1, b2, b3] rfl

/-! ### What a parser takes -/

/-- What the parser takes off a byte sequence is written as `W` says. -/
def Takes {α : Type} (p : List Byte → Parsed α) (W : α → List Byte → Prop) : Prop :=
  ∀ bs a rest, p bs = .done a rest → ∃ taken, W a taken ∧ bs = taken ++ rest

theorem takes_done {α : Type} {W : α → List Byte → Prop} {a : α} (h : W a []) : Takes (fun bs => .done a bs) W := by
  intro bs x rest hp
  injection hp with hx hrest
  exact ⟨[], hx ▸ h, hrest⟩

theorem takes_refused {α : Type} (W : α → List Byte → Prop) (why : DecodeError) :
    Takes (fun _ => .refused why) W := fun _ _ _ hp => by cases hp

theorem takes_takeByte {α : Type} {W : α → List Byte → Prop} {f : Byte → List Byte → Parsed α}
    (h : ∀ b, Takes (f b) fun a taken => W a (b :: taken)) : Takes (fun bs => (takeByte bs).andThen f) W := by
  intro bs a rest hp
  match bs, hp with
  | [], hp => cases hp
  | b :: bs, hp =>
    obtain ⟨taken, hW, rfl⟩ := h b bs a rest hp
    exact ⟨b :: taken, hW, rfl⟩

/-- A doubleword is the last part of every encoding that has one. -/
theorem takes_takeDword {α : Type} {W : α → List Byte → Prop} {f : Word32 → α} (h : ∀ d, W (f d) (dwordBytes d)) :
    Takes (fun bs => (takeDword bs).andThen fun d rest => .done (f d) rest) W := by
  intro bs a rest hp
  match bs, hp with
  | b0 :: b1 :: b2 :: b3 :: bs, hp =>
    injection hp with ha hrest
    subst ha hrest
    exact ⟨[b0, b1, b2, b3], dwordBytes_append b0 b1 b2 b3 ▸ h _, rfl⟩
  | [], hp => cases hp
  | [_], hp => cases hp
  | [_, _], hp => cases hp
  | [_, _, _], hp => cases hp

theorem takes_andThen_done {α β : Type} {V : α → List Byte → Prop} {W : β → List Byte → Prop}
    {p : List Byte → Parsed α} {f : α → β} (hp : Takes p V) (h : ∀ a taken, V a taken → W (f a) taken) :
    Takes (fun bs => (p bs).andThen fun a rest => .done (f a) rest) W := by
  intro bs b rest hb
  simp only at hb
  rcases ha : p bs with ⟨a, r⟩ | _ | why
  · rw [ha] at hb
    injection hb with hfa hrest
    subst hfa hrest
    obtain ⟨taken, hV, hbs⟩ := hp bs a r ha
    exact ⟨taken, h a taken hV, hbs⟩
  · rw [ha] at hb
    cases hb
  · rw [ha] at hb
    cases hb

theorem takes_ite {α : Type} {c : Prop} [Decidable c] {W : α → List Byte → Prop} {p q : List Byte → Parsed α}
    (hp : c → Takes p W) (hq : ¬ c → Takes q W) : Takes (fun bs => if c then p bs else q bs) W := by
  by_cases h : c
  · simpa only [if_pos h] using hp h
  · simpa only [if_neg h] using hq h

/-! ### Operands -/

/-- `bs` is the encoding of the well-formed memory operand `m` (R85). -/
def WritesMem (reg : BitVec 3) (m : Mem) (bs : List Byte) : Prop := m.wf = true ∧ bs = encodeMem reg m

/-- `bs` is the encoding of the well-formed instruction `i`. -/
def WritesInstr (i : Instr) (bs : List Byte) : Prop := i.wf = true ∧ bs = encode i

theorem eq_two_of_ne {mod : BitVec 2} (h0 : mod ≠ 0#2) (h1 : mod ≠ 1#2) (h3 : mod ≠ 3#2) : mod = 2#2 := by
  revert mod; decide

section
variable {mod : BitVec 2} (hmod : mod ≠ 3#2) (reg : BitVec 3)
include hmod

/-- The bytes after a ModR/M byte that announces a SIB byte. -/
theorem takes_parseSib (sib : Byte) :
    Takes (parseSib mod sib) fun m taken => WritesMem reg m (threeFields mod reg 4#3 :: sib :: taken) := by
  obtain ⟨scale, mid, b, rfl⟩ := exists_threeFields sib
  obtain ⟨i, rfl⟩ : ∃ i, mid = bitsOfReg i := ⟨regOfBits mid, (bitsOfReg_regOfBits mid).symm⟩
  unfold parseSib
  simp only [modField_threeFields, regField_threeFields, rmField_threeFields, regOfBits_bitsOfReg]
  refine takes_ite (fun h0 => takes_ite (fun hb => ?_) fun hb => ?_) fun h0 => takes_ite (fun h1 => ?_) fun h1 => ?_
  · subst h0 hb
    exact takes_takeDword fun d => ⟨rfl, rfl⟩
  · subst h0
    exact takes_done ⟨by simpa [Mem.wf] using hb, rfl⟩
  · subst h1
    exact takes_takeByte fun d => takes_done ⟨rfl, rfl⟩
  · obtain rfl := eq_two_of_ne h0 h1 hmod
    exact takes_takeDword fun d => ⟨rfl, rfl⟩

/-- The bytes after the ModR/M byte of a memory operand. -/
theorem takes_parseMem (r : Reg) :
    Takes (parseMem (threeFields mod reg (bitsOfReg r))) fun m taken =>
      WritesMem reg m (threeFields mod reg (bitsOfReg r) :: taken) := by
  unfold parseMem
  simp only [modField_threeFields, rmField_threeFields, regOfBits_bitsOfReg]
  refine takes_ite (fun hr => ?_) fun hesp =>
    takes_ite (fun h0 => takes_ite (fun hr => ?_) fun hebp => ?_) fun h0 => takes_ite (fun h1 => ?_) fun h1 => ?_
  · subst hr
    exact takes_takeByte fun sib => takes_parseSib hmod reg sib
  · subst h0 hr
    exact takes_takeDword fun d => ⟨rfl, rfl⟩
  · subst h0
    exact takes_done ⟨by simp [Mem.wf, hesp, hebp], rfl⟩
  · subst h1
    exact takes_takeByte fun d => takes_done ⟨by simpa [Mem.wf] using hesp, rfl⟩
  · obtain rfl := eq_two_of_ne h0 h1 hmod
    exact takes_takeDword fun d => ⟨by simpa [Mem.wf] using hesp, rfl⟩

end

section
variable (opcode : List Byte) {modrm : Byte} {reg : BitVec 3} (hreg : regField modrm = reg)
include hreg

theorem takes_parseMemOnly {f : Mem → Instr} (h : ∀ m, m.wf = true → WritesInstr (f m) (opcode ++ encodeMem reg m)) :
    Takes (fun bs => parseMemOnly modrm bs f) fun i taken => WritesInstr i (opcode ++ modrm :: taken) := by
  obtain ⟨mod, mid, r, rfl⟩ := exists_threeFields modrm
  obtain rfl : mid = reg := by simpa using hreg
  refine takes_ite (fun _ => takes_refused _ _) fun hmod => ?_
  refine takes_andThen_done (takes_parseMem (by simpa using hmod) mid r) ?_
  rintro m taken ⟨hwf, he⟩
  exact he ▸ h m hwf

theorem takes_parseRegMem {f : RegMem → Instr}
    (h : ∀ x, x.wf = true → WritesInstr (f x) (opcode ++ encodeRegMem reg x)) :
    Takes (fun bs => parseRegMem modrm bs f) fun i taken => WritesInstr i (opcode ++ modrm :: taken) := by
  obtain ⟨mod, mid, r, rfl⟩ := exists_threeFields modrm
  obtain rfl : mid = reg := by simpa using hreg
  refine takes_ite (fun hmod => ?_) fun hmod => ?_
  · obtain rfl : mod = 3#2 := by simpa using hmod
    simp only [rmField_threeFields, regOfBits_bitsOfReg]
    exact takes_done (h (.reg r) rfl)
  · refine takes_andThen_done (takes_parseMem (by simpa using hmod) mid r) ?_
    rintro m taken ⟨hwf, he⟩
    exact he ▸ h (.mem m) hwf

theorem takes_parseRegOnly {f : Reg → Instr}
    (h : ∀ r, WritesInstr (f r) (opcode ++ [threeFields 3#2 reg (bitsOfReg r)])) :
    Takes (fun bs => parseRegOnly modrm bs f) fun i taken => WritesInstr i (opcode ++ modrm :: taken) := by
  obtain ⟨mod, mid, r, rfl⟩ := exists_threeFields modrm
  obtain rfl : mid = reg := by simpa using hreg
  refine takes_ite (fun hmod => ?_) fun _ => takes_refused _ _
  obtain rfl : mod = 3#2 := by simpa using hmod
  simp only [rmField_threeFields, regOfBits_bitsOfReg]
  exact takes_done (h r)

end

/-! ### Opcodes -/

theorem takes_parse0F00 (b : Byte) :
    Takes (parse0F00 b) fun i taken => WritesInstr i (0x0F#8 :: 0x00#8 :: b :: taken) :=
  takes_ite (fun h => takes_parseRegMem [0x0F#8, 0x00#8] h fun _ hx => ⟨hx, rfl⟩) fun _ =>
    takes_ite (fun h => takes_parseRegMem [0x0F#8, 0x00#8] h fun _ hx => ⟨hx, rfl⟩) fun _ => takes_refused _ _

theorem takes_parse0F01 (b : Byte) :
    Takes (parse0F01 b) fun i taken => WritesInstr i (0x0F#8 :: 0x01#8 :: b :: taken) :=
  takes_ite (fun h => takes_parseMemOnly [0x0F#8, 0x01#8] h fun _ hm => ⟨hm, rfl⟩) fun _ =>
    takes_ite (fun h => takes_parseMemOnly [0x0F#8, 0x01#8] h fun _ hm => ⟨hm, rfl⟩) fun _ =>
      takes_ite (fun h => takes_parseMemOnly [0x0F#8, 0x01#8] h fun _ hm => ⟨hm, rfl⟩) fun _ => takes_refused _ _

theorem takes_parse0F20 (b : Byte) :
    Takes (parse0F20 b) fun i taken => WritesInstr i (0x0F#8 :: 0x20#8 :: b :: taken) :=
  takes_ite (fun h => takes_parseRegOnly [0x0F#8, 0x20#8] h fun _ => ⟨rfl, rfl⟩) fun _ =>
    takes_ite (fun h => takes_parseRegOnly [0x0F#8, 0x20#8] h fun _ => ⟨rfl, rfl⟩) fun _ =>
      takes_ite (fun h => takes_parseRegOnly [0x0F#8, 0x20#8] h fun _ => ⟨rfl, rfl⟩) fun _ => takes_refused _ _

theorem takes_parse0F22 (b : Byte) :
    Takes (parse0F22 b) fun i taken => WritesInstr i (0x0F#8 :: 0x22#8 :: b :: taken) :=
  takes_ite (fun h => takes_parseRegOnly [0x0F#8, 0x22#8] h fun _ => ⟨rfl, rfl⟩) fun _ =>
    takes_ite (fun h => takes_parseRegOnly [0x0F#8, 0x22#8] h fun _ => ⟨rfl, rfl⟩) fun _ =>
      takes_ite (fun h => takes_parseRegOnly [0x0F#8, 0x22#8] h fun _ => ⟨rfl, rfl⟩) fun _ => takes_refused _ _

theorem takes_parseTwoByte (op : Byte) :
    Takes (parseTwoByte op) fun i taken => WritesInstr i (0x0F#8 :: op :: taken) := by
  refine takes_ite (fun h => ?_) fun _ => takes_ite (fun h => ?_) fun _ => takes_ite (fun h => ?_) fun _ =>
    takes_ite (fun h => ?_) fun _ => takes_ite (fun h => ?_) fun _ => takes_refused _ _
  · exact h ▸ takes_takeByte takes_parse0F00
  · exact h ▸ takes_takeByte takes_parse0F01
  · exact h ▸ takes_takeByte takes_parse0F20
  · exact h ▸ takes_takeByte takes_parse0F22
  · exact h ▸ takes_done ⟨rfl, rfl⟩

theorem takes_parseMovSreg (b : Byte) :
    Takes (parseMovSreg b) fun i taken => WritesInstr i (0x8E#8 :: b :: taken) := by
  unfold parseMovSreg
  cases hseg : dataSegOfBits (regField b) with
  | some sreg => exact takes_parseRegMem [0x8E#8] (bitsOfDataSeg_of_dataSegOfBits hseg).symm fun _ hx => ⟨hx, rfl⟩
  | none => exact takes_refused _ _

theorem takes_parseOpcode (op : Byte) : Takes (parseOpcode op) fun i taken => WritesInstr i (op :: taken) := by
  refine takes_ite (fun h => ?_) fun _ => takes_ite (fun h => ?_) fun _ => takes_ite (fun h => ?_) fun _ =>
    takes_ite (fun h => ?_) fun _ => takes_ite (fun h => ?_) fun _ => takes_ite (fun h => ?_) fun _ => takes_refused _ _
  · exact h ▸ takes_takeByte takes_parseTwoByte
  · exact h ▸ takes_takeByte takes_parseMovSreg
  · exact takes_takeDword fun imm => ⟨rfl, congrArg (· :: dwordBytes imm) (eq_append_rmField h)⟩
  · exact h ▸ takes_takeDword fun off => ⟨rfl, rfl⟩
  · exact h ▸ takes_takeDword fun off => ⟨rfl, rfl⟩
  · exact h ▸ takes_takeDword fun imm => ⟨rfl, rfl⟩

/-- What the decoder takes is the encoding of a well-formed instruction (R83). -/
theorem takes_decode : Takes decode WritesInstr := takes_takeByte takes_parseOpcode

/-! ### Refused forms -/

theorem parseMemOnly_registerForm {modrm : Byte} (h : modField modrm = 3#2) (bs : List Byte) (f : Mem → Instr) :
    parseMemOnly modrm bs f = .refused .registerForm := if_pos h

theorem parseRegOnly_memoryForm {modrm : Byte} (h : modField modrm ≠ 3#2) (bs : List Byte) (f : Reg → Instr) :
    parseRegOnly modrm bs f = .refused .memoryForm := if_neg h

/-- The bytes an admitted encoding begins with (R86 to R90). -/
def beginsRow (op : Byte) : Bool :=
  op == 0x0F#8 || op == 0x8E#8 || op.extractLsb' 3 5 == 0x17#5 || op == 0xA1#8 || op == 0xA3#8 || op == 0x0D#8

/-- Every other byte is refused, whatever follows (R83). -/
theorem decode_noRow {op : Byte} (h : beginsRow op = false) (bs : List Byte) : decode (op :: bs) = .refused .noRow := by
  simp only [beginsRow, Bool.or_eq_false_iff, beq_eq_false_iff_ne, ne_eq] at h
  obtain ⟨⟨⟨⟨⟨h0F, h8E⟩, hB8⟩, hA1⟩, hA3⟩, h0D⟩ := h
  show parseOpcode op bs = _
  simp only [parseOpcode, h0F, h8E, hB8, hA1, hA3, h0D, if_false]

/-! ### The obligations -/

/-- Settles O1: by the form of the instruction, `decode_encode`. -/
theorem decodeInvertsEncode : Obligations.DecodeInvertsEncode := fun _ rest h => decode_encode h rest

/-- Settles O2: every arm of the decoder takes what the encoder writes. -/
theorem decodedBytesAreTheEncoding : Obligations.DecodedBytesAreTheEncoding := by
  intro bs rest i h
  obtain ⟨taken, ⟨hwf, rfl⟩, hbs⟩ := takes_decode bs i rest h
  exact ⟨hwf, hbs⟩

/-- Settles O4: no row begins with a byte of R92, and the other three forms fall to the test of `mod` or of the segment register. -/
theorem unadmittedFormsRefused : Obligations.UnadmittedFormsRefused := by
  refine ⟨fun b hb bs => decode_noRow ?_ bs, fun modrm bs hmod hreg => ?_, fun op hop modrm bs hmod hreg => ?_,
    fun modrm bs hreg => ?_⟩
  · revert b; decide
  · rw [decode_0F01]
    simp only [List.mem_cons, List.not_mem_nil, or_false] at hreg
    rcases hreg with hreg | hreg | hreg <;> simp [parse0F01, hreg, parseMemOnly_registerForm hmod]
  · simp only [List.mem_cons, List.not_mem_nil, or_false] at hop hreg
    rcases hop with rfl | rfl
    · rw [decode_0F20]
      rcases hreg with hreg | hreg | hreg <;> simp [parse0F20, hreg, parseRegOnly_memoryForm hmod]
    · rw [decode_0F22]
      rcases hreg with hreg | hreg | hreg <;> simp [parse0F22, hreg, parseRegOnly_memoryForm hmod]
  · have hnone : dataSegOfBits (regField modrm) = none := by
      generalize regField modrm = reg at hreg
      revert reg; decide
    rw [decode_8E, parseMovSreg, hnone]

end Sys2Proof

/-! ## The helper instructions of 30_encoding.md R87 to R90 -/

namespace Sys2Proof.Machine

/-! ### What each answers -/

theorem exec_movRegImm32 (r : Reg) (imm : Word32) (s : State) :
    exec (.movRegImm32 r imm) s = .next (writeReg r imm s) := rfl

theorem exec_orEaxImm32 (imm : Word32) (s : State) :
    exec (.orEaxImm32 imm) s = .next (useChoices 1 { writeReg .eax (s.gprs.eax ||| imm) s with
      eflags := withStatusFlags s.eflags (Config.freeWord s.choices) }) := rfl

/-- With paging off the store of EAX is the store of its bytes at the linear address (R89). -/
theorem exec_movMoffs32Eax_plain {off la : Word32} {s : State} (ha : SegmentAddress s .ds off 4 .write la)
    (h : PlainAccess s la.toNat 4) :
    exec (.movMoffs32Eax off) s = .next (storeData la.toNat (leBytes 4 s.gprs.eax) s) := by
  rw [exec_movMoffs32Eax, segTranslate_answered ha, andThen_next, memWrite_plain (by simpa using h) (by simp),
    andThen_next]

/-- With paging off the load of EAX takes the doubleword at the linear address (R88). -/
theorem exec_movEaxMoffs32_plain {off la : Word32} {s : State} (ha : SegmentAddress s .ds off 4 .read la)
    (h : PlainAccess s la.toNat 4) :
    exec (.movEaxMoffs32 off) s = .next (writeReg .eax (entryAt s la.toNat) s) := by
  rw [exec_movEaxMoffs32, segTranslate_answered ha, andThen_next, memRead_plain h (by omega), andThen_next]
  rfl

/-! ### Their parts -/

/-- Only status flags become free (log 12). -/
theorem withStatusFlags_kept (eflags free : Word32) :
    withStatusFlags eflags free &&& ~~~statusFlags = eflags &&& ~~~statusFlags := by
  unfold withStatusFlags
  ext i hi
  simp only [BitVec.getElem_and, BitVec.getElem_or, BitVec.getElem_not]
  cases statusFlags[i] <;> simp

theorem memByte_storeData_leBytes (pa n : Nat) {w : Nat} (v : BitVec w) (s : State) {k : Nat} (hk : k < n) :
    memByte (storeData pa (leBytes n v) s).mem (pa + k) = v.extractLsb' (8 * k) 8 := by
  rw [storeData_mem, memByte_writeBytes, if_pos (by simpa using hk), Nat.add_sub_cancel_left, getD_leBytes n v k hk]

/-- A doubleword stored is the doubleword there. -/
theorem entryAt_storeData (pa : Nat) (v : Word32) (s : State) : entryAt (storeData pa (leBytes 4 v) s) pa = v := by
  have hread := readBytes_writeBytes_same s.mem pa (leBytes 4 v)
  rw [length_leBytes] at hread
  rw [entryAt, storeData_mem, hread, leWord32_leBytes]

/-- A segment answers alike after a store and a write of a general register. -/
theorem SegmentAddress.after_store {s : State} {seg : Seg} {off la : Word32} {n : Nat} {acc : SegAccess}
    (h : SegmentAddress s seg off n acc la) (r : Reg) (v : Word32) (pa : Nat) (bs : List Byte) :
    SegmentAddress (writeReg r v (storeData pa bs s)) seg off n acc la :=
  ⟨by cases seg <;> exact h.usable, h.answered⟩

/-- So does the access. -/
theorem PlainAccess.after_store {s : State} {addr n : Nat} (h : PlainAccess s addr n) (r : Reg) (v : Word32) (pa : Nat)
    (bs : List Byte) : PlainAccess (writeReg r v (storeData pa bs s)) addr n :=
  ⟨h.pagingOff, h.noWrap, h.inMemory, h.aligned⟩

/-! ### The obligations -/

/-- Settles O17: the instruction is a write of its register. -/
theorem movImmediateResult : Obligations.MovImmediateResult := fun r imm s =>
  ⟨_, exec_movRegImm32 r imm s, readReg_writeReg_same s r imm, fun r' => readReg_writeReg_other s r r' imm, rfl⟩

/-- Settles O18: the free values stay inside the status flags. -/
theorem orImmediateResult : Obligations.OrImmediateResult := fun imm s =>
  ⟨_, exec_orEaxImm32 imm s, rfl, withStatusFlags_kept _ _, rfl⟩

/-- Settles O32: the bytes stored are those of EAX, and a store leaves the bytes outside its range alone. -/
theorem storeEaxResult : Obligations.StoreEaxResult := by
  intro off la s ha h
  refine ⟨_, exec_movMoffs32Eax_plain ha h, fun k => memByte_storeData_leBytes _ 4 _ s, fun a hout => ?_, rfl⟩
  exact memByte_writeBytes_other _ _ _ _ (by simpa using hout)

/-- Settles O33: EAX takes a doubleword whose bytes are those of memory. -/
theorem loadEaxResult : Obligations.LoadEaxResult := by
  intro off la s ha h
  exact ⟨_, exec_movEaxMoffs32_plain ha h, fun k hk => (memByte_of_entryAt s la.toNat k hk).symm, rfl⟩

/-- Settles O35: the doubleword stored is the doubleword loaded, and no other general register was written. -/
theorem storedValueIsReadBack : Obligations.StoredValueIsReadBack := by
  intro off la v s hw hr h
  refine ⟨_, _, exec_movMoffs32Eax_plain hw h,
    exec_movEaxMoffs32_plain (hr.after_store .eax v _ _) (h.after_store .eax v _ _), ?_⟩
  have heax : entryAt (writeReg .eax v (storeData la.toNat (leBytes 4 s.gprs.eax) s)) la.toNat = s.gprs.eax :=
    entryAt_storeData la.toNat s.gprs.eax s
  rw [heax]
  rfl

end Sys2Proof.Machine

/-! ## Segments and descriptor tables of 40_descriptor_tables.md R100 to R115 -/

namespace Sys2Proof.Machine

/-! ### Null selectors -/

/-- The four null selectors (R108, log 23): index and table indicator are 0, the privilege level is any. -/
theorem isNullSelector_iff_mem {sel : Word16} : isNullSelector sel = true ↔ sel ∈ [0#16, 1#16, 2#16, 3#16] := by
  have hnull : isNullSelector sel = true ↔ sel.toNat < 4 := by
    rw [isNullSelector, beq_iff_eq, ← BitVec.toNat_inj, BitVec.extractLsb'_toNat, Nat.shiftRight_eq_div_pow]
    simp only [BitVec.toNat_ofNat]
    omega
  simp only [hnull, List.mem_cons, List.not_mem_nil, or_false, ← BitVec.toNat_inj, BitVec.toNat_ofNat]
  omega

/-! ### The load of a data-segment register -/

theorem writeDataSeg_frame (r : DataSeg) (v : SegReg) (s : State) :
    writeDataSeg r v s =
      { s with
        es := (writeDataSeg r v s).es, ds := (writeDataSeg r v s).ds
        fs := (writeDataSeg r v s).fs, gs := (writeDataSeg r v s).gs } := by
  cases r <;> rfl

/-- A null selector is loaded without exception and makes that register alone unusable (R107). -/
theorem loadDataSeg_null {sel : Word16} (h : isNullSelector sel = true) (r : DataSeg) (s : State) :
    ∃ t, loadDataSeg r sel s = .next t ∧ (readDataSeg t r).selector = sel ∧ (readDataSeg t r).usable = false ∧
      (∀ r', r' ≠ r → readDataSeg t r' = readDataSeg s r') ∧
      t = { s with es := t.es, ds := t.ds, fs := t.fs, gs := t.gs } := by
  refine ⟨writeDataSeg r { selector := sel, usable := false } s, if_pos h, ?_, ?_, ?_, writeDataSeg_frame r _ s⟩
  · rw [readDataSeg_writeDataSeg_same]
  · rw [readDataSeg_writeDataSeg_same]
  · exact fun r' => readDataSeg_writeDataSeg_other s r r' _

theorem loadDataSeg_not_null {sel : Word16} (h : isNullSelector sel = false) (r : DataSeg) (s : State) :
    loadDataSeg r sel s = .refused .nonNullSelectorLoad := if_neg (by simp [h])

theorem exec_movSreg_reg (r : DataSeg) (x : Reg) (s : State) :
    exec (.movSreg r (.reg x)) s = loadDataSeg r ((readReg s x).extractLsb' 0 16) s := rfl

/-- With paging off the selector is the word at the operand's linear address. -/
theorem exec_movSreg_mem_plain (r : DataSeg) {m : Mem} {la : Word32} {s : State} (ha : OperandAddress s m 2 .read la)
    (h : PlainAccess s la.toNat 2) :
    exec (.movSreg r (.mem m)) s = loadDataSeg r (leWord16 (readBytes s.mem la.toNat 2)) s := by
  rw [exec_movSreg_mem, memOperand_answered ha, andThen_next, memRead_plain h (by omega), andThen_next]

/-! ### Segment translations that raise -/

/-- A data-segment register as a segment of an access. -/
def segOfDataSeg : DataSeg → Seg
  | .es => .es
  | .ds => .ds
  | .fs => .fs
  | .gs => .gs

theorem segUsable_segOfDataSeg (s : State) (r : DataSeg) : segUsable s (segOfDataSeg r) = (readDataSeg s r).usable := by
  cases r <;> rfl

theorem exec_invlpg_level0 (m : Mem) {s : State} (h : s.cpl = 0) :
    exec (.invlpg m) s = andThen (memOperand m 1 .none s) fun la t => .next (flushPage la t) := if_pos h

/-- The instructions that translate an offset through a segment, with the segment, the offset, and the size and kind of
access they ask for. -/
def segmentForms (m : Mem) (r : DataSeg) (off : Word32) (s : State) : List (Instr × Seg × Word32 × Nat × SegAccess) :=
  [(.movEaxMoffs32 off, .ds, off, 4, .read), (.movMoffs32Eax off, .ds, off, 4, .write),
    (.sgdt m, defaultSeg m, effectiveAddress s m, 6, .write), (.sidt m, defaultSeg m, effectiveAddress s m, 6, .write),
    (.sldt (.mem m), defaultSeg m, effectiveAddress s m, 2, .write),
    (.str (.mem m), defaultSeg m, effectiveAddress s m, 2, .write),
    (.movSreg r (.mem m), defaultSeg m, effectiveAddress s m, 2, .read),
    (.invlpg m, defaultSeg m, effectiveAddress s m, 1, .none)]

/-- Each of them is its segment translation and what follows, INVLPG once it has passed its check of the level. -/
theorem exec_beginsWithSegment {m : Mem} {r : DataSeg} {off : Word32} {s : State}
    {p : Instr × Seg × Word32 × Nat × SegAccess} (hp : p ∈ segmentForms m r off s) (hl : p.1 = .invlpg m → s.cpl = 0) :
    ∃ k, exec p.1 s = andThen (segTranslate p.2.1 p.2.2.1 p.2.2.2.1 p.2.2.2.2 s) k := by
  simp only [segmentForms, List.mem_cons, List.not_mem_nil, or_false] at hp
  rcases hp with rfl | rfl | rfl | rfl | rfl | rfl | rfl | rfl
  · exact ⟨_, exec_movEaxMoffs32 off s⟩
  · exact ⟨_, exec_movMoffs32Eax off s⟩
  · exact ⟨_, exec_sgdt m s⟩
  · exact ⟨_, exec_sidt m s⟩
  · exact ⟨_, exec_sldt_mem m s⟩
  · exact ⟨_, exec_str_mem m s⟩
  · exact ⟨_, exec_movSreg_mem r m s⟩
  · exact ⟨_, exec_invlpg_level0 m (hl rfl)⟩

/-- An exception of the segment translation is the instruction's. -/
theorem exec_segment_raises {m : Mem} {r : DataSeg} {off : Word32} {s : State} {e : Exception}
    {p : Instr × Seg × Word32 × Nat × SegAccess} (hp : p ∈ segmentForms m r off s) (hl : p.1 = .invlpg m → s.cpl = 0)
    (h : segTranslate p.2.1 p.2.2.1 p.2.2.2.1 p.2.2.2.2 s = raise e s) : exec p.1 s = .fault (.exception e s) := by
  obtain ⟨k, hk⟩ := exec_beginsWithSegment hp hl
  rw [hk, h]
  rfl

/-! ### Descriptor tables -/

theorem isValidByte_iff {t : TableReg} {a : Nat} :
    isValidByte t a = true ↔ t.base.toNat ≤ a ∧ a ≤ t.base.toNat + t.limit.toNat := by
  rw [isValidByte, Bool.and_eq_true, decide_eq_true_iff, decide_eq_true_iff, lastValidByte]

theorem descriptorInside_iff {limit n : Nat} : descriptorInside limit n = true ↔ 8 * n + 7 ≤ limit := by
  simp [descriptorInside]

/-- A descriptor's bytes with paging off, whatever the level. -/
theorem readDescriptorAt_paging_off {base : Word32} {n : Nat} {s : State} (hpg : pgFlag s.cr0 = false)
    (hr : descriptorAddress base n + 8 ≤ 2 ^ 32) (hm : mappedRange s.cfg (descriptorAddress base n) 8 = true) :
    readDescriptorAt base n s = .next (leWord64 (readBytes s.mem (descriptorAddress base n) 8), s) := by
  rw [readDescriptorAt, translateRange_paging_off hpg (by omega) hr, andThen_next, readPlaces_eq, placesMapped_blocks,
    if_pos hm, andThen_next, placesBytes_blocks]

theorem readDescriptor_ldt {sel : Word16} (hn : isNullSelector sel = false) (hl : selectorInLdt sel = true) (s : State) :
    readDescriptor sel s =
      if descriptorInside s.ldtr.limit.toNat (selectorIndex sel) then
        readDescriptorAt s.ldtr.base (selectorIndex sel) s
      else raise (.generalProtection sel) s := by
  rw [readDescriptor, if_neg (by simp [hn]), if_pos hl]

theorem readDescriptor_gdt {sel : Word16} (hn : isNullSelector sel = false) (hl : selectorInLdt sel = false) (s : State) :
    readDescriptor sel s =
      if tableWraps s.gdtr then .refused .gdtWraps
      else if descriptorInside s.gdtr.limit.toNat (selectorIndex sel) then
        readDescriptorAt s.gdtr.base (selectorIndex sel) s
      else raise (.generalProtection sel) s := by
  rw [readDescriptor, if_neg (by simp [hn]), if_neg (by simp [hl])]

/-! ### The obligations -/

/-- Settles O34: the word read is the selector, and `loadDataSeg` decides by whether it is null. -/
theorem loadSegmentFromMemory : Obligations.LoadSegmentFromMemory := by
  intro r m la s ha h
  rw [exec_movSreg_mem_plain r ha h]
  exact ⟨fun hnull => loadDataSeg_null hnull r s, fun hnot => loadDataSeg_not_null hnot r s⟩

/-- Settles O27: the four selectors of the statement are the null ones. -/
theorem loadSegmentFromRegister : Obligations.LoadSegmentFromRegister := by
  intro r x s
  rw [exec_movSreg_reg, ← isNullSelector_iff_mem, Bool.not_eq_true]
  exact ⟨fun hnull => loadDataSeg_null hnull r s, fun hnot => loadDataSeg_not_null hnot r s⟩

/-- Settles O28: what the load leaves in the register is not usable, and that is all a segment translation looks at. -/
theorem nullSelectorAlwaysFaults : Obligations.NullSelectorAlwaysFaults := by
  intro r x s hnull
  obtain ⟨t, ht, -, hunusable, -⟩ := loadDataSeg_null hnull r s
  refine ⟨t, ht, fun u hu off n acc => ?_⟩
  have hseg : segUsable u (segOfDataSeg r) = false := by rw [segUsable_segOfDataSeg, hu, hunusable]
  exact segTranslate_unusable hseg off n acc

/-- Settles O29: each instruction begins with its segment translation, which raises through an unusable register and
where `segOutcome` denies the operand. -/
theorem nullSegmentOperandsFault : Obligations.NullSegmentOperandsFault := by
  refine ⟨fun m r off s hds => ?_, fun m r off code s p hp hl hu hd => ?_, fun seg off la n acc s hf => ?_⟩
  · have hfault : ∀ p ∈ segmentForms m r off s, (p.1 = .invlpg m → s.cpl = 0) → p.2.1 = .ds →
        exec p.1 s = .fault (.exception (.generalProtection 0#16) s) := fun p hp hl hseg =>
      exec_segment_raises hp hl (segTranslate_unusable (by rw [hseg]; exact hds) _ _ _)
    simp only [segmentForms, List.forall_mem_cons] at hfault
    obtain ⟨heax, hmoffs, hsgdt, hsidt, hsldt, hstr, hsreg, hinvlpg, -⟩ := hfault
    refine ⟨heax nofun trivial, hmoffs nofun trivial, fun hm => ?_, fun hm hcpl => hinvlpg (fun _ => hcpl) hm⟩
    simp only [List.forall_mem_cons]
    exact ⟨hsgdt nofun hm, hsidt nofun hm, hsldt nofun hm, hstr nofun hm, hsreg nofun hm, nofun⟩
  · exact exec_segment_raises hp hl (segTranslate_denied hu hd)
  · exact segmentAddress_flat hf

/-- Settles O59: each clause compares the offsets of a descriptor's bytes with the limit. -/
theorem descriptorTableLimits : Obligations.DescriptorTableLimits := by
  refine ⟨fun t a h0 => ?_, fun t n => ?_, fun t count n hlimit => ?_⟩
  · rw [isValidByte_iff, h0]
    simp only [BitVec.toNat_ofNat]
    omega
  · simp only [descriptorInside_iff, isValidByte_iff, descriptorAddress]
    constructor
    · intro h k hk
      omega
    · intro h
      have hlast := h 7 (by omega)
      omega
  · rw [descriptorInside_iff]
    omega

/-- Settles O60: the limit of the selector's table decides, and with paging off a descriptor of the LDT is eight bytes of
memory at the cached base. -/
theorem descriptorReadOutcomes : Obligations.DescriptorReadOutcomes := by
  intro sel s hn
  have houtside : ∀ {limit : Nat}, 8 * selectorIndex sel + 7 > limit →
      ¬ descriptorInside limit (selectorIndex sel) = true := fun h => by rw [descriptorInside_iff]; omega
  refine ⟨fun hl hw => ?_, fun hl hw h => ?_, fun hl h => ?_, fun hl h hpg hr hm => ?_⟩
  · rw [readDescriptor_gdt hn hl, if_pos hw]
  · rw [readDescriptor_gdt hn hl, if_neg (by simp [hw]), if_neg (houtside h)]
    rfl
  · rw [readDescriptor_ldt hn hl, if_neg (houtside h)]
    rfl
  · rw [readDescriptor_ldt hn hl, if_pos (descriptorInside_iff.mpr h)]
    exact readDescriptorAt_paging_off hpg hr hm

end Sys2Proof.Machine

/-! ## Pseudo-descriptors and selectors stored: 41_pseudo_descriptor.md R121 to R134 -/

namespace Sys2Proof.Machine

/-! ### What a completed step keeps -/

/-- A completed step keeps the fixed fields but for EIP, which its advance alone moves. -/
theorem fixedFields_of_step_next {s t : State} (h : step s = .next t) : FixedFields { s with eip := t.eip } t := by
  obtain ⟨i, u, v, hf, he, rfl⟩ := step_eq_next.mp h
  have hx := execEnds_exec i u
  rw [he] at hx
  have hv : FixedFields s v := (walkKeeps_fetch hf).1.same.fixedFields.trans hx
  exact congrArg (fun w => { w with eip := (advance i v).eip }) hv

theorem FixedFields.tableRegisters {s t : State} (h : FixedFields s t) :
    t.gdtr = s.gdtr ∧ t.idtr = s.idtr ∧ t.ldtr = s.ldtr ∧ t.tr = s.tr ∧ t.csBase = s.csBase ∧ t.cpl = s.cpl := by
  rw [h]
  exact ⟨rfl, rfl, rfl, rfl, rfl, rfl⟩

/-! ### One store of data -/

theorem readBytes_storeData {pa n : Nat} {bs : List Byte} (hn : bs.length = n) (s : State) :
    readBytes (storeData pa bs s).mem pa n = bs := by
  subst hn
  exact readBytes_writeBytes_same s.mem pa bs

theorem memByte_storeData_other {pa n a : Nat} {bs : List Byte} (hn : bs.length = n) (s : State)
    (h : a < pa ∨ pa + n ≤ a) : memByte (storeData pa bs s).mem a = memByte s.mem a := by
  subst hn
  exact memByte_writeBytes_other bs s.mem pa a h

theorem onlyMemory_storeData (pa : Nat) (bs : List Byte) (s : State) : OnlyMemory s (storeData pa bs s) := rfl

/-! ### Stored selectors -/

/-- In a register the low half is the selector, the upper half free (R130; log 24). -/
theorem storeSelector_reg (sel : Word16) (r : Reg) (s : State) :
    ∃ t, storeSelector sel (.reg r) s = .next t ∧ (readReg t r).extractLsb' 0 16 = sel ∧
      (∀ r', r' ≠ r → readReg t r' = readReg s r') ∧ OnlyGprs s t := by
  refine ⟨_, rfl, ?_, fun r' => readReg_writeReg_other (useChoices 1 s) r r' _, rfl⟩
  rw [readReg_writeReg_same]
  exact BitVec.extractLsb'_append_eq_right

/-- With paging off the store of a selector is the store of its two bytes at the operand's linear address. -/
theorem storeSelector_mem_plain (sel : Word16) {m : Mem} {la : Word32} {s : State} (ha : OperandAddress s m 2 .write la)
    (h : PlainAccess s la.toNat 2) :
    storeSelector sel (.mem m) s = .next (storeData la.toNat (leBytes 2 sel) s) := by
  rw [storeSelector_mem, memOperand_answered ha, andThen_next, memWrite_plain (by simpa using h) (by simp),
    andThen_next]

/-- SLDT and STR store the selector of LDTR and of TR. -/
theorem exec_storeSelector {m : Mem} {i : Instr} (hi : i ∈ [Instr.sldt (.mem m), .str (.mem m)]) (s : State) :
    exec i s = storeSelector (if i = .sldt (.mem m) then s.ldtr.selector else s.tr.selector) (.mem m) s := by
  simp only [List.mem_cons, List.not_mem_nil, or_false] at hi
  rcases hi with rfl | rfl
  · rw [if_pos rfl]
    rfl
  · rw [if_neg nofun]
    rfl

/-! ### Stored pseudo-descriptors -/

/-- The six bytes of a pseudo-descriptor: the limit, then the base (R121; log 39). -/
def pseudoDescriptorBytes (d : TableReg) : List Byte := leBytes 2 d.limit ++ leBytes 4 d.base

@[simp] theorem length_pseudoDescriptorBytes (d : TableReg) : (pseudoDescriptorBytes d).length = 6 := by
  simp [pseudoDescriptorBytes]

/-- The two stores of a pseudo-descriptor, paging off, come to one store of its six bytes. -/
theorem storePseudoDescriptor_bytes {d : TableReg} {a : Nat} {s : State} (h1 : PlainAccess s a 2)
    (h2 : PlainAccess s (a + 2) 4) : storePseudoDescriptor d a s = .next (storeData a (pseudoDescriptorBytes d) s) := by
  rw [storePseudoDescriptor_plain h1 h2, pseudoDescriptorBytes, storeData_append, length_leBytes]

/-- SGDT and SIDT store the pseudo-descriptor of GDTR and of IDTR. -/
theorem exec_storePseudoDescriptor {m : Mem} {la : Word32} {s : State} (ha : OperandAddress s m 6 .write la) {i : Instr}
    (hi : i ∈ [Instr.sgdt m, .sidt m]) :
    exec i s = storePseudoDescriptor (if i = .sgdt m then s.gdtr else s.idtr) la.toNat s := by
  simp only [List.mem_cons, List.not_mem_nil, or_false] at hi
  rcases hi with rfl | rfl
  · rw [exec_sgdt, memOperand_answered ha, andThen_next, if_pos rfl]
  · rw [exec_sidt, memOperand_answered ha, andThen_next, if_neg nofun]

/-! ### The alignment check of the two stores -/

/-- In user mode with alignment checking on, a word or a doubleword faults where the address is no multiple of its size
(60_exceptions.md R256). -/
theorem alignmentFaults_checked {s : State} (hon : alignCheckOn s = true) (hcpl : s.cpl = 3) (addr : Nat) {n : Nat}
    (hn : n = 2 ∨ n = 4) : alignmentFaults addr n s = true ↔ addr % n ≠ 0 := by
  rcases hn with rfl | rfl <;> simp [alignmentFaults, misaligned, hon, hcpl]

/-- The end of a range that holds memory holds memory. -/
theorem mappedRange_drop {c : Config} {a n k : Nat} (h : mappedRange c a (n + k) = true) :
    mappedRange c (a + n) k = true := by
  simp only [mappedRange, List.all_eq_true, List.mem_range] at h ⊢
  intro j hj
  rw [Nat.add_assoc]
  exact h (n + j) (by omega)

/-- A second store whose translation leaves what the first left: memory is the old one, or the first store stands. -/
theorem SecondStoreLeaves.mem_cases {s left : State} {places : List (Nat × Nat)} {bs : List Byte}
    (h : SecondStoreLeaves s places (storePlaces places bs s) (storePlaces places bs s) left) :
    (∀ b, memByte left.mem b = memByte s.mem b) ∨ left.mem = (storePlaces places bs s).mem := by
  rcases h.outcome with ⟨hstands, -, -⟩ | ⟨hin, hout, -, -⟩ | ⟨hold, -, -⟩
  · exact .inr hstands
  · refine .inl fun b => ?_
    by_cases hb : InPlaces places b
    · exact hin b hb
    · rw [hout b hb, memByte_storePlaces_other places bs s b hb]
  · exact .inl fun b => by rw [hold]

/-- With paging off, a misaligned second store raises the alignment check fault; memory is then the old one, or the
limit word is written (R124, R125; log 18). -/
theorem storePseudoDescriptor_second_misaligned (d : TableReg) {a : Nat} {s : State} (h : PlainAccess s a 2)
    (hr : a + 6 ≤ 2 ^ 32) (hal : alignmentFaults (a + 2) 4 s = true) :
    ∃ left, storePseudoDescriptor d a s = .fault (.exception (.alignmentCheck 0#16) left) ∧ SameRegisters s left ∧
      ((∀ b, memByte left.mem b = memByte s.mem b) ∨ left.mem = (storeData a (leBytes 2 d.limit) s).mem) := by
  have h1 := h.translated (by omega) .write
  have hstored : storePlaces (blocks a 2) (leBytes 2 d.limit) s = storeData a (leBytes 2 d.limit) s := by
    simpa using storePlaces_blocks a (leBytes 2 d.limit) s
  have hsame := (h1.keeps_store (leBytes 2 d.limit)).1
  have ht := translateRange_paging_off (addr := a + 2) (n := 4) (hsame.cr0 ▸ h.pagingOff) (by omega) (by omega) .write
    (currentPriv (storePlaces (blocks a 2) (leBytes 2 d.limit) s))
  have hw := (beginsWithAccess_memWrite (bs := leBytes 4 d.base) _ (by simp)).misaligned ht
    (by rw [alignmentFaults_of_same hsame]; exact hal)
  have hleaves := secondStoreLeaves_afterSecondStoreFault h1 (walkKeeps_of_translateRange ht)
  rw [← hstored]
  exact ⟨_, by rw [storePseudoDescriptor_afterFirst h1, hw]; rfl, hleaves.same, hleaves.mem_cases⟩

/-! ### The obligations -/

/-- Settles O15: the table registers, the base of CS and CPL are among the fields no instruction writes. -/
theorem tableRegistersNeverChange : Obligations.TableRegistersNeverChange :=
  fun _ _ h => (fixedFields_of_step_next h).tableRegisters

/-- Settles O30: the instruction is one store of the six bytes. -/
theorem storePseudoDescriptorResult : Obligations.StorePseudoDescriptorResult := by
  intro m la s ha h1 h2 i hi
  have hlen := length_pseudoDescriptorBytes (if i = .sgdt m then s.gdtr else s.idtr)
  refine ⟨_, (exec_storePseudoDescriptor ha hi).trans (storePseudoDescriptor_bytes h1 h2), ?_,
    fun a => memByte_storeData_other hlen s, fun a => ?_, onlyMemory_storeData _ _ s⟩
  · rw [readBytes_storeData hlen]
    exact apply_ite pseudoDescriptorBytes _ _ _
  · rw [storeData_written, hlen, mem_markWritten]

/-- Settles O31: the instruction is one store of the selector's two bytes. -/
theorem storeSelectorToMemory : Obligations.StoreSelectorToMemory := by
  intro m la s ha h i hi
  exact ⟨_, (exec_storeSelector hi s).trans (storeSelector_mem_plain _ ha h), readBytes_storeData (by simp) s,
    fun a => memByte_storeData_other (by simp) s, onlyMemory_storeData _ _ s⟩

/-- Settles O37: the word at `a` is aligned where `a` is even, the doubleword at `a + 2` where `a` MOD 4 is 2. -/
theorem pseudoDescriptorAlignment : Obligations.PseudoDescriptorAlignment := by
  rintro m la s a ha rfl hpg hr hm hon hcpl i hi
  have hword := alignmentFaults_checked hon hcpl la.toNat (.inl rfl)
  have hdword := alignmentFaults_checked hon hcpl (la.toNat + 2) (.inr rfl)
  have hfirst (heven : la.toNat % 2 = 0) : PlainAccess s la.toNat 2 :=
    ⟨hpg, by omega, mappedRange_mono hm (by omega), Bool.eq_false_iff.mpr fun hf => hword.mp hf heven⟩
  rw [exec_storePseudoDescriptor ha hi]
  refine ⟨fun h2 => ?_, fun hodd => ?_, fun h0 => ?_⟩
  · have hsecond : PlainAccess s (la.toNat + 2) 4 :=
      ⟨hpg, by omega, mappedRange_drop (n := 2) hm, Bool.eq_false_iff.mpr fun hf => hdword.mp hf (by omega)⟩
    exact ⟨_, storePseudoDescriptor_bytes (hfirst (by omega)) hsecond⟩
  · exact (beginsWithAccess_storePseudoDescriptor _ _ s).misaligned
      (translateRange_paging_off hpg (by omega) (by omega) .write _) (hword.mpr (by omega))
  · obtain ⟨left, hfault, hsame, hmem⟩ := storePseudoDescriptor_second_misaligned
      (if i = .sgdt m then s.gdtr else s.idtr) (hfirst (by omega)) hr (hdword.mpr (by omega))
    refine ⟨left, hfault, hsame, hmem.imp_right fun hstored => ?_⟩
    rw [hstored, readBytes_storeData (length_leBytes 2 _)]
    exact ⟨congrArg (leBytes 2) (apply_ite TableReg.limit _ _ _),
      fun b => memByte_storeData_other (length_leBytes 2 _) s⟩

/-- Settles O26: `storeSelector_reg`, of the selectors of LDTR and of TR. -/
theorem storeSelectorToRegister : Obligations.StoreSelectorToRegister := fun r s =>
  ⟨storeSelector_reg s.ldtr.selector r s, storeSelector_reg s.tr.selector r s⟩

end Sys2Proof.Machine

/-! ## What a translation depends on: 42_paging_control.md R143 -/

namespace Sys2Proof.Machine

/-! ### What translation reads

Two states that differ only where translation does not look are kept so by every operation of a walk, which then ends alike in
both (R143). -/

/-- `s'` has the registers of `s` that translation reads, its TLB and its count of free values, and the same bytes at the
addresses of `agree`, among which is the whole page directory. -/
structure Alike (agree : Nat → Prop) (s s' : State) : Prop where
  cfg : s'.cfg = s.cfg
  cr0 : s'.cr0 = s.cr0
  cr3 : s'.cr3 = s.cr3
  cr4 : s'.cr4 = s.cr4
  tlb : s'.tlb = s.tlb
  choices : s'.choices = s.choices
  bytes : ∀ a, agree a → memByte s'.mem a = memByte s.mem a
  directory : ∀ k, k < 4096 → agree ((pageDirectoryBase s.cr3).toNat + k)

/-- The bytes of the page-table entry that a walk of `la` reads, where it reads one, are among the addresses of `agree`. -/
def CoversPageTableEntry (agree : Nat → Prop) (s : State) (la : Word32) : Prop :=
  ∀ pde, pde = entryAt s (pdeAddress s.cr3 la).toNat → pFlag pde = true → mapsLargePage s pde = false →
    ∀ k, k < 4 → agree ((pteAddress pde la).toNat + k)

/-- Two outcomes of the same kind, with the same answer, exception or refusal, and states that are alike. -/
inductive AlikeOutcomes (agree : Nat → Prop) {α : Type} : Result α → Result α → Prop
  | next (a : α) {t t' : State} (h : Alike agree t t') : AlikeOutcomes agree (.next (a, t)) (.next (a, t'))
  | exception (e : Exception) {t t' : State} (h : Alike agree t t') :
    AlikeOutcomes agree (.fault (.exception e t)) (.fault (.exception e t'))
  | deadlock {t t' : State} (h : Alike agree t t') :
    AlikeOutcomes agree (.fault (.aliasingDeadlock t)) (.fault (.aliasingDeadlock t'))
  | refused (why : Refusal) : AlikeOutcomes agree (.refused why) (.refused why)

/-- The page-directory entry a linear address selects is a slot of the directory. -/
theorem pdeAddress_toNat (s : State) (la : Word32) :
    (pdeAddress s.cr3 la).toNat = directorySlot s (directoryIndex la).toNat := by
  have hi := (directoryIndex la).isLt
  simp only [pdeAddress, directorySlot, pageDirectoryBase, BitVec.toNat_append, BitVec.toNat_ofNat, Nat.zero_mod,
    Nat.or_zero]
  rw [← Nat.shiftLeft_add_eq_or_of_lt hi]
  simp only [Nat.shiftLeft_eq]
  omega

theorem entryAt_congr {s s' : State} {pa : Nat} (h : ∀ k, k < 4 → memByte s'.mem (pa + k) = memByte s.mem (pa + k)) :
    entryAt s' pa = entryAt s pa :=
  congrArg leWord32 (readBytes_congr s.mem s'.mem pa 4 h)

section
variable {agree : Nat → Prop} {s s' : State} (h : Alike agree s s')

/-! ### Inversion -/

theorem AlikeOutcomes.of_next {α : Type} {a : α} {o : Result α} (ho : AlikeOutcomes agree (.next (a, s)) o) :
    ∃ t', o = .next (a, t') ∧ Alike agree s t' := by
  cases ho with
  | next _ ht => exact ⟨_, rfl, ht⟩

theorem AlikeOutcomes.of_exception {α : Type} {e : Exception} {o : Result α}
    (ho : AlikeOutcomes agree (.fault (.exception e s)) o) : ∃ t', o = .fault (.exception e t') ∧ Alike agree s t' := by
  cases ho with
  | exception _ ht => exact ⟨_, rfl, ht⟩

theorem AlikeOutcomes.of_deadlock {α : Type} {o : Result α} (ho : AlikeOutcomes agree (.fault (.aliasingDeadlock s)) o) :
    ∃ t', o = .fault (.aliasingDeadlock t') ∧ Alike agree s t' := by
  cases ho with
  | deadlock ht => exact ⟨_, rfl, ht⟩

theorem AlikeOutcomes.of_refused {α : Type} {why : Refusal} {o : Result α}
    (ho : AlikeOutcomes agree (.refused why) o) : o = .refused why := by
  cases ho with
  | refused _ => rfl

/-! ### Sequences -/

/-- What alike first operations are followed by runs from alike states. -/
theorem alike_andThen {α β : Type} {r r' : Result α} {f f' : α → State → Result β} (hr : AlikeOutcomes agree r r')
    (hf : ∀ a t t', r = .next (a, t) → Alike agree t t' → AlikeOutcomes agree (f a t) (f' a t')) :
    AlikeOutcomes agree (andThen r f) (andThen r' f') := by
  cases hr with
  | next a ht => exact hf a _ _ rfl ht
  | exception e ht => exact .exception e ht
  | deadlock ht => exact .deadlock ht
  | refused why => exact .refused why

/-! ### What is read -/

include h

theorem Alike.entryAt {pa : Nat} (hpa : ∀ k, k < 4 → agree (pa + k)) : Machine.entryAt s' pa = Machine.entryAt s pa :=
  entryAt_congr fun k hk => h.bytes _ (hpa k hk)

theorem Alike.mapsLargePage (pde : Word32) : Machine.mapsLargePage s' pde = Machine.mapsLargePage s pde := by
  unfold Machine.mapsLargePage
  rw [h.cr4]

theorem Alike.directorySlot (j : Nat) : Machine.directorySlot s' j = Machine.directorySlot s j := by
  unfold Machine.directorySlot
  rw [h.cr3]

theorem Alike.agree_directorySlot {j : Nat} (hj : j < 1024) : ∀ k, k < 4 → agree (Machine.directorySlot s j + k) := by
  intro k hk
  have hd := h.directory (4 * j + k) (by omega)
  rwa [← Nat.add_assoc] at hd

/-- The entries of the directory are the same. -/
theorem Alike.directoryEntry {j : Nat} (hj : j < 1024) :
    Machine.entryAt s' (Machine.directorySlot s' j) = Machine.entryAt s (Machine.directorySlot s j) := by
  rw [h.directorySlot]
  exact h.entryAt (h.agree_directorySlot hj)

theorem Alike.pointsToTable {j : Nat} (hj : j < 1024) : Machine.pointsToTable s' j = Machine.pointsToTable s j := by
  have hbyte : memByte s'.mem (Machine.directorySlot s j) = memByte s.mem (Machine.directorySlot s j) :=
    h.bytes _ (h.agree_directorySlot hj 0 (by omega))
  unfold Machine.pointsToTable
  rw [h.directoryEntry hj, h.directorySlot, h.mapsLargePage, h.cfg, hbyte]

/-- The doubled entries of R189 are sought in the directory alone. -/
theorem Alike.doubledEntryDiffers {i : Nat} (hi : i < 1024) :
    Machine.doubledEntryDiffers s' i = Machine.doubledEntryDiffers s i := by
  unfold Machine.doubledEntryDiffers
  rw [h.pointsToTable hi, h.directoryEntry hi]
  refine congrArg (Machine.pointsToTable s i && ·) (Bool.eq_iff_iff.mpr ?_)
  simp only [List.any_eq_true]
  refine exists_congr fun j => and_congr_right fun hj => ?_
  rw [h.pointsToTable (List.mem_range.mp hj), h.directoryEntry (List.mem_range.mp hj)]

omit h in
theorem alike_differedAt (la : Word32) {moments moments' : List State}
    (hm : List.Forall₂ (Alike agree) moments moments') : differedAt la moments' = differedAt la moments := by
  induction hm with
  | nil => rfl
  | cons ht _ ih =>
    have hd := ht.doubledEntryDiffers (directoryIndex la).isLt
    unfold differedAt at ih ⊢
    rw [List.any_cons, List.any_cons, hd, ih]

/-- An entry read is the same, and is the entry in memory. -/
theorem alike_readEntry {addr : Word32} (ha : ∀ k, k < 4 → agree (addr.toNat + k)) :
    AlikeOutcomes agree (readEntry addr s) (readEntry addr s') := by
  rw [readEntry_eq, readEntry_eq, h.cfg, h.entryAt ha]
  split
  · exact .next _ h
  · exact .refused _

/-! ### What is written -/

theorem Alike.useChoices (n : Nat) : Alike agree (useChoices n s) (useChoices n s') :=
  { h with choices := congrArg (· + n) h.choices }

/-- The same bytes written leave the same bytes where they were the same. -/
theorem Alike.writeMem (pa : Nat) (bs : List Byte) :
    Alike agree { s with mem := writeBytes s.mem pa bs } { s' with mem := writeBytes s'.mem pa bs } :=
  { h with bytes := fun a ha => by simp only [memByte_writeBytes, h.bytes a ha] }

theorem Alike.writeBack (addr e e' : Word32) : Alike agree (writeBack addr e e' s) (writeBack addr e e' s') := by
  unfold Machine.writeBack
  split
  · exact h
  · exact h.writeMem addr.toNat (leBytes 4 e')

theorem Alike.maybeSetA (addr e : Word32) : Alike agree (maybeSetA addr e s) (maybeSetA addr e s') := by
  unfold Machine.maybeSetA
  rw [h.choices]
  cases Config.freeBool s.choices
  · exact { h with choices := rfl }
  · exact { h.writeMem addr.toNat (leBytes 4 (setA e)) with choices := rfl }

theorem Alike.maybeFill (e : TlbEntry) : Alike agree (maybeFill e s) (maybeFill e s') := by
  unfold Machine.maybeFill
  rw [h.choices, h.tlb]
  exact { h with tlb := rfl, choices := rfl }

/-! ### The walk -/

theorem alike_orDeadlock {α : Type} (differed : Bool) {normal normal' : State → Result α}
    (hn : ∀ u u', Alike agree u u' → AlikeOutcomes agree (normal u) (normal' u')) :
    AlikeOutcomes agree (orDeadlock differed s normal) (orDeadlock differed s' normal') := by
  unfold orDeadlock
  rw [h.choices]
  cases differed
  · exact hn s s' h
  · cases Config.freeBool s.choices
    · exact hn _ _ (h.useChoices 1)
    · exact .deadlock (h.useChoices 1)

theorem alike_reservedFault {α : Type} (la : Word32) (acc : AccessKind) (priv : Priv) :
    AlikeOutcomes (α := α) agree (reservedFault la acc priv s) (reservedFault la acc priv s') := by
  unfold reservedFault
  rw [h.cr4]
  split
  · exact .exception _ h
  · exact .refused _

theorem alike_walkLarge (la : Word32) (acc : AccessKind) (priv : Priv) (pdeAddr pde : Word32) :
    AlikeOutcomes agree (walkLarge la acc priv pdeAddr pde s) (walkLarge la acc priv pdeAddr pde s') := by
  unfold walkLarge
  rw [h.cfg, h.cr0]
  split
  · exact alike_reservedFault h la acc priv
  split
  · exact .exception _ (h.maybeSetA pdeAddr pde)
  · exact .next _ ((h.writeBack pdeAddr pde _).maybeFill _)

theorem alike_finishTableWalk (la : Word32) (acc : AccessKind) (pdeAddr pde pteAddr pte : Word32) :
    AlikeOutcomes agree (finishTableWalk la acc pdeAddr pde pteAddr pte s)
      (finishTableWalk la acc pdeAddr pde pteAddr pte s') := by
  have h1 := h.writeBack pdeAddr pde (setA pde)
  have h2 := h1.writeBack pteAddr pte (setDOnWrite acc (setA pte))
  unfold finishTableWalk
  simp only [alike_differedAt la (.cons h (.cons h1 (.cons h2 .nil)))]
  exact alike_orDeadlock h2 _ fun _ _ hu => .next _ (hu.maybeFill _)

omit h in
theorem alike_raiseInTableWalk (la : Word32) (acc : AccessKind) (priv : Priv) (cause : PageFaultCause)
    {before before' : List State} {after after' : State} (hb : List.Forall₂ (Alike agree) before before')
    (ha : Alike agree after after') :
    AlikeOutcomes agree (raiseInTableWalk la acc priv cause before after)
      (raiseInTableWalk la acc priv cause before' after') := by
  unfold raiseInTableWalk
  rw [alike_differedAt la (List.rel_append hb (.cons ha .nil))]
  exact alike_orDeadlock ha _ fun _ _ hu => .exception _ hu

theorem alike_walkTable (la : Word32) (acc : AccessKind) (priv : Priv) (pdeAddr pde : Word32)
    (hpte : ∀ k, k < 4 → agree ((pteAddress pde la).toNat + k)) :
    AlikeOutcomes agree (walkTable la acc priv pdeAddr pde s) (walkTable la acc priv pdeAddr pde s') := by
  unfold walkTable
  rw [h.cfg]
  split
  · exact alike_reservedFault h la acc priv
  · refine alike_andThen (alike_readEntry h hpte) fun pte t t' _ ht => ?_
    have hA := ht.maybeSetA pdeAddr pde
    rw [ht.cfg, ht.cr0]
    split
    · exact alike_raiseInTableWalk la acc priv _ (.cons ht .nil) hA
    split
    · exact alike_reservedFault hA la acc priv
    split
    · exact alike_raiseInTableWalk la acc priv _ (.cons ht (.cons hA .nil)) (hA.maybeSetA _ pte)
    · exact alike_finishTableWalk ht la acc pdeAddr pde _ pte

/-- A walk reads the directory and, where its entry points to a page table, the page-table entry. -/
theorem alike_walk (la : Word32) (acc : AccessKind) (priv : Priv) (hpte : CoversPageTableEntry agree s la) :
    AlikeOutcomes agree (walk la acc priv s) (walk la acc priv s') := by
  unfold walk
  rw [h.cr3]
  have hpde : ∀ k, k < 4 → agree ((pdeAddress s.cr3 la).toNat + k) := by
    rw [pdeAddress_toNat]
    exact h.agree_directorySlot (directoryIndex la).isLt
  refine alike_andThen (alike_readEntry h hpde) fun pde t t' ht hs => ?_
  obtain ⟨-, hentry, rfl⟩ := readEntry_eq_next.mp ht
  rw [hs.mapsLargePage]
  split
  · exact .exception _ hs
  · rename_i hp
    split
    · exact alike_walkLarge hs la acc priv _ pde
    · rename_i hl
      exact alike_walkTable hs la acc priv _ pde (hpte pde hentry (by simpa using hp) (by simpa using hl))

/-! ### The translation -/

theorem alike_translateByTlb (e : TlbEntry) (la : Word32) (acc : AccessKind) (priv : Priv) :
    AlikeOutcomes agree (translateByTlb e la acc priv s) (translateByTlb e la acc priv s') := by
  unfold translateByTlb
  rw [h.cfg, h.cr0]
  split
  · exact .next _ h
  · exact .exception _ h

theorem alike_translatePaged (la : Word32) (acc : AccessKind) (priv : Priv) (hpte : CoversPageTableEntry agree s la) :
    AlikeOutcomes agree (translatePaged la acc priv s) (translatePaged la acc priv s') := by
  have hu := h.useChoices (tlbCandidates la acc s.tlb).length
  rcases hit : pickHit (tlbCandidates la acc s.tlb) s.choices with _ | e
  · simp only [translatePaged, h.tlb, h.choices, hit]
    exact alike_walk hu la acc priv hpte
  · simp only [translatePaged, h.tlb, h.choices, hit]
    exact alike_translateByTlb hu e la acc priv

theorem alike_translate (la : Word32) (acc : AccessKind) (priv : Priv) (hpte : CoversPageTableEntry agree s la) :
    AlikeOutcomes agree (translate la acc priv s) (translate la acc priv s') := by
  unfold translate
  rw [h.cr0, h.cr4]
  split
  · exact .next _ h
  split
  · exact .refused _
  · exact alike_translatePaged h la acc priv hpte

end

/-- Settles O53: with `agree` the bytes in which the two states agree, they are alike, and translation ends alike in both. -/
theorem translationInputs : Obligations.TranslationInputs := by
  rintro la acc priv s s' pde hcfg hcr0 hcr3 hcr4 htlb hchoices rfl hdir hpte
  have hs : Alike (fun a => memByte s'.mem a = memByte s.mem a) s s' :=
    ⟨hcfg, hcr0, hcr3, hcr4, htlb, hchoices, fun _ ha => ha, hdir⟩
  have ho := alike_translate hs la acc priv fun pde he hp hl k hk => by
    subst he
    rw [memByte_of_entryAt s' _ k hk, memByte_of_entryAt s _ k hk, hpte hp hl]
  refine ⟨fun pa t h => ?_, fun x t h => ?_, fun t h => ?_, fun why h => ?_⟩ <;> rw [h] at ho
  · obtain ⟨t', ht', ha⟩ := ho.of_next
    exact ⟨t', ht', ha.tlb, ha.choices, ha.bytes⟩
  · obtain ⟨t', ht', ha⟩ := ho.of_exception
    exact ⟨t', ht', ha.tlb, ha.bytes⟩
  · obtain ⟨t', ht', ha⟩ := ho.of_deadlock
    exact ⟨t', ht', ha.tlb, ha.bytes⟩
  · exact ho.of_refused

end Sys2Proof.Machine

/-! ## Control registers, INVLPG and CPUID of 42_paging_control.md R150 to R162 -/

namespace Sys2Proof.Machine

/-! ### The privilege check -/

theorem requireLevel0_inside {α : Type} {s : State} (h : s.cpl = 0) (k : Host.Outcome α Fault Refusal) :
    requireLevel0 s k = k := if_pos h

theorem requireLevel0_outside {α : Type} {s : State} (h : s.cpl ≠ 0) (k : Host.Outcome α Fault Refusal) :
    requireLevel0 s k = .fault (.exception (.generalProtection 0#16) s) := if_neg h

/-- The privileged instructions begin with the check of the level (R150 to R154, log 22). -/
theorem exec_beginsWithLevel {r : Reg} {m : Mem} {i : Instr}
    (hi : i ∈ [Instr.movCr0FromReg r, .movRegFromCr0 r, .movCr3FromReg r, .movRegFromCr3 r, .movCr4FromReg r,
      .movRegFromCr4 r, .invlpg m]) (s : State) : ∃ k, exec i s = requireLevel0 s k := by
  simp only [List.mem_cons, List.not_mem_nil, or_false] at hi
  rcases hi with rfl | rfl | rfl | rfl | rfl | rfl | rfl
  · exact ⟨writeCr0 (readReg s r) s, rfl⟩
  · exact ⟨.next (writeReg r s.cr0 s), rfl⟩
  · exact ⟨.next (loadCr3 (readReg s r) s), rfl⟩
  · exact ⟨.next (writeReg r s.cr3 s), rfl⟩
  · exact ⟨writeCr4 (readReg s r) s, rfl⟩
  · exact ⟨.next (writeReg r s.cr4 s), rfl⟩
  · exact ⟨andThen (memOperand m 1 .none s) fun la t => .next (flushPage la t), rfl⟩

/-! ### Control registers read and loaded -/

/-- A general register written behind the check of the level. -/
theorem requireLevel0_writeReg {s : State} (h : s.cpl = 0) (r : Reg) (v : Word32) :
    ∃ t, requireLevel0 s (.next (writeReg r v s)) = .next t ∧ readReg t r = v ∧
      (∀ r', r' ≠ r → readReg t r' = readReg s r') ∧ t = { s with gprs := t.gprs } :=
  ⟨_, requireLevel0_inside h _, readReg_writeReg_same s r v, fun r' => readReg_writeReg_other s r r' v, rfl⟩

theorem exec_movCr0FromReg_level0 (r : Reg) {s : State} (h : s.cpl = 0) :
    exec (.movCr0FromReg r) s = writeCr0 (readReg s r) s := requireLevel0_inside h _

theorem exec_movCr3FromReg_level0 (r : Reg) {s : State} (h : s.cpl = 0) :
    exec (.movCr3FromReg r) s = .next (loadCr3 (readReg s r) s) := requireLevel0_inside h _

theorem exec_movCr4FromReg_level0 (r : Reg) {s : State} (h : s.cpl = 0) :
    exec (.movCr4FromReg r) s = writeCr4 (readReg s r) s := requireLevel0_inside h _

/-- Of the TLB a load of CR3 keeps only global entries, and only under PGE (20_memory.md R67). -/
theorem mem_loadCr3_tlb {v : Word32} {s : State} {e : TlbEntry} (h : e ∈ (loadCr3 v s).tlb) :
    e ∈ s.tlb ∧ pgeFlag s.cr4 = true ∧ tlbGlobal e = true := by
  have hkept := (anySubset_sublist _ _).subset h
  simpa using hkept

theorem writeCr0_refused {v : Word32} {s : State} (hpg : pgFlag v = true) (hpae : paeFlag s.cr4 = true) :
    writeCr0 v s = .refused .paeTranslation := if_pos (by simp [hpg, hpae])

theorem writeCr4_absent {v : Word32} {s : State} (h : cr4FeatureMissing s.cfg v = true) :
    writeCr4 v s = .refused .cr4FeatureAbsent := if_pos h

theorem writeCr4_refused {v : Word32} {s : State} (h : cr4FeatureMissing s.cfg v = false) (hpg : pgFlag s.cr0 = true)
    (hpae : paeFlag v = true) : writeCr4 v s = .refused .paeTranslation := by
  unfold writeCr4
  rw [if_neg (by simp [h]), if_pos (by simp [hpg, hpae])]

/-- `t` is `s` with a part of its TLB, chosen by free values. -/
structure TlbReduced (s t : State) : Prop where
  sublist : t.tlb.Sublist s.tlb
  frame : t = { s with tlb := t.tlb, choices := t.choices }

theorem TlbReduced.refl (s : State) : TlbReduced s s := ⟨List.Sublist.refl _, rfl⟩

theorem tlbReduced_dropAny (s : State) : TlbReduced s (dropAny s) := ⟨anySubset_sublist _ _, rfl⟩

theorem tlbReduced_tlbAfterCr4 (old : Word32) (s : State) : TlbReduced s (tlbAfterCr4 old s) := by
  rcases tlbAfterCr4_cases old s with hc | hc <;> rw [hc]
  · exact .refl s
  · exact tlbReduced_dropAny s

/-- CR4 changed in no flag of paging, or in PSE alone on a processor of the Pentium NOTE, flushes nothing (R153). -/
theorem tlbAfterCr4_unchanged {old : Word32} {s : State} (hpae : paeFlag s.cr4 = paeFlag old)
    (hpge : pgeFlag s.cr4 = pgeFlag old) (hpse : pseFlag s.cr4 = pseFlag old ∨ s.cfg.pentiumOnlyPseFlush = true) :
    tlbAfterCr4 old s = s := by
  unfold tlbAfterCr4
  rw [if_neg (by simp [hpae, hpge])]
  rcases hpse with hpse | hnote
  · rw [if_neg (by simp [hpse])]
  · rw [if_neg (by simp [hnote])]

/-! ### CPUID -/

theorem exec_cpuid (s : State) :
    exec .cpuid s = .next { s with gprs := { s.gprs with
      eax := (cpuidResult s.cfg s.gprs.eax).eax
      ebx := (cpuidResult s.cfg s.gprs.eax).ebx
      ecx := (cpuidResult s.cfg s.gprs.eax).ecx
      edx := (cpuidResult s.cfg s.gprs.eax).edx } } := rfl

/-- Bit 17 of the feature word is the PSE-36 flag (R160). -/
theorem featureWord_pse36 (c : Config) (other : Word32) : (featureWord c other).getLsbD 17 = c.hasPse36 := by
  unfold featureWord
  cases c.hasPse36 <;> cases c.hasPae <;> simp

/-- Bit 6 of the feature word is the PAE flag (R161). -/
theorem featureWord_pae (c : Config) (other : Word32) : (featureWord c other).getLsbD 6 = c.hasPae := by
  unfold featureWord
  cases c.hasPse36 <;> cases c.hasPae <;> simp

/-- Source operand 1 answers the feature word in EDX. -/
theorem cpuidResult_features (c : Config) :
    (cpuidResult c 1#32).edx = featureWord c (Config.cpuidLeaf 1#32).edx := rfl

/-! ### The obligations -/

/-- Settles O19: each is a write of its register behind the check of the level. -/
theorem readControlRegisterResult : Obligations.ReadControlRegisterResult := fun r s h =>
  ⟨requireLevel0_writeReg h r s.cr0, requireLevel0_writeReg h r s.cr3, requireLevel0_writeReg h r s.cr4⟩

/-- Settles O20: the instruction is a load of CR3. -/
theorem loadCr3Result : Obligations.LoadCr3Result := fun r _ h =>
  ⟨_, exec_movCr3FromReg_level0 r h, rfl, rfl, fun _ => mem_loadCr3_tlb, rfl⟩

/-- Settles O21: the TLB is reduced only where PG changes. -/
theorem loadCr0Result : Obligations.LoadCr0Result := by
  intro r s h
  rw [exec_movCr0FromReg_level0 r h]
  refine ⟨writeCr0_refused, fun hok => ⟨_, writeCr0_eq_next.mpr ⟨Bool.and_eq_false_iff.mpr hok, rfl⟩, ?_⟩⟩
  split
  · rename_i hchange
    exact ⟨rfl, anySubset_sublist _ _, fun hsame => by simp [hsame] at hchange, rfl⟩
  · exact ⟨rfl, List.Sublist.refl _, fun _ => rfl, rfl⟩

/-- Settles O22: the two refusals come first, and the TLB is reduced as `tlbAfterCr4` says. -/
theorem loadCr4Result : Obligations.LoadCr4Result := by
  intro r s h
  rw [exec_movCr4FromReg_level0 r h]
  refine ⟨writeCr4_absent, writeCr4_refused, fun hf hok => ?_⟩
  have hr := tlbReduced_tlbAfterCr4 s.cr4 { s with cr4 := readReg s r }
  have hcr4 : (tlbAfterCr4 s.cr4 { s with cr4 := readReg s r }).cr4 = readReg s r := by rw [hr.frame]
  refine ⟨_, writeCr4_eq_next.mpr ⟨hf, Bool.and_eq_false_iff.mpr hok, rfl⟩, hcr4, hr.sublist,
    fun hpae hpge hpse => ?_, ?_⟩
  · rw [tlbAfterCr4_unchanged (s := { s with cr4 := readReg s r }) hpae hpge hpse]
  · rw [hcr4]
    exact hr.frame

/-- Settles O23: the check of the level fails before anything else is done. -/
theorem privilegedInstructionsFault : Obligations.PrivilegedInstructionsFault := by
  intro r m s h i hi
  obtain ⟨k, hk⟩ := exec_beginsWithLevel hi s
  rw [hk, requireLevel0_outside h]

/-- Settles O24: what is left is the filter of the TLB by the page. -/
theorem invlpgResult : Obligations.InvlpgResult := by
  intro m la s h ha
  have hx : exec (.invlpg m) s = .next (flushPage la s) := by
    rw [exec_invlpg_level0 m h, memOperand_answered ha, andThen_next]
  exact ⟨_, hx, fun e => by simp, rfl⟩

/-- Settles O25: the results are a function of configuration and EAX, and the feature word has the two flags. (`cpuidResult`
is the model's function.) -/
theorem cpuidResultHolds : Obligations.CpuidResult := by
  intro s
  refine ⟨_, exec_cpuid s, rfl, rfl, rfl, rfl, rfl, fun h1 => ?_, fun s' t' hcfg heax hx => ?_⟩
  · simp only [h1, cpuidResult_features, featureWord_pse36, featureWord_pae, iff_self, and_self]
  · obtain rfl := Host.Outcome.next.inj ((exec_cpuid s').symm.trans hx)
    simp only [hcfg, heax, and_self]

/-- Settles O58: each row fixes the conditions that `pageMode` looks at, whatever the cells marked X hold. -/
theorem pagingModeTable : Obligations.PagingModeTable := fun _ _ _ _ => ⟨rfl, rfl, rfl, rfl, rfl, rfl, rfl⟩

end Sys2Proof.Machine

/-! ## Translation of 43_translation_32bit.md R170 to R190: the walk, its A and D updates, and the doubled entries of R189 -/

namespace Sys2Proof.Machine

/-! ### Paging entries as doublewords at multiples of four -/

theorem toNat_append_zero_mod_four {w : Nat} (x : BitVec w) : (x ++ 0#2).toNat % 4 = 0 := by
  rw [BitVec.toNat_append, Nat.shiftLeft_eq]
  simp

theorem pdeAddress_mod_four (cr3 la : Word32) : (pdeAddress cr3 la).toNat % 4 = 0 := toNat_append_zero_mod_four _

theorem pteAddress_mod_four (pde la : Word32) : (pteAddress pde la).toNat % 4 = 0 := toNat_append_zero_mod_four _

theorem directorySlot_mod_four (s : State) (j : Nat) : directorySlot s j % 4 = 0 := by
  have hbase : (pageDirectoryBase s.cr3).toNat % 4 = 0 := by
    rw [pageDirectoryBase, BitVec.toNat_append, Nat.shiftLeft_eq]
    simp only [BitVec.toNat_ofNat, Nat.zero_mod, Nat.or_zero]
    omega
  unfold directorySlot
  omega

/-- What is read after an entry was written: the new entry there, the old one at every other multiple of four. -/
theorem entryAt_of_written {s t : State} {pa pa' : Nat} {e : Word32} (hm : t.mem = writeBytes s.mem pa (leBytes 4 e))
    (hpa : pa % 4 = 0) (hpa' : pa' % 4 = 0) : entryAt t pa' = if pa' = pa then e else entryAt s pa' := by
  split
  · rename_i h
    subst h
    have hread := readBytes_writeBytes_same s.mem pa' (leBytes 4 e)
    rw [length_leBytes] at hread
    rw [entryAt, hm, hread, leWord32_leBytes]
  · refine entryAt_congr fun k hk => ?_
    rw [hm]
    refine memByte_writeBytes_other _ _ _ _ ?_
    rw [length_leBytes]
    omega

/-- A write-back leaves the new entry, whether or not it had to write: `e` need be the entry in memory only where it is
kept (R182). -/
theorem entryAt_writeBack {s : State} {addr e e' : Word32} {pa : Nat} (haddr : addr.toNat % 4 = 0) (hpa : pa % 4 = 0)
    (he : e' = e → entryAt s addr.toNat = e) :
    entryAt (writeBack addr e e' s) pa = if pa = addr.toNat then e' else entryAt s pa := by
  unfold writeBack
  split
  · rename_i h
    split
    · rename_i hpa'
      rw [hpa', he h, h]
    · rfl
  · exact entryAt_of_written (writeEntry_mem s _ _) haddr hpa

theorem memByte_writeBack_other {s : State} {addr e e' : Word32} {a : Nat}
    (h : a < addr.toNat ∨ addr.toNat + 4 ≤ a) : memByte (writeBack addr e e' s).mem a = memByte s.mem a := by
  unfold writeBack
  split
  · rfl
  · exact memByte_writeBytes_other _ _ _ _ (by rwa [length_leBytes])

@[simp] theorem writeBack_same (addr e : Word32) (s : State) : writeBack addr e e s = s := if_pos rfl

@[simp] theorem entryAt_maybeFill (e : TlbEntry) (s : State) (pa : Nat) : entryAt (maybeFill e s) pa = entryAt s pa := rfl

theorem maybeFill_tlb_cases (e : TlbEntry) (s : State) :
    (maybeFill e s).tlb = s.tlb ∨ (maybeFill e s).tlb = insertNew e s.tlb := by
  rw [maybeFill_tlb]
  cases Config.freeBool s.choices
  · exact .inl rfl
  · exact .inr rfl

theorem maybeSetA_mem_cases (addr e : Word32) (s : State) :
    (maybeSetA addr e s).mem = s.mem ∨ (maybeSetA addr e s).mem = writeBytes s.mem addr.toNat (leBytes 4 (setA e)) := by
  rw [maybeSetA_mem]
  cases Config.freeBool s.choices
  · exact .inl rfl
  · exact .inr rfl

/-! ### The flags A and D of an entry -/

@[simp] theorem dFlag_setA (e : Word32) : dFlag (setA e) = dFlag e := by
  simp [dFlag, setA]

theorem dFlag_setD_write {acc : AccessKind} (h : acc = .write) (e : Word32) : dFlag (setDOnWrite acc e) = true := by
  simp [dFlag, setDOnWrite, h]

theorem getLsbD_setA (e : Word32) (i : Nat) : (setA e).getLsbD i = (e.getLsbD i || decide (i = 5)) := by
  rw [setA, show (0x20#32 : Word32) = BitVec.twoPow 32 5 from rfl, BitVec.getLsbD_or, BitVec.getLsbD_twoPow]
  simp [eq_comm]

theorem getLsbD_setD (acc : AccessKind) (e : Word32) (i : Nat) :
    (setDOnWrite acc e).getLsbD i = (e.getLsbD i || decide (acc = .write ∧ i = 6)) := by
  unfold setDOnWrite
  split
  · rename_i h
    rw [show (0x40#32 : Word32) = BitVec.twoPow 32 6 from rfl, BitVec.getLsbD_or, BitVec.getLsbD_twoPow]
    simp [h, eq_comm]
  · rename_i h
    simp [h]

/-- An entry whose A flag is set is as it was. -/
theorem setA_of_accessed {e : Word32} (h : aFlag e = true) : setA e = e := by
  refine BitVec.eq_of_getLsbD_eq fun i _ => ?_
  rw [getLsbD_setA]
  by_cases hi : i = 5
  · rw [hi, show e.getLsbD 5 = true from h, Bool.true_or]
  · simp [hi]

/-- An entry whose A flag, and D flag for a write, is set is as it was. -/
theorem setDA_of_flags {acc : AccessKind} {e : Word32} (ha : aFlag e = true) (hd : acc = .write → dFlag e = true) :
    setDOnWrite acc (setA e) = e := by
  rw [setA_of_accessed ha]
  refine BitVec.eq_of_getLsbD_eq fun i _ => ?_
  rw [getLsbD_setD]
  by_cases hi : acc = .write ∧ i = 6
  · rw [hi.2, show e.getLsbD 6 = true from hd hi.1, Bool.true_or]
  · simp [hi]

/-- A final entry that a walk leaves as it was had its A flag set. -/
theorem setA_of_setDA_eq {acc : AccessKind} {e : Word32} (h : setDOnWrite acc (setA e) = e) : setA e = e :=
  setA_of_accessed (by rw [← h, aFlag_setD, aFlag_setA])

/-- Two entries that differ at most in bits 6:5, A and D. -/
def SameButAD (e e' : Word32) : Prop := ∀ i, i ≠ 5 → i ≠ 6 → e'.getLsbD i = e.getLsbD i

theorem sameButAD_setA (e : Word32) : SameButAD e (setA e) := by
  intro i h5 _
  simp [getLsbD_setA, h5]

theorem sameButAD_setDA (acc : AccessKind) (e : Word32) : SameButAD e (setDOnWrite acc (setA e)) := by
  intro i h5 h6
  simp [getLsbD_setA, getLsbD_setD, h5, h6]

theorem SameButAD.base {e e' : Word32} (h : SameButAD e e') : e'.extractLsb' 12 20 = e.extractLsb' 12 20 := by
  refine BitVec.eq_of_getLsbD_eq fun i hi => ?_
  rw [BitVec.getLsbD_extractLsb', BitVec.getLsbD_extractLsb', h (12 + i) (by omega) (by omega)]

/-! ### States with the same paging entries, but for A and D or altogether -/

/-- `t` has the configuration, CR3 and CR4 of `s`, and an entry related by `R` to that of `s` at every multiple of four. -/
structure TablesRelated (R : Word32 → Word32 → Prop) (s t : State) : Prop where
  cfg : t.cfg = s.cfg
  cr3 : t.cr3 = s.cr3
  cr4 : t.cr4 = s.cr4
  entries : ∀ pa, pa % 4 = 0 → R (entryAt s pa) (entryAt t pa)

/-- The paging entries, and what else tells which of them are doubles, are those of `s` up to A and D. -/
abbrev SameTablesButAD (s t : State) : Prop := TablesRelated SameButAD s t

/-- The paging entries are those of `s`. -/
abbrev SameTables (s t : State) : Prop := TablesRelated Eq s t

theorem SameTables.symm {s t : State} (h : SameTables s t) : SameTables t s :=
  ⟨h.cfg.symm, h.cr3.symm, h.cr4.symm, fun pa hpa => (h.entries pa hpa).symm⟩

theorem SameTables.butAD {s t : State} (h : SameTables s t) : SameTablesButAD s t :=
  ⟨h.cfg, h.cr3, h.cr4, fun pa hpa i _ _ => congrArg (·.getLsbD i) (h.entries pa hpa).symm⟩

theorem SameTablesButAD.refl (s : State) : SameTablesButAD s s := ⟨rfl, rfl, rfl, fun _ _ _ _ _ => rfl⟩

/-- A state with the registers of `s`, against `s` with its memory. -/
theorem SameRegisters.sameTables {s t : State} (h : SameRegisters s t) : SameTables { s with mem := t.mem } t :=
  ⟨h.cfg, h.cr3, h.cr4, fun _ _ => rfl⟩

/-- An entry of `s` written, with A and D changed, over memory that differs from that of `s` in A and D. -/
theorem SameTablesButAD.write {s : State} {m : Memory} (h : SameTablesButAD s { s with mem := m }) {pa : Nat} {e' : Word32}
    (hpa : pa % 4 = 0) (he : SameButAD (entryAt s pa) e') :
    SameTablesButAD s { s with mem := writeBytes m pa (leBytes 4 e') } := by
  refine ⟨rfl, rfl, rfl, fun pa' hpa' => ?_⟩
  have hread := entryAt_of_written (s := { s with mem := m })
    (t := { s with mem := writeBytes m pa (leBytes 4 e') }) rfl hpa hpa'
  rw [hread]
  split
  · rename_i heq
    exact heq ▸ he
  · exact h.entries pa' hpa'

theorem TablesRelated.directorySlot {R : Word32 → Word32 → Prop} {s t : State} (h : TablesRelated R s t) (j : Nat) :
    Machine.directorySlot t j = Machine.directorySlot s j := by
  unfold Machine.directorySlot
  rw [h.cr3]

theorem TablesRelated.directoryEntry {R : Word32 → Word32 → Prop} {s t : State} (h : TablesRelated R s t) (j : Nat) :
    R (entryAt s (Machine.directorySlot s j)) (entryAt t (Machine.directorySlot t j)) := by
  rw [h.directorySlot]
  exact h.entries _ (directorySlot_mod_four s j)

/-- The byte that `pointsToTable` looks at holds the P flag of the entry. -/
theorem pointsToTable_eq (s : State) (j : Nat) :
    pointsToTable s j = (pFlag (entryAt s (directorySlot s j)) && mappedRange s.cfg (directorySlot s j) 4 &&
      !mapsLargePage s (entryAt s (directorySlot s j))) := by
  have hp : (memByte s.mem (directorySlot s j)).getLsbD 0 = pFlag (entryAt s (directorySlot s j)) := by
    have hbyte := memByte_of_entryAt s (directorySlot s j) 0 (by omega)
    rw [Nat.add_zero] at hbyte
    rw [hbyte, BitVec.getLsbD_extractLsb']
    simp [pFlag]
  rw [pointsToTable, hp]

/-- Whether an entry points to a page table does not depend on A and D. -/
theorem SameTablesButAD.pointsToTable {s t : State} (h : SameTablesButAD s t) (j : Nat) :
    Machine.pointsToTable t j = Machine.pointsToTable s j := by
  have he := h.directoryEntry j
  have hp : pFlag (entryAt t (Machine.directorySlot t j)) = pFlag (entryAt s (Machine.directorySlot s j)) :=
    he 0 (by omega) (by omega)
  have hps : psFlag (entryAt t (Machine.directorySlot t j)) = psFlag (entryAt s (Machine.directorySlot s j)) :=
    he 7 (by omega) (by omega)
  rw [pointsToTable_eq, pointsToTable_eq, mapsLargePage, mapsLargePage, hp, hps, h.cfg, h.cr4, h.directorySlot]

/-- Nor does whether it has a double (R188). -/
theorem SameTablesButAD.noDoubledEntry {s t : State} (h : SameTablesButAD s t) {i : Nat} (hn : NoDoubledEntry s i) :
    NoDoubledEntry t i := by
  intro j hj hne hp
  rw [(h.directoryEntry j).base, (h.directoryEntry i).base]
  exact hn j hj hne (h.pointsToTable j ▸ hp)

theorem SameTables.doublesAgree {s t : State} (h : SameTables s t) {i : Nat} (ha : DoublesAgree s i) : DoublesAgree t i := by
  intro j hj hne hp
  rw [← h.directoryEntry j, ← h.directoryEntry i]
  exact ha j hj hne (h.butAD.pointsToTable j ▸ hp)

/-! ### The moments of a walk (R189) -/

/-- The state after both updates of a walk to a 4-KByte page (R190). -/
def afterWalk (acc : AccessKind) (la pde pte : Word32) (s : State) : State :=
  writeBack (pteAddress pde la) pte (setDOnWrite acc (setA pte)) (writeBack (pdeAddress s.cr3 la) pde (setA pde) s)

/-- The states of a walk to a 4-KByte page that completes: before its updates, between them and after them. -/
def walkStates (acc : AccessKind) (la pde pte : Word32) (s : State) : List State :=
  [s, writeBack (pdeAddress s.cr3 la) pde (setA pde) s, afterWalk acc la pde pte s]

/-- The states of a walk through a page table that faults: before, and after each of the A flags that may have been set. -/
def faultStates (la pde pte : Word32) (s : State) : List State :=
  let s1 := maybeSetA (pdeAddress s.cr3 la) pde s
  [s, s1, maybeSetA (pteAddress pde la) pte s1]

theorem sameRegisters_writeBack (addr e e' : Word32) (s : State) : SameRegisters s (writeBack addr e e' s) := by
  unfold writeBack
  split <;> rfl

theorem sameRegisters_maybeSetA (addr e : Word32) (s : State) : SameRegisters s (maybeSetA addr e s) := rfl

section
variable {acc : AccessKind} {la pde pte : Word32} {s : State}

theorem sameRegisters_afterWalk : SameRegisters s (afterWalk acc la pde pte s) :=
  (sameRegisters_writeBack _ _ _ s).trans (sameRegisters_writeBack _ _ _ _)

@[simp] theorem afterWalk_tlb : (afterWalk acc la pde pte s).tlb = s.tlb := by
  simp [afterWalk]

@[simp] theorem afterWalk_choices : (afterWalk acc la pde pte s).choices = s.choices := by
  simp [afterWalk]

/-- `faultPath` is the memory of these states. -/
theorem faultPath_eq (s : State) (la pde pte : Word32) : faultPath s la pde pte = (faultStates la pde pte s).map State.mem := by
  simp only [faultPath, faultStates, withPdeAccessed, List.map_cons, List.map_nil, maybeSetA_mem, maybeSetA_choices,
    Bool.cond_eq_ite]

theorem sameRegisters_faultStates : ∀ t ∈ faultStates la pde pte s, SameRegisters s t := by
  simp only [faultStates, List.forall_mem_cons, List.not_mem_nil, false_implies, implies_true, and_true]
  exact ⟨SameRegisters.refl s, sameRegisters_maybeSetA _ _ s,
    (sameRegisters_maybeSetA _ _ s).trans (sameRegisters_maybeSetA _ _ _)⟩

/-- Which A flags are set is a free value each, so each moment is one of the four of `faultMoments`. -/
theorem faultStates_mem : ∀ t ∈ faultStates la pde pte s, t.mem ∈ faultMoments s la pde pte := by
  have h1 := maybeSetA_mem_cases (pdeAddress s.cr3 la) pde s
  have h2 := maybeSetA_mem_cases (pteAddress pde la) pte (maybeSetA (pdeAddress s.cr3 la) pde s)
  have hmem : ∀ m, m ∈ faultMoments s la pde pte ↔ m = s.mem ∨ m = withPdeAccessed s la pde s.mem ∨
      m = writeBytes s.mem (pteAddress pde la).toNat (leBytes 4 (setA pte)) ∨
      m = writeBytes (withPdeAccessed s la pde s.mem) (pteAddress pde la).toNat (leBytes 4 (setA pte)) := by
    simp [faultMoments]
  simp only [faultStates, List.forall_mem_cons, List.not_mem_nil, false_implies, implies_true, and_true, hmem]
  unfold withPdeAccessed
  refine ⟨by simp only [true_or], ?_, ?_⟩
  · rcases h1 with h1 | h1 <;> simp only [h1, true_or, or_true]
  · rcases h1 with h1 | h1 <;> rcases h2 with h2 | h2 <;> simp only [h1, h2, true_or, or_true]

/-- At no moment of a walk does an entry differ from what it was in more than A and D. -/
theorem sameTablesButAD_moments (hpde : pde = entryAt s (pdeAddress s.cr3 la).toNat)
    (hpte : pte = entryAt s (pteAddress pde la).toNat) :
    ∀ m ∈ walkMoments acc s la pde pte ++ faultMoments s la pde pte, SameTablesButAD s { s with mem := m } := by
  have hA := pdeAddress_mod_four s.cr3 la
  have hT := pteAddress_mod_four pde la
  have h0 : SameTablesButAD s { s with mem := s.mem } := SameTablesButAD.refl s
  have h1 : SameTablesButAD s { s with mem := withPdeAccessed s la pde s.mem } :=
    h0.write hA (hpde ▸ sameButAD_setA pde)
  have hpteA : SameButAD (entryAt s (pteAddress pde la).toNat) (setA pte) := hpte ▸ sameButAD_setA pte
  have hpteDA : SameButAD (entryAt s (pteAddress pde la).toNat) (setDOnWrite acc (setA pte)) :=
    hpte ▸ sameButAD_setDA acc pte
  simp only [walkMoments, faultMoments, List.cons_append, List.nil_append, List.forall_mem_cons, List.not_mem_nil,
    false_implies, implies_true, and_true]
  exact ⟨h0, h1, h1.write hT hpteDA, h0, h1, h0.write hT hpteA, h1.write hT hpteA⟩

/-! ### What the updates of a completed walk leave -/

/-- The page-table entry is still the one read where the second update has nothing to write: where the two entries are one,
the first had nothing to write either. -/
theorem pte_of_unchanged (hpde : pde = entryAt s (pdeAddress s.cr3 la).toNat)
    (hpte : pte = entryAt s (pteAddress pde la).toNat) (h : setDOnWrite acc (setA pte) = pte) :
    entryAt (writeBack (pdeAddress s.cr3 la) pde (setA pde) s) (pteAddress pde la).toNat = pte := by
  rw [entryAt_writeBack (pdeAddress_mod_four _ _) (pteAddress_mod_four _ _) fun _ => hpde.symm]
  split
  · rename_i heq
    obtain rfl : pte = pde := by rw [hpte, heq, ← hpde]
    exact setA_of_setDA_eq h
  · exact hpte.symm

theorem entryAt_afterWalk (hpde : pde = entryAt s (pdeAddress s.cr3 la).toNat)
    (hpte : pte = entryAt s (pteAddress pde la).toNat) {pa : Nat} (hpa : pa % 4 = 0) :
    entryAt (afterWalk acc la pde pte s) pa =
      if pa = (pteAddress pde la).toNat then setDOnWrite acc (setA pte)
      else if pa = (pdeAddress s.cr3 la).toNat then setA pde else entryAt s pa := by
  rw [afterWalk, entryAt_writeBack (pteAddress_mod_four _ _) hpa (pte_of_unchanged hpde hpte),
    entryAt_writeBack (pdeAddress_mod_four _ _) hpa fun _ => hpde.symm]

theorem entryAt_afterWalk_pte (hpde : pde = entryAt s (pdeAddress s.cr3 la).toNat)
    (hpte : pte = entryAt s (pteAddress pde la).toNat) :
    entryAt (afterWalk acc la pde pte s) (pteAddress pde la).toNat = setDOnWrite acc (setA pte) := by
  rw [entryAt_afterWalk hpde hpte (pteAddress_mod_four _ _), if_pos rfl]

theorem entryAt_afterWalk_pde (hpde : pde = entryAt s (pdeAddress s.cr3 la).toNat)
    (hpte : pte = entryAt s (pteAddress pde la).toNat) (hne : pteAddress pde la ≠ pdeAddress s.cr3 la) :
    entryAt (afterWalk acc la pde pte s) (pdeAddress s.cr3 la).toNat = setA pde := by
  rw [entryAt_afterWalk hpde hpte (pdeAddress_mod_four _ _), if_neg fun h => hne (BitVec.eq_of_toNat_eq h.symm), if_pos rfl]

theorem memByte_afterWalk_other {a : Nat} (h : a < (pdeAddress s.cr3 la).toNat ∨ (pdeAddress s.cr3 la).toNat + 4 ≤ a)
    (h' : a < (pteAddress pde la).toNat ∨ (pteAddress pde la).toNat + 4 ≤ a) :
    memByte (afterWalk acc la pde pte s).mem a = memByte s.mem a := by
  rw [afterWalk, memByte_writeBack_other h', memByte_writeBack_other h]

/-- With every flag set already nothing is written (R182). -/
theorem afterWalk_of_flags (ha : aFlag pde = true) (ha' : aFlag pte = true) (hd : acc = .write → dFlag pte = true) :
    afterWalk acc la pde pte s = s := by
  rw [afterWalk, setA_of_accessed ha, setDA_of_flags ha' hd, writeBack_same, writeBack_same]

/-- The moments of `walkMoments` have the paging entries of the states of the walk. -/
theorem sameTables_walkStates (hpde : pde = entryAt s (pdeAddress s.cr3 la).toNat)
    (hpte : pte = entryAt s (pteAddress pde la).toNat) :
    List.Forall₂ (fun m t => SameTables { s with mem := m } t) (walkMoments acc s la pde pte)
      (walkStates acc la pde pte s) := by
  have hA := pdeAddress_mod_four s.cr3 la
  have hT := pteAddress_mod_four pde la
  have hwritten : ∀ (m : Memory) (addr e : Word32) (pa : Nat), addr.toNat % 4 = 0 → pa % 4 = 0 →
      entryAt { s with mem := writeBytes m addr.toNat (leBytes 4 e) } pa =
        if pa = addr.toNat then e else entryAt { s with mem := m } pa := fun m addr e pa haddr hpa =>
    entryAt_of_written (s := { s with mem := m }) rfl haddr hpa
  have h1 := sameRegisters_writeBack (pdeAddress s.cr3 la) pde (setA pde) s
  have h2 := sameRegisters_afterWalk (acc := acc) (la := la) (pde := pde) (pte := pte) (s := s)
  refine .cons (SameRegisters.refl s).sameTables (.cons ⟨h1.cfg, h1.cr3, h1.cr4, fun pa hpa => ?_⟩
    (.cons ⟨h2.cfg, h2.cr3, h2.cr4, fun pa hpa => ?_⟩ .nil))
  · rw [withPdeAccessed, hwritten _ _ _ _ hA hpa, entryAt_writeBack hA hpa fun _ => hpde.symm]
  · rw [withPdeAccessed, hwritten _ _ _ _ hT hpa, hwritten _ _ _ _ hA hpa, entryAt_afterWalk hpde hpte hpa]

/-! ### Doubled entries -/

theorem exists_mem_of_forall₂ {α β : Type} {R : α → β → Prop} {l : List α} {l' : List β} (h : List.Forall₂ R l l') :
    ∀ b ∈ l', ∃ a ∈ l, R a b := by
  induction h with
  | nil => exact fun b hb => absurd hb List.not_mem_nil
  | cons hab _ ih =>
    rw [List.forall_mem_cons]
    exact ⟨⟨_, List.mem_cons_self, hab⟩, fun b hb => (ih b hb).imp fun a ha => ⟨List.mem_cons_of_mem _ ha.1, ha.2⟩⟩

/-- Where the entry used points to a page table, a double that does not agree with it differs from it (R189). -/
theorem doubledEntryDiffers_of_not_agree {i : Nat} (hp : pointsToTable s i = true) (h : ¬ DoublesAgree s i) :
    doubledEntryDiffers s i = true := by
  unfold DoublesAgree at h
  push Not at h
  obtain ⟨j, hj, hne, hpj, hbase, hdiff⟩ := h
  rw [doubledEntryDiffers, hp, Bool.true_and]
  refine List.any_eq_true.mpr ⟨j, List.mem_range.mpr hj, ?_⟩
  simp [hne, hpj, hbase, hdiff]

/-- The entry a walk used points to a page table. -/
theorem ReadsPageTable.pointsToTable (h : ReadsPageTable s la pde pte) :
    Machine.pointsToTable s (directoryIndex la).toNat = true := by
  rw [pointsToTable_eq, ← pdeAddress_toNat, ← h.pdeRead, h.present, h.pdeInMemory, h.notLarge]
  rfl

/-- No doubled entry differs where the doubles agree in memories with the paging entries of the moments. -/
theorem differedAt_of_agree {moments : List State} {mems : List Memory} (ha : DoublesAgreeIn s la mems)
    (hm : ∀ t ∈ moments, ∃ m ∈ mems, SameTables { s with mem := m } t) : differedAt la moments = false := by
  refine List.any_eq_false.mpr fun t ht => ?_
  obtain ⟨m, hmem, htab⟩ := hm t ht
  simpa using doubledEntryDiffers_of_doublesAgree (htab.doublesAgree (ha m hmem))

/-- A doubled entry differs where the doubles do not agree in memories with the paging entries of the moments. -/
theorem differedAt_of_not_agree {moments : List State} {mems : List Memory} (h : ReadsPageTable s la pde pte)
    (ha : ¬ DoublesAgreeIn s la mems) (hsub : mems ⊆ walkMoments acc s la pde pte ++ faultMoments s la pde pte)
    (hm : ∀ m ∈ mems, ∃ t ∈ moments, SameTables { s with mem := m } t) : differedAt la moments = true := by
  unfold DoublesAgreeIn at ha
  push Not at ha
  obtain ⟨m, hmem, hdis⟩ := ha
  obtain ⟨t, ht, htab⟩ := hm m hmem
  have hp : pointsToTable t (directoryIndex la).toNat = true := by
    rw [htab.butAD.pointsToTable, (sameTablesButAD_moments h.pdeRead h.pteRead m (hsub hmem)).pointsToTable, h.pointsToTable]
  exact List.any_eq_true.mpr ⟨t, ht, doubledEntryDiffers_of_not_agree hp fun hag => hdis (htab.symm.doublesAgree hag)⟩

theorem differedAt_walkStates_of_agree (hpde : pde = entryAt s (pdeAddress s.cr3 la).toNat)
    (hpte : pte = entryAt s (pteAddress pde la).toNat) (ha : DoublesAgreeIn s la (walkMoments acc s la pde pte)) :
    differedAt la (walkStates acc la pde pte s) = false :=
  differedAt_of_agree ha (exists_mem_of_forall₂ (sameTables_walkStates hpde hpte))

end

/-! ### How a walk ends -/

theorem orDeadlock_plain {α : Type} (s : State) (normal : State → Result α) : orDeadlock false s normal = normal s := rfl

theorem orDeadlock_differed {α : Type} (s : State) (normal : State → Result α) :
    orDeadlock true s normal =
      if Config.freeBool s.choices then .fault (.aliasingDeadlock (useChoices 1 s)) else normal (useChoices 1 s) := by
  rw [← Bool.cond_eq_ite]
  rfl

theorem orDeadlock_eq_next {α : Type} {differed : Bool} {s : State} {normal : State → Result α} {p : α × State}
    (h : orDeadlock differed s normal = .next p) : ∃ n, normal (useChoices n s) = .next p := by
  cases differed
  · exact ⟨0, h⟩
  · rw [orDeadlock_differed] at h
    split at h
    · cases h
    · exact ⟨1, h⟩

/-- The outcome is a refusal or an exception. -/
def RefusesOrRaises {α : Type} (o : Result α) : Prop :=
  (∃ why, o = .refused why) ∨ ∃ e left, o = .fault (.exception e left)

theorem RefusesOrRaises.ne_next {α : Type} {o : Result α} (h : RefusesOrRaises o) (p : α × State) : o ≠ .next p := by
  rcases h with ⟨_, rfl⟩ | ⟨_, _, rfl⟩ <;> simp

theorem RefusesOrRaises.ne_deadlock {α : Type} {o : Result α} (h : RefusesOrRaises o) (left : State) :
    o ≠ .fault (.aliasingDeadlock left) := by
  rcases h with ⟨_, rfl⟩ | ⟨_, _, rfl⟩ <;> simp

theorem refusesOrRaises_reservedFault {α : Type} (la : Word32) (acc : AccessKind) (priv : Priv) (s : State) :
    RefusesOrRaises (reservedFault la acc priv s : Result α) := by
  unfold reservedFault
  split
  · exact .inr ⟨_, _, rfl⟩
  · exact .inl ⟨_, rfl⟩

section
variable {la pde pte : Word32} {acc : AccessKind} {priv : Priv} {s t : State}

/-- A walk in which the directory entry is not in memory is refused (20_memory.md R52). -/
theorem walk_unmapped (hm : mappedRange s.cfg (pdeAddress s.cr3 la).toNat 4 = false) :
    walk la acc priv s = .refused .noMemoryAtPhysicalAddress := by
  unfold walk
  simp only [readEntry_eq, hm, Bool.false_eq_true, if_false, andThen_refused]

/-- A directory entry with P = 0 (R173). -/
theorem walk_notPresent (hm : mappedRange s.cfg (pdeAddress s.cr3 la).toNat 4 = true)
    (hp : pFlag (entryAt s (pdeAddress s.cr3 la).toNat) = false) :
    walk la acc priv s = .fault (.exception (.pageFault la acc priv .notPresent) s) := by
  unfold walk
  simp only [readEntry_eq, if_pos hm, andThen_next, hp, Bool.not_false, if_true]
  rfl

/-- A present directory entry of a 4-MByte page (R174). -/
theorem walk_eq_walkLarge (hm : mappedRange s.cfg (pdeAddress s.cr3 la).toNat 4 = true)
    (hpde : pde = entryAt s (pdeAddress s.cr3 la).toNat) (hp : pFlag pde = true) (hl : mapsLargePage s pde = true) :
    walk la acc priv s = walkLarge la acc priv (pdeAddress s.cr3 la) pde s := by
  unfold walk
  simp only [readEntry_eq, if_pos hm, andThen_next, ← hpde, hp, hl, Bool.not_true, Bool.false_eq_true, if_false, if_true]

/-- A present directory entry that points to a page table (R175). -/
theorem walk_eq_walkTable (hm : mappedRange s.cfg (pdeAddress s.cr3 la).toNat 4 = true)
    (hpde : pde = entryAt s (pdeAddress s.cr3 la).toNat) (hp : pFlag pde = true) (hl : mapsLargePage s pde = false) :
    walk la acc priv s = walkTable la acc priv (pdeAddress s.cr3 la) pde s := by
  unfold walk
  simp only [readEntry_eq, if_pos hm, andThen_next, ← hpde, hp, hl, Bool.not_true, Bool.false_eq_true, if_false]

/-- The answer of a permitted walk to a 4-MByte page (R178). -/
theorem walkLarge_permitted {pdeAddr : Word32} (hok : reservedOk s.cfg .pde4M pde = true)
    (hperm : pagePermits s.cfg priv acc (wpFlag s.cr0) (usFlag pde) (rwFlag pde) none = true) :
    walkLarge la acc priv pdeAddr pde s =
      .next (largePageAddress pde la, maybeFill (.page4M (la.extractLsb' 22 10) (setDOnWrite acc (setA pde)))
        (writeBack pdeAddr pde (setDOnWrite acc (setA pde)) s)) := by
  unfold walkLarge
  simp only [hok, hperm, Bool.not_true, Bool.false_eq_true, if_false]

theorem walkLarge_cases (la : Word32) (acc : AccessKind) (priv : Priv) (pdeAddr pde : Word32) (s : State) :
    RefusesOrRaises (walkLarge la acc priv pdeAddr pde s) ∨
      walkLarge la acc priv pdeAddr pde s =
        .next (largePageAddress pde la, maybeFill (.page4M (la.extractLsb' 22 10) (setDOnWrite acc (setA pde)))
          (writeBack pdeAddr pde (setDOnWrite acc (setA pde)) s)) := by
  unfold walkLarge
  split
  · exact .inl (refusesOrRaises_reservedFault la acc priv s)
  split
  · exact .inl (.inr ⟨_, _, rfl⟩)
  · exact .inr rfl

theorem walkTable_cases (la : Word32) (acc : AccessKind) (priv : Priv) (pdeAddr pde : Word32) (s : State) :
    RefusesOrRaises (walkTable la acc priv pdeAddr pde s) ∨
      reservedOk s.cfg .pdePT pde = true ∧ mappedRange s.cfg (pteAddress pde la).toNat 4 = true := by
  unfold walkTable
  split
  · exact .inl (refusesOrRaises_reservedFault la acc priv s)
  · rename_i hok
    simp only [readEntry_eq]
    split
    · rename_i hm
      exact .inr ⟨by simpa using hok, hm⟩
    · exact .inl (.inl ⟨_, rfl⟩)

/-- A walk is refused, raises, answers through a 4-MByte page, or comes to read a page-table entry. -/
theorem walk_cases (la : Word32) (acc : AccessKind) (priv : Priv) (s : State) :
    RefusesOrRaises (walk la acc priv s) ∨
    (∃ pde, pde = entryAt s (pdeAddress s.cr3 la).toNat ∧ mapsLargePage s pde = true ∧
      walk la acc priv s =
        .next (largePageAddress pde la, maybeFill (.page4M (la.extractLsb' 22 10) (setDOnWrite acc (setA pde)))
          (writeBack (pdeAddress s.cr3 la) pde (setDOnWrite acc (setA pde)) s))) ∨
    ∃ pde pte, ReadsPageTable s la pde pte := by
  cases hm : mappedRange s.cfg (pdeAddress s.cr3 la).toNat 4 with
  | false => exact .inl (.inl ⟨_, walk_unmapped hm⟩)
  | true =>
    obtain ⟨pde, hpde⟩ : ∃ pde, pde = entryAt s (pdeAddress s.cr3 la).toNat := ⟨_, rfl⟩
    cases hp : pFlag pde with
    | false => exact .inl (.inr ⟨_, _, walk_notPresent hm (hpde ▸ hp)⟩)
    | true =>
      cases hl : mapsLargePage s pde with
      | true =>
        rw [walk_eq_walkLarge hm hpde hp hl]
        exact (walkLarge_cases la acc priv _ pde s).imp id fun h => .inl ⟨pde, hpde, hl, h⟩
      | false =>
        rw [walk_eq_walkTable hm hpde hp hl]
        exact (walkTable_cases la acc priv _ pde s).imp id fun h => .inr ⟨pde, _, hm, hpde, hp, hl, h.1, h.2, rfl⟩

/-! ### How a walk that reads a page-table entry ends -/

/-- A permitted walk to a 4-KByte page answers, or ends in the deadlock where doubled entries differed at a moment of it. -/
theorem walk_permitted (h : ReadsPageTable s la pde pte) (h' : ChecksPageTable s acc priv pde pte true) :
    walk la acc priv s =
      orDeadlock (differedAt la (walkStates acc la pde pte s)) (afterWalk acc la pde pte s) fun u =>
        .next (smallPageAddress pte la,
          maybeFill (.page4K (la.extractLsb' 12 20) (setA pde) (setDOnWrite acc (setA pte))) u) :=
  walk_eq_finish h h'

/-- Why a walk through a page table ends in a page fault, and how many A flags it may have set by then (R184, R190). -/
def FaultsInTable (s : State) (acc : AccessKind) (priv : Priv) (pde pte : Word32) (cause : PageFaultCause) (n : Nat) : Prop :=
  (pFlag pte = false ∧ cause = .notPresent ∧ n = 1) ∨ (ChecksPageTable s acc priv pde pte false ∧ cause = .protection ∧ n = 2)

/-- Such a walk raises, or ends in the deadlock where doubled entries differed at a moment of it. -/
theorem walk_faulting {cause : PageFaultCause} {n : Nat} (h : ReadsPageTable s la pde pte)
    (hf : FaultsInTable s acc priv pde pte cause n) :
    ∃ after, (faultStates la pde pte s)[n]? = some after ∧ after.choices = s.choices + n ∧
      walk la acc priv s = orDeadlock (differedAt la ((faultStates la pde pte s).take (n + 1))) after fun u =>
        raise (.pageFault la acc priv cause) u := by
  rw [walk_eq_table h]
  rcases hf with ⟨hp, rfl, rfl⟩ | ⟨⟨hp, hok, hperm⟩, rfl, rfl⟩
  · simp only [hp, Bool.not_false, if_true]
    exact ⟨_, rfl, rfl, rfl⟩
  · simp only [hp, hok, hperm, Bool.not_true, Bool.not_false, Bool.false_eq_true, if_false, if_true]
    exact ⟨_, rfl, rfl, rfl⟩

/-- A walk that reads a page-table entry is refused or raises for a reserved bit, faults, or is permitted. -/
theorem ReadsPageTable.cases (h : ReadsPageTable s la pde pte) (acc : AccessKind) (priv : Priv) :
    RefusesOrRaises (walk la acc priv s) ∨ (∃ cause n, FaultsInTable s acc priv pde pte cause n) ∨
      ChecksPageTable s acc priv pde pte true := by
  cases hp : pFlag pte with
  | false => exact .inr (.inl ⟨_, _, .inl ⟨hp, rfl, rfl⟩⟩)
  | true =>
    cases hok : reservedOk s.cfg .pte4K pte with
    | false =>
      rw [walk_eq_table h]
      simp only [hp, hok, Bool.not_true, Bool.not_false, Bool.false_eq_true, if_false, if_true]
      exact .inl (refusesOrRaises_reservedFault la acc priv _)
    | true =>
      cases hperm : pagePermits s.cfg priv acc (wpFlag s.cr0) (usFlag pde) (rwFlag pde) (some (usFlag pte, rwFlag pte)) with
      | false => exact .inr (.inl ⟨_, _, .inr ⟨⟨hp, hok, hperm⟩, rfl, rfl⟩⟩)
      | true => exact .inr (.inr ⟨hp, hok, hperm⟩)

/-- What a walk that completes answers, and the memory it leaves. -/
theorem walk_eq_next {pa : PhysAddr} (h : walk la acc priv s = .next (pa, t))
    (hpde : pde = entryAt s (pdeAddress s.cr3 la).toNat) (hpte : pte = entryAt s (pteAddress pde la).toNat) :
    (mapsLargePage s pde = true ∧ pa = largePageAddress pde la ∧
      t.mem = (writeBack (pdeAddress s.cr3 la) pde (setDOnWrite acc (setA pde)) s).mem) ∨
    (mapsLargePage s pde = false ∧ pa = smallPageAddress pte la ∧ t.mem = (afterWalk acc la pde pte s).mem) := by
  rcases walk_cases la acc priv s with hstop | ⟨pde', hpde', hl, hw⟩ | ⟨pde', pte', hr⟩
  · exact absurd h (hstop.ne_next _)
  · obtain rfl : pde' = pde := hpde'.trans hpde.symm
    obtain ⟨rfl, rfl⟩ := Prod.mk.inj (Host.Outcome.next.inj (h.symm.trans hw))
    exact .inl ⟨hl, rfl, rfl⟩
  · obtain rfl : pde' = pde := hr.pdeRead.trans hpde.symm
    obtain rfl : pte' = pte := hr.pteRead.trans hpte.symm
    rcases hr.cases acc priv with hstop | ⟨cause, n, hf⟩ | hc
    · exact absurd h (hstop.ne_next _)
    · obtain ⟨after, -, -, hw⟩ := walk_faulting hr hf
      obtain ⟨k, hk⟩ := orDeadlock_eq_next (hw.symm.trans h)
      exact absurd hk (raise_ne_next _ _ _)
    · obtain ⟨k, hk⟩ := orDeadlock_eq_next ((walk_permitted hr hc).symm.trans h)
      obtain ⟨rfl, rfl⟩ := Prod.mk.inj (Host.Outcome.next.inj hk)
      exact .inr ⟨hr.notLarge, rfl, rfl⟩

/-! ### What a walk leaves -/

theorem walkKeeps_of_walk {pa : PhysAddr} (h : walk la acc priv s = .next (pa, t)) : WalkKeeps acc s t :=
  (ensures_walk acc s la priv).next h

theorem entryAt_of_mem {u : State} (h : t.mem = u.mem) (pa : Nat) : entryAt t pa = entryAt u pa := by
  rw [entryAt, h, entryAt]

/-- Where the doubles agree at every moment, a walk does not end in the deadlock. -/
theorem walk_ne_deadlock (ha : ∀ pde pte, ReadsPageTable s la pde pte →
      DoublesAgreeIn s la (walkMoments acc s la pde pte ++ faultMoments s la pde pte)) (left : State) :
    walk la acc priv s ≠ .fault (.aliasingDeadlock left) := by
  rcases walk_cases la acc priv s with hstop | ⟨pde, -, -, hw⟩ | ⟨pde, pte, hr⟩
  · exact hstop.ne_deadlock left
  · rw [hw]
    simp
  · have ha := ha pde pte hr
    rcases hr.cases acc priv with hstop | ⟨cause, n, hf⟩ | hc
    · exact hstop.ne_deadlock left
    · obtain ⟨after, -, -, hw⟩ := walk_faulting hr hf
      have hd : differedAt la ((faultStates la pde pte s).take (n + 1)) = false := differedAt_of_agree ha fun t ht =>
        have ht' := List.mem_of_mem_take ht
        ⟨t.mem, List.mem_append_right _ (faultStates_mem t ht'), (sameRegisters_faultStates t ht').sameTables⟩
      rw [hw, hd, orDeadlock_plain]
      simp [raise]
    · have hd := differedAt_walkStates_of_agree hr.pdeRead hr.pteRead fun m hm => ha m (List.mem_append_left _ hm)
      rw [walk_permitted hr hc, hd, orDeadlock_plain]
      simp

end

/-! ### The obligations -/

/-- Settles O44: the first arm of translation. -/
theorem pagingOffIsIdentity : Obligations.PagingOffIsIdentity := fun la acc priv _ h =>
  translate_paging_off h la acc priv

/-- Settles O45: with no candidate entry a walk is made, and its first test fails. -/
theorem notPresentDirectoryEntryFaults : Obligations.NotPresentDirectoryEntryFaults := by
  intro la acc priv s hpg hpae hmiss hm hp
  rw [translate_paging_on hpg hpae, translatePaged_miss priv hmiss, walk_notPresent hm hp]

/-- Settles O46: the two moments of the walk are those of the statement. -/
theorem notPresentTableEntryFaults : Obligations.NotPresentTableEntryFaults := by
  intro la acc priv s pde pte h hp ha
  obtain ⟨after, hafter, -, hw⟩ := walk_faulting (acc := acc) (priv := priv) h (.inl ⟨hp, rfl, rfl⟩)
  obtain rfl : maybeSetA (pdeAddress s.cr3 la) pde s = after := Option.some.inj hafter
  have hmem := maybeSetA_mem_cases (pdeAddress s.cr3 la) pde s
  have hd : differedAt la ((faultStates la pde pte s).take 2) = false := by
    refine differedAt_of_agree ha fun t ht =>
      ⟨t.mem, ?_, (sameRegisters_faultStates t (List.mem_of_mem_take ht)).sameTables⟩
    simp only [faultStates, List.take_succ_cons, List.take_zero, List.mem_cons, List.not_mem_nil, or_false] at ht ⊢
    rcases ht with rfl | rfl
    · exact .inl rfl
    · exact hmem
  rw [hd] at hw
  exact ⟨_, hw, sameRegisters_maybeSetA _ _ s, rfl, hmem⟩

/-- Settles O47: the walk is permitted, and no double differs at a moment of it. -/
theorem smallPageWalk : Obligations.SmallPageWalk := by
  intro la acc priv s pde pte h hc ha
  have hw := walk_permitted h hc
  rw [differedAt_walkStates_of_agree h.pdeRead h.pteRead ha, orDeadlock_plain] at hw
  obtain ⟨heffect, -⟩ := walkKeeps_of_walk hw
  refine ⟨_, hw, heffect.same, heffect.written, ?_, entryAt_afterWalk_pte h.pdeRead h.pteRead,
    entryAt_afterWalk_pde h.pdeRead h.pteRead, fun a => memByte_afterWalk_other⟩
  simpa using maybeFill_tlb_cases _ (afterWalk acc la pde pte s)

/-- Settles O48: the walk to a 4-MByte page writes one entry back. -/
theorem largePageWalk : Obligations.LargePageWalk := by
  intro la acc priv s pde hpde hm hp hl hok hperm
  have hA := pdeAddress_mod_four s.cr3 la
  have hw := (walk_eq_walkLarge hm hpde hp hl).trans (walkLarge_permitted (la := la) (pdeAddr := pdeAddress s.cr3 la) hok hperm)
  obtain ⟨heffect, -⟩ := walkKeeps_of_walk hw
  refine ⟨_, hw, heffect.same, heffect.written, ?_, ?_, fun a => memByte_writeBack_other⟩
  · simpa using maybeFill_tlb_cases _ (writeBack (pdeAddress s.cr3 la) pde (setDOnWrite acc (setA pde)) s)
  · rw [entryAt_maybeFill, entryAt_writeBack hA hA fun _ => hpde.symm, if_pos rfl]

/-- Settles O50: `mapsLargePage` is PSE and PS. -/
theorem pageSizeSelection : Obligations.PageSizeSelection := by
  intro la acc priv s t pa pde h hpde
  rcases walk_eq_next h hpde rfl with ⟨hl, hpa, -⟩ | ⟨hl, hpa, -⟩
  · exact ⟨fun _ _ => hpa, fun hsmall => nomatch hl.symm.trans (Bool.and_eq_false_iff.mpr hsmall)⟩
  · exact ⟨fun hpse hps => (nomatch hl.symm.trans (Bool.and_eq_true_iff.mpr ⟨hpse, hps⟩)), fun _ => hpa⟩

/-- Settles O51: the entries are those the write-backs leave, and the bits of memory those `WalkEffect` allows. -/
theorem accessedAndDirtyFlags : Obligations.AccessedAndDirtyFlags := by
  intro la acc priv s t pa pde pte h hpde hpte
  have hbits := (walkKeeps_of_walk h).1.bits
  have hset : ∀ a, memByte t.mem a ||| memByte s.mem a = memByte t.mem a := fun a => (hbits a).2
  have hnoD : acc ≠ .write → ∀ a, memByte t.mem a &&& 0xDF#8 = memByte s.mem a &&& 0xDF#8 := by
    intro hacc a
    have ha := (hbits a).1
    rwa [walkMask, if_neg hacc] at ha
  have hA := pdeAddress_mod_four s.cr3 la
  rcases walk_eq_next h hpde hpte with ⟨hl, -, hmem⟩ | ⟨hl, -, hmem⟩
  · have hentry : entryAt t (pdeAddress s.cr3 la).toNat = setDOnWrite acc (setA pde) := by
      rw [entryAt_of_mem hmem, entryAt_writeBack hA hA fun _ => hpde.symm, if_pos rfl]
    refine ⟨by rw [hentry, aFlag_setD, aFlag_setA], fun _ => ⟨fun hacc => ?_, fun ha hd => ?_⟩,
      fun hl' => by simp [hl] at hl', hset, hnoD⟩
    · rw [hentry, dFlag_setD_write hacc]
    · rw [hmem, setDA_of_flags ha hd, writeBack_same]
  · have hpteEntry : entryAt t (pteAddress pde la).toNat = setDOnWrite acc (setA pte) :=
      (entryAt_of_mem hmem _).trans (entryAt_afterWalk_pte hpde hpte)
    have hpdeEntry : pteAddress pde la ≠ pdeAddress s.cr3 la → entryAt t (pdeAddress s.cr3 la).toNat = setA pde :=
      fun hne => (entryAt_of_mem hmem _).trans (entryAt_afterWalk_pde hpde hpte hne)
    have hpteA : aFlag (entryAt t (pteAddress pde la).toNat) = true := by rw [hpteEntry, aFlag_setD, aFlag_setA]
    have hpdeA : aFlag (entryAt t (pdeAddress s.cr3 la).toNat) = true := by
      by_cases hsame : pteAddress pde la = pdeAddress s.cr3 la
      · rwa [hsame] at hpteA
      · rw [hpdeEntry hsame, aFlag_setA]
    refine ⟨hpdeA, fun hl' => by simp [hl] at hl', fun _ => ⟨hpteA, fun hacc => ?_, fun hne => ⟨?_, fun ha => ?_⟩,
      fun ha hd => ?_, fun ha ha' hd => ?_⟩, hset, hnoD⟩
    · rw [hpteEntry, dFlag_setD_write hacc]
    · rw [hpdeEntry hne, dFlag_setA]
    · rw [hpdeEntry hne, setA_of_accessed ha]
    · rw [hpteEntry, setDA_of_flags ha hd]
    · rw [hmem, afterWalk_of_flags ha ha' hd]

/-- Without a double at the start there is none at any moment, so that the doubles agree (R188). -/
theorem doublesAgreeIn_of_noDoubledEntry {acc : AccessKind} {la pde pte : Word32} {s : State}
    (hpde : pde = entryAt s (pdeAddress s.cr3 la).toNat) (hpte : pte = entryAt s (pteAddress pde la).toNat)
    (hn : NoDoubledEntry s (directoryIndex la).toNat) :
    DoublesAgreeIn s la (walkMoments acc s la pde pte ++ faultMoments s la pde pte) := fun m hm =>
  ((sameTablesButAD_moments hpde hpte m hm).noDoubledEntry hn).doublesAgree

/-- A translation ends in the deadlock only by a walk, and a walk only where doubles differ. -/
theorem translate_ne_deadlock {la pde pte : Word32} {acc : AccessKind} (priv : Priv) {s : State} (left : State)
    (hpde : pde = entryAt s (pdeAddress s.cr3 la).toNat) (hpte : pte = entryAt s (pteAddress pde la).toNat)
    (ha : DoublesAgreeIn s la (walkMoments acc s la pde pte ++ faultMoments s la pde pte)) :
    translate la acc priv s ≠ .fault (.aliasingDeadlock left) := by
  unfold translate
  split
  · simp
  split
  · simp
  · obtain ⟨n, hw | ⟨e, -, hhit⟩⟩ := translatePaged_cases la acc priv s
    · rw [hw]
      refine walk_ne_deadlock (fun pde' pte' hr => ?_) left
      obtain rfl : pde' = pde := hr.pdeRead.trans hpde.symm
      obtain rfl : pte' = pte := hr.pteRead.trans hpte.symm
      exact ha
    · rw [hhit, translateByTlb]
      split <;> simp [raise]

/-- Where a double differs at a moment of a permitted walk, a free value chooses. -/
theorem walk_permitted_differed {la pde pte : Word32} {acc : AccessKind} {priv : Priv} {s : State}
    (h : ReadsPageTable s la pde pte) (hc : ChecksPageTable s acc priv pde pte true)
    (hna : ¬ DoublesAgreeIn s la (walkMoments acc s la pde pte)) :
    ∃ left t, walk la acc priv s =
        (if Config.freeBool s.choices then .fault (.aliasingDeadlock left) else .next (smallPageAddress pte la, t)) ∧
      SameRegisters s left ∧ SameRegisters s t ∧ (t.tlb = s.tlb ∨
        t.tlb = insertNew (.page4K (la.extractLsb' 12 20) (setA pde) (setDOnWrite acc (setA pte))) s.tlb) := by
  have hd : differedAt la (walkStates acc la pde pte s) = true :=
    differedAt_of_not_agree h hna (List.subset_append_left _ _)
      (exists_mem_of_forall₂ (sameTables_walkStates h.pdeRead h.pteRead).flip)
  have hregs : SameRegisters s (afterWalk acc la pde pte s) := sameRegisters_afterWalk
  have hw := walk_permitted h hc
  rw [hd, orDeadlock_differed, afterWalk_choices] at hw
  refine ⟨_, _, hw, hregs.trans rfl, hregs.trans rfl, ?_⟩
  simpa using maybeFill_tlb_cases _ (useChoices 1 (afterWalk acc la pde pte s))

/-- Where a double differs at a moment of a walk that faults, a free value chooses. -/
theorem walk_faulting_differed {la pde pte : Word32} {acc : AccessKind} {priv : Priv} {s : State} {cause : PageFaultCause}
    {n : Nat} (h : ReadsPageTable s la pde pte) (hna : ¬ DoublesAgreeIn s la ((faultPath s la pde pte).take (n + 1)))
    (hf : FaultsInTable s acc priv pde pte cause n) :
    ∃ left left', walk la acc priv s =
        (if Config.freeBool (s.choices + n) then .fault (.aliasingDeadlock left)
          else .fault (.exception (.pageFault la acc priv cause) left')) ∧
      SameRegisters s left ∧ SameRegisters s left' := by
  obtain ⟨after, hafter, hchoices, hw⟩ := walk_faulting h hf
  rw [faultPath_eq, ← List.map_take] at hna
  have hd : differedAt la ((faultStates la pde pte s).take (n + 1)) = true := by
    refine differedAt_of_not_agree (acc := acc) h hna ?_ ?_ <;> intro m hm <;> obtain ⟨t, ht, rfl⟩ := List.mem_map.mp hm
    · exact List.mem_append_right _ (faultStates_mem t (List.mem_of_mem_take ht))
    · exact ⟨t, ht, (sameRegisters_faultStates t (List.mem_of_mem_take ht)).sameTables⟩
  have hregs : SameRegisters s after := sameRegisters_faultStates after (List.mem_of_getElem? hafter)
  rw [hd, orDeadlock_differed, hchoices] at hw
  exact ⟨_, _, hw, hregs.trans rfl, hregs.trans rfl⟩

/-- Settles O54: the deadlock is guarded by `differedAt`, of the states of the walk, and these have the paging entries of the
moments of the statement. -/
theorem deadlockNeedsDoubledEntry : Obligations.DeadlockNeedsDoubledEntry :=
  ⟨fun _ _ priv _ left hn => translate_ne_deadlock priv left rfl rfl (doublesAgreeIn_of_noDoubledEntry rfl rfl hn),
    fun _ _ priv _ left _ _ hpde hpte =>
      ⟨translate_ne_deadlock priv left hpde hpte, doublesAgreeIn_of_noDoubledEntry hpde hpte⟩,
    fun _ _ _ _ _ _ => walk_permitted_differed,
    fun _ _ _ _ _ _ _ _ => walk_faulting_differed⟩

end Sys2Proof.Machine

/-! ## Reserved bits and protection of paging entries: 44_paging_entries.md R205, R220 to R228 -/

namespace Sys2Proof.Machine

/-! ### Bits under a mask -/

theorem and_or_eq_zero_iff (e m m' : Word32) : e &&& (m ||| m') = 0#32 ↔ e &&& m = 0#32 ∧ e &&& m' = 0#32 := by
  rw [BitVec.and_or_distrib_left, BitVec.or_eq_zero_iff]

/-- A field is clear exactly when the bits under its mask are. -/
theorem and_fieldMask_eq_zero_iff (e : Word32) {start len : Nat} :
    e &&& ((BitVec.allOnes len).setWidth 32 <<< start) = 0#32 ↔ e.extractLsb' start len = 0#len := by
  constructor <;> intro h
  · refine BitVec.eq_of_getLsbD_eq fun i hi => ?_
    have hbit : (e &&& ((BitVec.allOnes len).setWidth 32 <<< start)).getLsbD (start + i) = false := by rw [h]; simp
    by_cases hlt : start + i < 32
    · simpa [hi, hlt, show i < 32 by omega] using hbit
    · simpa [hi] using BitVec.getLsbD_of_ge e (start + i) (by omega)
  · refine BitVec.eq_of_getLsbD_eq fun i hi => ?_
    have hbit : (e.extractLsb' start len).getLsbD (i - start) = false := by rw [h]; simp
    by_cases hin : start ≤ i ∧ i - start < len
    · rw [BitVec.getLsbD_extractLsb', Nat.add_sub_cancel' hin.1] at hbit
      simp_all
    · simp; omega

theorem and_twoPow_eq_zero_iff (e : Word32) {i : Nat} (hi : i < 32) :
    e &&& BitVec.twoPow 32 i = 0#32 ↔ (!e.getLsbD i) = true := by
  have hne : BitVec.twoPow 32 i ≠ 0#32 := fun h => by
    simpa [BitVec.getLsbD_twoPow, hi] using congrArg (·.getLsbD i) h
  rw [BitVec.and_twoPow]
  cases e.getLsbD i <;> simp [hne]

/-- The mask of a bit that must be 0 unless a feature defines it. -/
theorem and_bitUnless_eq_zero_iff (e : Word32) {i : Nat} (hi : i < 32) (feature : Bool) :
    e &&& (if feature then 0#32 else BitVec.twoPow 32 i) = 0#32 ↔ (feature || !e.getLsbD i) = true := by
  cases feature with
  | true => simp
  | false => exact and_twoPow_eq_zero_iff e hi

/-! ### Walks refused for a reserved bit or for want of memory -/

/-- Without PAE a reserved bit is no exception but a refusal (R226). -/
theorem reservedFault_refused {α : Type} {s : State} (h : paeFlag s.cr4 = false) (la : Word32) (acc : AccessKind)
    (priv : Priv) : (reservedFault la acc priv s : Result α) = .refused .reservedBitInPagingEntry :=
  if_neg (by simp [h])

section
variable {la pde pte pdeAddr : Word32} {acc : AccessKind} {priv : Priv} {s : State}

theorem walkLarge_reserved (hok : reservedOk s.cfg .pde4M pde = false) :
    walkLarge la acc priv pdeAddr pde s = reservedFault la acc priv s := if_pos (by rw [hok]; rfl)

theorem walkTable_reserved (hok : reservedOk s.cfg .pdePT pde = false) :
    walkTable la acc priv pdeAddr pde s = reservedFault la acc priv s := if_pos (by rw [hok]; rfl)

theorem walkTable_unmapped (hok : reservedOk s.cfg .pdePT pde = true)
    (hm : mappedRange s.cfg (pteAddress pde la).toNat 4 = false) :
    walkTable la acc priv pdeAddr pde s = .refused .noMemoryAtPhysicalAddress := by
  unfold walkTable
  simp only [hok, readEntry_eq, hm, Bool.not_true, Bool.false_eq_true, if_false, andThen_refused]

/-- A present directory entry with a reserved bit set, of either format. -/
theorem walk_reserved_pde (hm : mappedRange s.cfg (pdeAddress s.cr3 la).toNat 4 = true)
    (hpde : pde = entryAt s (pdeAddress s.cr3 la).toNat) (hp : pFlag pde = true)
    (hok : reservedOk s.cfg (if mapsLargePage s pde then .pde4M else .pdePT) pde = false) :
    walk la acc priv s = reservedFault la acc priv s := by
  cases hl : mapsLargePage s pde with
  | true => exact (walk_eq_walkLarge hm hpde hp hl).trans (walkLarge_reserved (by simpa [hl] using hok))
  | false => exact (walk_eq_walkTable hm hpde hp hl).trans (walkTable_reserved (by simpa [hl] using hok))

/-- A present page-table entry with a reserved bit set. -/
theorem ReadsPageTable.walk_reserved (h : ReadsPageTable s la pde pte) (hp : pFlag pte = true)
    (hok : reservedOk s.cfg .pte4K pte = false) :
    walk la acc priv s = reservedFault la acc priv (maybeSetA (pdeAddress s.cr3 la) pde s) := by
  rw [walk_eq_table h]
  simp only [hp, hok, Bool.not_true, Bool.not_false, Bool.false_eq_true, if_false, if_true]

/-! ### Accesses that the protection check denies -/

theorem walkLarge_denied (hok : reservedOk s.cfg .pde4M pde = true)
    (hperm : pagePermits s.cfg priv acc (wpFlag s.cr0) (usFlag pde) (rwFlag pde) none = false) :
    walkLarge la acc priv pdeAddr pde s =
      .fault (.exception (.pageFault la acc priv .protection) (maybeSetA pdeAddr pde s)) := by
  unfold walkLarge
  simp only [hok, hperm, Bool.not_true, Bool.not_false, Bool.false_eq_true, if_false, if_true]
  rfl

theorem translateByTlb_denied {e : TlbEntry} (h : tlbPermits s.cfg priv acc (wpFlag s.cr0) e = false) :
    translateByTlb e la acc priv s = .fault (.exception (.pageFault la acc priv .protection) s) :=
  if_neg (by simp [h])

end

/-- A walk through a page table that faults raises where the doubled entries agree in every memory it may leave; the A flags
of the directory entry and of the page-table entry are free values each (R184, R189). -/
theorem walk_faulting_raises {la pde pte : Word32} {acc : AccessKind} {priv : Priv} {s : State} {cause : PageFaultCause}
    {n : Nat} (h : ReadsPageTable s la pde pte) (hf : FaultsInTable s acc priv pde pte cause n)
    (ha : DoublesAgreeIn s la (faultMoments s la pde pte)) :
    ∃ after, (faultStates la pde pte s)[n]? = some after ∧
      walk la acc priv s = .fault (.exception (.pageFault la acc priv cause) after) := by
  obtain ⟨after, hafter, -, hw⟩ := walk_faulting h hf
  have hd : differedAt la ((faultStates la pde pte s).take (n + 1)) = false := differedAt_of_agree ha fun t ht =>
    have ht' := List.mem_of_mem_take ht
    ⟨t.mem, faultStates_mem t ht', (sameRegisters_faultStates t ht').sameTables⟩
  rw [hd] at hw
  exact ⟨after, hafter, hw⟩

section
variable {c : Config} (hrule : c.permitRule = .standard) (acc : AccessKind) (wp usPde rwPde : Bool)
  (pte : Option (Bool × Bool))
include hrule

theorem pagePermits_standard (priv : Priv) :
    pagePermits c priv acc wp usPde rwPde pte = pagePermitsDefault ⟨priv, acc, wp, usPde, rwPde, pte⟩ := by
  rw [pagePermits, hrule]

/-- User mode needs U/S in every entry, and R/W in every entry for a write. -/
theorem pagePermits_standard_user :
    pagePermits c .user acc wp usPde rwPde pte = true ↔
      usPde = true ∧ pte.all Prod.fst = true ∧ (acc = .write → rwPde = true ∧ pte.all Prod.snd = true) := by
  rw [pagePermits_standard hrule]
  cases pte with
  | none => simp [pagePermitsDefault, imp_iff_not_or]
  | some f => simp [pagePermitsDefault, imp_iff_not_or, and_assoc]

/-- Supervisor mode needs R/W in every entry, for a write when WP = 1. -/
theorem pagePermits_standard_supervisor :
    pagePermits c .supervisor acc wp usPde rwPde pte = true ↔
      (acc = .write → wp = true → rwPde = true ∧ pte.all Prod.snd = true) := by
  rw [pagePermits_standard hrule]
  cases pte with
  | none => simp [pagePermitsDefault, imp_iff_not_or, or_comm, or_left_comm]
  | some f => simp [pagePermitsDefault, imp_iff_not_or, or_comm, or_left_comm]

end

/-! ### The obligations -/

/-- Settles O49: each clause is the branch of the walk, or of the TLB hit, in which the protection check fails. -/
theorem deniedLargePageFaults : Obligations.DeniedLargePageFaults := by
  refine ⟨fun la acc priv s pde hpde hm hp hl hok hperm => ?_, fun la acc priv s pde pte h hc ha => ?_,
    fun la acc priv s pde pte => ⟨fun h vpn => translateByTlb_denied h, fun h vpn => translateByTlb_denied h⟩,
    fun la acc priv s hpg hpae hdenied => ?_, fun c acc wp usPde rwPde usPte rwPte hrule => ?_⟩
  · exact ⟨_, (walk_eq_walkLarge hm hpde hp hl).trans (walkLarge_denied hok hperm), sameRegisters_maybeSetA _ _ s, rfl,
      maybeSetA_mem_cases _ _ s⟩
  · obtain ⟨after, hafter, hw⟩ := walk_faulting_raises h (.inr ⟨hc, rfl, rfl⟩) ha
    obtain rfl := Option.some.inj hafter
    exact ⟨_, hw, sameRegisters_faultStates _ (List.mem_of_getElem? hafter), rfl, _, maybeSetA_mem_cases _ _ s,
      maybeSetA_mem_cases _ _ _⟩
  · obtain ⟨n, hwalk | ⟨e, he, hhit⟩⟩ := translatePaged_cases la acc priv s
    · exact ⟨n, .inl ((translate_paging_on hpg hpae).trans hwalk)⟩
    · obtain ⟨hmem, hmatch, -⟩ := mem_tlbCandidates.mp he
      have hfault := translateByTlb_denied (s := useChoices n s) (la := la) (hdenied e hmem hmatch)
      exact ⟨n, .inr ((translate_paging_on hpg hpae).trans (hhit.trans hfault))⟩
  · simp [pagePermits_standard_user hrule, pagePermits_standard_supervisor hrule]

/-- Settles O56: each mask is the union of those of the bits the test looks at. -/
theorem reservedBitMasks : Obligations.ReservedBitMasks := by
  intro c e hdefault
  have hbit8 := and_bitUnless_eq_zero_iff e (i := 8) (by omega) c.hasPge
  have hbit7 := and_bitUnless_eq_zero_iff e (i := 7) (by omega) c.hasPat
  have hbit12 := and_bitUnless_eq_zero_iff e (i := 12) (by omega) c.hasPat
  have hbit6 := and_twoPow_eq_zero_iff e (i := 6) (by omega)
  have hfield := and_fieldMask_eq_zero_iff e (start := 13) (len := 9)
  refine ⟨?_, ?_, ?_⟩
  · have hmask : (if c.hasPge then 0x040#32 else 0x140#32) =
        (if c.hasPge then 0#32 else BitVec.twoPow 32 8) ||| BitVec.twoPow 32 6 := by split <;> rfl
    rw [hmask, and_or_eq_zero_iff, hbit8, hbit6]
    simp [reservedOk, gFlag, hdefault]
  · rw [and_or_eq_zero_iff]
    refine Iff.trans ?_ (and_congr hbit7 hbit8).symm
    simp [reservedOk, gFlag, hdefault, and_comm]
  · rw [and_or_eq_zero_iff, and_or_eq_zero_iff]
    refine Iff.trans ?_ (and_congr (and_congr hfield hbit12) hbit8).symm
    simp [reservedOk, gFlag, and_comm]

/-- Settles O57: PAE is refused before a walk is made, and the walk stops at the first entry that fails its test. -/
theorem reservedBitsAndPaeRefused : Obligations.ReservedBitsAndPaeRefused := by
  intro la acc priv s
  refine ⟨fun hpg hpae => by simp [translate, hpg, hpae], fun pde hpde hpae hm hp => ⟨fun hok => ?_,
    fun hl hok hm' hp' hok' => ?_⟩, fun hm => walk_unmapped hm, fun pde hpde hm hp hl hok hm' => ?_⟩
  · exact (walk_reserved_pde hm hpde hp hok).trans (reservedFault_refused hpae la acc priv)
  · have hreads : ReadsPageTable s la pde _ := ⟨hm, hpde, hp, hl, hok, hm', rfl⟩
    exact (hreads.walk_reserved hp' hok').trans (reservedFault_refused (s := maybeSetA _ _ s) hpae la acc priv)
  · exact (walk_eq_walkTable hm hpde hp hl).trans (walkTable_unmapped hok hm')

end Sys2Proof.Machine

/-! ## Exceptions of 60_exceptions.md: the privilege rule, the faults of translation, the alignment check -/

namespace Sys2Proof.Machine

/-! ### The control registers outside level 0 -/

/-- CR0, CR3 and CR4 of `t` are those of `s`. -/
structure SameControl (s t : State) : Prop where
  cr0 : t.cr0 = s.cr0
  cr3 : t.cr3 = s.cr3
  cr4 : t.cr4 = s.cr4

theorem SameControl.refl (s : State) : SameControl s s := ⟨rfl, rfl, rfl⟩

theorem SameControl.trans {s t u : State} (h : SameControl s t) (h' : SameControl t u) : SameControl s u :=
  ⟨h'.cr0.trans h.cr0, h'.cr3.trans h.cr3, h'.cr4.trans h.cr4⟩

theorem SameRegisters.sameControl {s t : State} (h : SameRegisters s t) : SameControl s t := ⟨h.cr0, h.cr3, h.cr4⟩

theorem sameControl_writeReg (r : Reg) (v : Word32) (s : State) : SameControl s (writeReg r v s) := ⟨rfl, rfl, rfl⟩

theorem sameControl_advance (i : Instr) (s : State) : SameControl s (advance i s) := ⟨rfl, rfl, rfl⟩

theorem sameControl_writeDataSeg (r : DataSeg) (v : SegReg) (s : State) : SameControl s (writeDataSeg r v s) :=
  ⟨writeDataSeg_cr0 s r v, writeDataSeg_cr3 s r v, writeDataSeg_cr4 s r v⟩

/-- Behind the check of the level nothing is done outside level 0 (log 22). -/
theorem ensures_requireLevel0_outside {R : State → Prop} {s : State} (h : s.cpl ≠ 0) (hs : R s)
    (k : Host.Outcome State Fault Refusal) : Ensures id R (requireLevel0 s k) := by
  rw [requireLevel0_outside h]
  exact hs

theorem ensures_sameControl_store (addr : Nat) (bs : List Byte) (s : State) :
    Ensures id (SameControl s) (andThen (memWrite addr bs s) fun _ t => .next t) :=
  ensures_andThen ((ensures_memWrite addr bs s).mono fun _ ht => ht.1.sameControl) fun _ _ _ ht => ht

theorem ensures_sameControl_storeSelector (sel : Word16) (dst : RegMem) (s : State) :
    Ensures id (SameControl s) (storeSelector sel dst s) := by
  cases dst with
  | reg r =>
    have hu : SameControl s (useChoices 1 s) := ⟨rfl, rfl, rfl⟩
    exact hu.trans (sameControl_writeReg r _ _)
  | mem m =>
    rw [storeSelector_mem]
    exact ensures_andThen (ensures_memOperand (SameControl.refl s)) fun la _ _ _ => ensures_sameControl_store la.toNat _ s

theorem ensures_sameControl_storePseudoDescriptor (d : TableReg) (a : Nat) (s : State) :
    Ensures id (SameControl s) (storePseudoDescriptor d a s) :=
  (ensures_storePseudoDescriptor d a s).mono fun _ ht => ht.1.sameControl

theorem ensures_sameControl_loadDataSeg (r : DataSeg) (sel : Word16) (s : State) :
    Ensures id (SameControl s) (loadDataSeg r sel s) := by
  unfold loadDataSeg
  split
  · exact sameControl_writeDataSeg r _ s
  · trivial

/-- Outside level 0 the instructions that write control registers stop at the check of the level; no other writes one. -/
theorem ensures_sameControl_exec {s : State} (h : s.cpl ≠ 0) (i : Instr) : Ensures id (SameControl s) (exec i s) := by
  have h0 := SameControl.refl s
  cases i with
  | movCr0FromReg r | movRegFromCr0 r | movCr3FromReg r | movRegFromCr3 r | movCr4FromReg r | movRegFromCr4 r | invlpg m =>
    exact ensures_requireLevel0_outside h h0 _
  | sgdt m =>
    rw [exec_sgdt]
    exact ensures_andThen (ensures_memOperand h0) fun _ _ _ _ => ensures_sameControl_storePseudoDescriptor _ _ s
  | sidt m =>
    rw [exec_sidt]
    exact ensures_andThen (ensures_memOperand h0) fun _ _ _ _ => ensures_sameControl_storePseudoDescriptor _ _ s
  | sldt dst => exact ensures_sameControl_storeSelector _ dst s
  | str dst => exact ensures_sameControl_storeSelector _ dst s
  | cpuid =>
    rw [exec_cpuid]
    exact ⟨rfl, rfl, rfl⟩
  | movSreg r src =>
    exact ensures_andThen ((ensures_readRegMem16 src s).mono fun _ ht => ht.1.same.sameControl) fun sel t _ ht =>
      (ensures_sameControl_loadDataSeg r sel t).mono fun _ hu => ht.trans hu
  | movRegImm32 r imm =>
    rw [exec_movRegImm32]
    exact sameControl_writeReg r imm s
  | movEaxMoffs32 off =>
    rw [exec_movEaxMoffs32]
    refine ensures_andThen (ensures_segTranslate h0) fun la _ _ _ => ?_
    exact ensures_andThen ((ensures_memRead la.toNat 4 s).mono fun _ hu => hu.1.same.sameControl) fun _ u _ hu =>
      hu.trans (sameControl_writeReg .eax _ u)
  | movMoffs32Eax off =>
    rw [exec_movMoffs32Eax]
    exact ensures_andThen (ensures_segTranslate h0) fun la _ _ _ => ensures_sameControl_store la.toNat _ s
  | orEaxImm32 imm =>
    rw [exec_orEaxImm32]
    exact ⟨rfl, rfl, rfl⟩

/-- Outside level 0 whatever state a step leaves has the control registers it began with. -/
theorem ensures_sameControl_step {s : State} (h : s.cpl ≠ 0) : Ensures id (SameControl s) (step s) := by
  refine ensures_step (fun t ht => ht.1.same.sameControl) (fun i u hu => ?_) fun i t ht => ht.trans (sameControl_advance i t)
  have hcpl : u.cpl ≠ 0 := by rw [hu.1.same.cpl]; exact h
  exact (ensures_sameControl_exec hcpl i).mono fun _ ht => hu.1.same.sameControl.trans ht

/-! ### The faults of translation -/

/-- The faults a translation of `la` for `acc` at `priv` may end in: its own page fault, not for a reserved bit, and the
deadlock (60_exceptions.md R253, 43_translation_32bit.md R189). -/
inductive TranslationFault (la : Word32) (acc : AccessKind) (priv : Priv) : Fault → Prop where
  | pageFault {cause : PageFaultCause} (h : cause ≠ .reservedBit) (left : State) :
      TranslationFault la acc priv (.exception (.pageFault la acc priv cause) left)
  | deadlock (left : State) : TranslationFault la acc priv (.aliasingDeadlock left)

/-- Where the outcome is a fault, it is one of them. -/
def FaultsAsTranslation {α : Type} (la : Word32) (acc : AccessKind) (priv : Priv) : Result α → Prop
  | .next _ => True
  | .fault e => TranslationFault la acc priv e
  | .refused _ => True

section
variable {la pde pte : Word32} {acc : AccessKind} {priv : Priv} {s : State}

theorem faultsAsTranslation_raise {α : Type} {cause : PageFaultCause} (h : cause ≠ .reservedBit) (s : State) :
    FaultsAsTranslation la acc priv (raise (.pageFault la acc priv cause) s : Result α) := .pageFault h s

theorem faultsAsTranslation_orDeadlock {α : Type} {normal : State → Result α}
    (h : ∀ u, FaultsAsTranslation la acc priv (normal u)) (differed : Bool) (s : State) :
    FaultsAsTranslation la acc priv (orDeadlock differed s normal) := by
  cases differed with
  | false => exact h s
  | true =>
    rw [orDeadlock_differed]
    split
    · exact .deadlock _
    · exact h _

/-- Without PAE a reserved bit is refused, and so raises nothing (44_paging_entries.md R226). -/
theorem faultsAsTranslation_reservedFault {α : Type} (h : paeFlag s.cr4 = false) :
    FaultsAsTranslation la acc priv (reservedFault la acc priv s : Result α) := by
  rw [reservedFault_refused h]
  trivial

theorem faultsAsTranslation_walkLarge (h : paeFlag s.cr4 = false) (pdeAddr : Word32) :
    FaultsAsTranslation la acc priv (walkLarge la acc priv pdeAddr pde s) := by
  unfold walkLarge
  split
  · exact faultsAsTranslation_reservedFault h
  · split
    · exact faultsAsTranslation_raise (by decide) _
    · trivial

theorem faultsAsTranslation_raiseInTableWalk {cause : PageFaultCause} (h : cause ≠ .reservedBit) (before : List State)
    (after : State) : FaultsAsTranslation la acc priv (raiseInTableWalk la acc priv cause before after) :=
  faultsAsTranslation_orDeadlock (faultsAsTranslation_raise h) _ after

theorem faultsAsTranslation_finishTableWalk (pdeAddr pteAddr : Word32) :
    FaultsAsTranslation la acc priv (finishTableWalk la acc pdeAddr pde pteAddr pte s) := by
  unfold finishTableWalk
  refine faultsAsTranslation_orDeadlock (fun _ => ?_) _ _
  trivial

/-- The rest of a walk that reads a page-table entry, one case for each of its tests. -/
theorem ReadsPageTable.faultsAsTranslation (hr : ReadsPageTable s la pde pte) (h : paeFlag s.cr4 = false) :
    FaultsAsTranslation la acc priv (walk la acc priv s) := by
  rw [walk_eq_table hr]
  dsimp only
  split
  · exact faultsAsTranslation_raiseInTableWalk (by decide) _ _
  split
  · exact faultsAsTranslation_reservedFault (s := maybeSetA _ _ s) h
  split
  · exact faultsAsTranslation_raiseInTableWalk (by decide) _ _
  · exact faultsAsTranslation_finishTableWalk _ _

/-- A walk whose directory entry points to a page table is refused before it reads the page-table entry, or reads it. -/
theorem faultsAsTranslation_walk_toTable (h : paeFlag s.cr4 = false)
    (hm : mappedRange s.cfg (pdeAddress s.cr3 la).toNat 4 = true) (hpde : pde = entryAt s (pdeAddress s.cr3 la).toNat)
    (hp : pFlag pde = true) (hl : mapsLargePage s pde = false) :
    FaultsAsTranslation la acc priv (walk la acc priv s) := by
  cases hok : reservedOk s.cfg .pdePT pde with
  | false =>
    rw [walk_eq_walkTable hm hpde hp hl, walkTable_reserved hok]
    exact faultsAsTranslation_reservedFault h
  | true =>
    cases hm' : mappedRange s.cfg (pteAddress pde la).toNat 4 with
    | false =>
      rw [walk_eq_walkTable hm hpde hp hl, walkTable_unmapped hok hm']
      trivial
    | true => exact ReadsPageTable.faultsAsTranslation ⟨hm, hpde, hp, hl, hok, hm', rfl⟩ h

theorem faultsAsTranslation_walk (h : paeFlag s.cr4 = false) : FaultsAsTranslation la acc priv (walk la acc priv s) := by
  cases hm : mappedRange s.cfg (pdeAddress s.cr3 la).toNat 4 with
  | false =>
    rw [walk_unmapped hm]
    trivial
  | true =>
    cases hp : pFlag (entryAt s (pdeAddress s.cr3 la).toNat) with
    | false =>
      rw [walk_notPresent hm hp]
      exact faultsAsTranslation_raise (by decide) s
    | true =>
      cases hl : mapsLargePage s (entryAt s (pdeAddress s.cr3 la).toNat) with
      | true =>
        rw [walk_eq_walkLarge hm rfl hp hl]
        exact faultsAsTranslation_walkLarge h _
      | false => exact faultsAsTranslation_walk_toTable h hm rfl hp hl

theorem faultsAsTranslation_translateByTlb (e : TlbEntry) :
    FaultsAsTranslation la acc priv (translateByTlb e la acc priv s) := by
  unfold translateByTlb
  split
  · trivial
  · exact faultsAsTranslation_raise (by decide) s

end

/-- With paging on the PAE flag is clear where a walk is made: translation under PAE is refused (45_pae_intro.md R245). -/
theorem faultsAsTranslation_translate (la : Word32) (acc : AccessKind) (priv : Priv) (s : State) :
    FaultsAsTranslation la acc priv (translate la acc priv s) := by
  unfold translate
  split
  · trivial
  split
  · trivial
  · rename_i hpae
    obtain ⟨n, hwalk | ⟨e, -, hhit⟩⟩ := translatePaged_cases la acc priv s
    · rw [hwalk]
      exact faultsAsTranslation_walk (s := useChoices n s) (by simpa using hpae)
    · rw [hhit]
      exact faultsAsTranslation_translateByTlb e

/-! ### The alignment check -/

/-- The check is one of user mode alone (R256, log 11). -/
theorem alignmentFaults_supervisor {s : State} (h : s.cpl ≠ 3) (addr n : Nat) : alignmentFaults addr n s = false := by
  simp [alignmentFaults, h]

/-! ### The obligations -/

/-- Settles O16: the rule of a step, of the state it goes on in. -/
theorem controlRegistersNeedLevelZero : Obligations.ControlRegistersNeedLevelZero := by
  intro s t hcpl h
  have hc : SameControl s t := (ensures_sameControl_step hcpl).next h
  exact ⟨hc.cr0, hc.cr3, hc.cr4⟩

/-- Settles O52: the causes that are left are a not-present entry and protection. -/
theorem translationRaisesPageFaultsOnly : Obligations.TranslationRaisesPageFaultsOnly := by
  intro la acc priv s e h
  have hf := faultsAsTranslation_translate la acc priv s
  rw [h] at hf
  cases hf with
  | @pageFault cause hcause left =>
    cases cause with
    | notPresent => exact .inl ⟨left, rfl⟩
    | protection => exact .inr (.inl ⟨left, rfl⟩)
    | reservedBit => exact absurd rfl hcause
  | deadlock left => exact .inr (.inr ⟨left, rfl⟩)

/-- Settles O42: each instruction begins with its access, whose alignment is checked once it has translated. -/
theorem misalignedAccessFaults : Obligations.MisalignedAccessFaults :=
  ⟨fun _ _ _ _ _ _ _ _ hp ha hal ht => (exec_beginsWithAccess hp ha).misaligned ht hal,
    fun addr n _ h => alignmentFaults_supervisor h addr n⟩

end Sys2Proof.Machine

/-! ## The machine after reset of 70_reset_and_hazards.md: the open configuration, paging off, the invariant -/

namespace Sys2Proof

/-! ### The configuration after reset -/

/-- The constraints of R5, and PhysMap inside the physical address space, as propositions. -/
theorem Config.wf_iff (c : Config) :
    c.wf = true ↔
      (c.physBits = .bits36 → c.hasPae = true ∨ c.hasPse36 = true) ∧ (c.hasPse36 = true → c.hasPse = true) ∧
        ∀ r ∈ c.physMap, r.base + r.size ≤ 2 ^ c.physBits.toNat := by
  cases hw : c.physBits <;> simp [Config.wf, hw, and_assoc, imp_iff_not_or, or_comm]

/-- Either width of a physical address reaches the 4 GBytes of a linear one. -/
theorem PhysWidth.two_pow_32_le (w : PhysWidth) : 2 ^ 32 ≤ 2 ^ w.toNat := by
  cases w <;> decide

/-- Whatever the open processor has, the configuration after reset keeps the constraints of R5: it claims 36 address bits
only beside PAE or PSE-36, and PSE-36 only beside PSE. -/
theorem Config.atReset_wf : Config.atReset.wf = true := by
  refine (Config.wf_iff _).mpr ⟨fun hw => ?wide, fun hp => ?pse36, fun r hr => ?physMap⟩
  case wide =>
    cases hf : Config.processor.hasPae || (Config.processor.hasPse && Config.processor.hasPse36) with
    | true => exact (Bool.or_eq_true _ _).mp hf
    | false => simp [Config.atReset, hf] at hw
  case pse36 => exact ((Bool.and_eq_true _ _).mp hp).1
  case physMap =>
    obtain rfl : r = ⟨0, 2 ^ 32⟩ := List.mem_singleton.mp hr
    simpa using PhysWidth.two_pow_32_le _

end Sys2Proof

namespace Sys2Proof.Machine

/-! ### The registers after reset -/

/-- A CR4 of 0 asks for no feature (10_state.md R28). -/
theorem cr4FeatureMissing_zero (c : Config) : cr4FeatureMissing c 0#32 = false := by
  simp [cr4FeatureMissing, pseFlag, paeFlag, pgeFlag]

/-- Every data-segment register is usable after reset (log 6). -/
theorem readDataSeg_reset_usable (r : DataSeg) : (readDataSeg State.reset r).usable = true := by
  cases r <;> rfl

/-! ### The obligations -/

/-- Settles O10: bit 31 of the family's CR0, 60000010h, is clear. -/
theorem resetHasPagingOff : Obligations.ResetHasPagingOff := by
  unfold Obligations.ResetHasPagingOff
  decide

/-- Settles O11: the configuration meets R5 for every processor, CR4 is 0, every segment register is usable, and memory, the
TLB and the bytes stored to are empty. -/
theorem resetHasInvariant : Obligations.ResetHasInvariant where
  cfgWf := Config.atReset_wf
  memWf := reset_mem_wf
  memMapped := List.forall_mem_nil _
  tlbNodup := List.nodup_nil
  tlbOk := List.forall_mem_nil _
  features := cr4FeatureMissing_zero Config.atReset
  noPaePaging := (Bool.and_eq_false_iff).mpr (.inl resetHasPagingOff)
  unusableIsNull r h := absurd (readDataSeg_reset_usable r) (by simp [h])
  writtenNodup := List.nodup_nil
  writtenMapped := List.forall_mem_nil _

end Sys2Proof.Machine

/-! ## Byte sequences written out in 95_test_vectors.md -/

namespace Sys2Proof

/-- What encodes a well-formed instruction, with nothing after it, decodes to that instruction. -/
theorem decode_eq_done_of_encode_eq {i : Instr} {bs : List Byte} (hwf : i.wf = true) (hcode : encode i = bs) :
    decode bs = .done i [] := by
  simpa [hcode] using decode_encode hwf []

/-- Settles O3: each of the nine is what the encoder writes of its instruction, so the decoder reads that instruction back. -/
theorem specWordsDecode : Obligations.SpecWordsDecode := by
  refine ⟨?sgdt, ?loadCr3, ?readCr3, ?loadCr0, ?loadDs, ?cpuid, ?loadImm32, ?loadMoffs32, ?orImm32⟩ <;>
    exact decode_eq_done_of_encode_eq rfl rfl

end Sys2Proof
